-- ==== Sys2Proof/Word.lean ====
section
/-! DEFINITION. The words the block moves: every word on `CMD` and `RSP` is 32 bits (R8), and so is a Pixel (R21). -/

namespace Sys2Proof

/-- One word on `CMD` or `RSP` (R8). -/
abbrev Word := BitVec 32

/-- One pixel word: white in bits 31:24, red in 23:16, green in 15:8, blue in 7:0 (R21, R64). -/
abbrev Pixel := BitVec 32

/-- A physical index, the position of a pixel in the pixel buffer (R26, R60). -/
abbrev Index := BitVec 16

/-- An Area id as the header carries it (R91). -/
abbrev AreaId := BitVec 4

end Sys2Proof
end

