-- ==== Sys2Proof/Syntax.lean ====
section
/-! DEFINITION. The thirteen commands (R104) as syntax: one constructor of `Instr` per row of spec/opcode_table.json, its
operands already taken out of the header and payload words.  An operand that a short packet does not carry (R93) is
`none`. -/

namespace Sys2Proof

/-- A colour as it is stored, 48 bits: `h` unsigned in units of 1/128 degree, `s` and `v` two's complement in units of
1/25600 (R20, R96). -/
structure Color where
  h : BitVec 16
  s : BitVec 16
  v : BitVec 16
  deriving DecidableEq, Repr

/-- STRIPDESC, one strip descriptor of CONFIGURE (R94). -/
structure StripDesc where
  pin      : BitVec 8
  reversed : Bool
  length   : BitVec 16
  deriving DecidableEq, Repr

/-- SECTION, one section of DEFINE_AREA (R95). -/
structure Section where
  offset : BitVec 16
  length : BitVec 16
  deriving DecidableEq, Repr

/-- The operands of SET_PIXEL (R99). -/
structure PixelWrite where
  index : Index
  pixel : Pixel
  deriving DecidableEq, Repr

/-- The fields of AREA_CMD that are present, after the presence bits are reduced by `LEN` (R97).
`sat` and `bri` are the raw 16 bits, read as two's complement where they are applied (R188). -/
structure AreaFields where
  state : Option Bool
  hue   : Option (BitVec 16)
  sat   : Option (BitVec 16)
  bri   : Option (BitVec 16)
  trans : Option Word
  deriving DecidableEq, Repr

/-- The profile of a Wave: `SHAPE` 0 and 1 (R98). -/
inductive WaveShape where
  | triangular
  | sinusoidal
  deriving DecidableEq, Repr

/-- The `KIND` field of EFFECT (R98): the three effect names, and the codes that are not names (R191). -/
inductive EffectName where
  | rainbow
  | wave (shape : WaveShape)
  | cylon
  | unnamed (code : BitVec 3)
  deriving DecidableEq, Repr

/-- The operands of EFFECT (R98); `duration` is present when `HAS_DUR` is 1 and the third payload word is there. -/
structure EffectRequest where
  name     : EffectName
  rate     : Word
  width    : BitVec 16
  duration : Option Word
  deriving DecidableEq, Repr

/-- The commands of R104. -/
inductive Instr where
  /-- NOP (R260). -/
  | nop
  /-- CONFIGURE (R150). -/
  | configure (strips : List StripDesc)
  /-- DEFINE_AREA (R156). -/
  | defineArea (area : AreaId) (sections : List Section)
  /-- SET_PIXEL (R160). -/
  | setPixel (write : Option PixelWrite)
  /-- SHOW (R240). -/
  | showStrips
  /-- AREA_CMD (R187). -/
  | areaCmd (area : AreaId) (fields : AreaFields)
  /-- EFFECT (R190). -/
  | effect (area : AreaId) (request : Option EffectRequest)
  /-- FILL_AREA (R166). -/
  | fillArea (area : AreaId) (color : Option Color)
  /-- TICK (R180). -/
  | tick
  /-- QUERY (R198). -/
  | query (area : AreaId)
  /-- CONVERT (R139). -/
  | convert (color : Option Color)
  /-- RDREG (R261). -/
  | rdreg (reg : BitVec 8)
  /-- WRREG (R262). -/
  | wrreg (reg : BitVec 8) (value : Option Word)
  deriving DecidableEq, Repr

end Sys2Proof
end

