-- ==== Sys2Proof/Config.lean ====
section
/-! DEFINITION. What a build of the block fixes (R6, R7): the implementation parameters as one record, its default value, the
open timing parameters as constants without a value, and the free value by which the environment advances the clock. -/

namespace Sys2Proof

/-- The four channels of a pixel (R21). -/
inductive Channel where
  | white
  | red
  | green
  | blue
  deriving DecidableEq, Repr

/-- The exponent of a power law, the rational `num/den` (R6). -/
structure Gamma where
  num : Nat
  den : Nat
  deriving DecidableEq, Repr

/-- The implementation parameters of R6 that have a default: "fixed when the block is built", and never changed afterwards.
`LUT_N` and `PROTOCOL` have one value only, the cycle counts are below. -/
structure Build where
  /-- `MAX_AREAS`, entries in the Area table. -/
  maxAreas     : Nat
  /-- `MAX_STRIPS`, entries in the Strip table. -/
  maxStrips    : Nat
  /-- `MAX_PIXELS`, words in the pixel buffer. -/
  maxPixels    : Nat
  /-- `MAX_MAP_LEN`, entries in one Area's index map and in one effect's copy of it. -/
  maxMapLen    : Nat
  /-- `TICK_HZ`, ticks per second; only the host's conversions use it (R314). -/
  tickHz       : Nat
  /-- `GAMMA`, the exponent of the value transfer function. -/
  gamma        : Gamma
  /-- `RESET_US`, the minimum idle time of a strip between two frames, in microseconds (R248). -/
  resetUs      : Nat
  /-- `WIRE_ORDER`, the order the four channel bytes of a pixel go out (R244). -/
  wireOrder    : List Channel
  /-- `DEFAULT_COLOR`, the colour given to an Area without one (R138). -/
  defaultColor : Color
  deriving DecidableEq, Repr

/-- The build every example and test vector of the spec uses: every parameter at its default (R6). -/
def Build.default : Build :=
  { maxAreas := 10
    maxStrips := 16
    maxPixels := 1024
    maxMapLen := 1024
    tickHz := 30
    gamma := { num := 11, den := 5 }
    resetUs := 80
    wireOrder := [.green, .red, .blue, .white]
    defaultColor := { h := 0#16, s := 0#16, v := 25600#16 } }

namespace Config

/-! ### Constants of the number formats (R7) -/

/-- `HUE_MOD`, 360 degrees in hue units (R7). -/
def hueMod : Nat := 46080

/-- `LOBE`, 120 degrees in hue units (R7). -/
def lobe : Nat := 15360

/-- `SV_ONE`, saturation or value 1.0 (R7). -/
def svOne : Nat := 25600

/-- `Q_ONE`, 1.0 at the output of a lookup table (R7). -/
def qOne : Nat := 65536

/-- The value of register `ID` (R44). -/
def idWord : Word := 0x4B4C5001#32

/-! ### Open timing parameters (R245, R248)

The spec gives no number: "the three cycle counts are positive constants, the two high times differ".
Each is built from a constant without a body so that exactly those three facts hold and nothing else can be
proved of them (assumption log 4). -/

/-- Free: `T0H_CYC` less one. -/
opaque t0hLess1 : Nat

/-- Free: fixes `T1H_CYC`. -/
opaque t1hLess1 : Nat

/-- Free: `TL_CYC` less one. -/
opaque tlLess1 : Nat

/-- Free: `CPU_HZ` less one. -/
opaque cpuHzLess1 : Nat

/-- `T0H_CYC`, the high time of a 0 bit in processor cycles (R245). -/
def t0hCyc : Nat := t0hLess1 + 1

/-- `T1H_CYC`, the high time of a 1 bit; it differs from `T0H_CYC` (R245). -/
def t1hCyc : Nat := if t1hLess1 = t0hLess1 then t1hLess1 + 2 else t1hLess1 + 1

/-- `TL_CYC`, the low time after either bit (R245). -/
def tlCyc : Nat := tlLess1 + 1

/-- `CPU_HZ`, the processor clock the cycle counts refer to (R248); no rule computes with it. -/
def cpuHz : Nat := cpuHzLess1 + 1

/-! ### The clock (R34, R286) -/

/-- FREE VALUE (assumption log 3): the microseconds by which the environment has advanced `NOW` between the block's
reading number `n` of the clock and the reading before it.  `NOW` "never decreases"; nothing else constrains it. -/
opaque elapsedUs : Nat → Nat

end Config

/-- The values R6 allows a build: its bounds, `GAMMA` "rational in [2.2, 2.4]", the four channels in some order.  That
`DEFAULT_COLOR` is a colour in range is read from R20 and R27 (assumption log 1). -/
structure Build.Ok (b : Build) : Prop where
  areas   : b.maxAreas ≤ 16
  strips  : b.maxStrips ≤ 255
  pixels  : b.maxPixels ≤ 65535
  gamma   : 0 < b.gamma.den ∧ 11 * b.gamma.den ≤ 5 * b.gamma.num ∧ 5 * b.gamma.num ≤ 12 * b.gamma.den
  order   : b.wireOrder.Perm [.green, .red, .blue, .white]
  default : b.defaultColor.h.toNat < Config.hueMod ∧ b.defaultColor.s.toNat ≤ Config.svOne ∧
    b.defaultColor.v.toNat ≤ Config.svOne

end Sys2Proof
end

