-- ==== Sys2Proof/Machine/State.lean ====
section
/-! DEFINITION. The architectural state (10_state.md) as plain data, its value after reset (R53, R300), and the reasons a
step can stop. -/

namespace Sys2Proof.Machine

/-- The pixel buffer (R24) as (index, word) pairs: indices strictly rising, and no word equal to what an unlisted index
reads as, the zero that CONFIGURE fills the buffer with (R150). -/
abbrev Memory := List (Nat × Pixel)

/-- What an index below `NPIX` that is not listed reads as: CONFIGURE "zero-initializes" the buffer (R150). -/
def Memory.unlisted : Pixel := 0#32

/-- The canonical form of the pixel buffer: indices strictly rising, no entry equal to what an unlisted index reads as. -/
abbrev Memory.wf (m : Memory) : Prop :=
  m.Pairwise (fun x y => x.1 < y.1) ∧ ∀ cell ∈ m, cell.2 ≠ Memory.unlisted

/-- One valid entry of the Strip table, `STRIP[k]` (R22, R33). -/
structure Strip where
  pin       : BitVec 8
  offset    : Index
  length    : BitVec 16
  reversed  : Bool
  lastShown : Nat
  deriving DecidableEq, Repr

/-- What a bound effect does: `KIND` with the fields that kind uses (R30); `HAS_DUR` and `DUR` of the continuous kinds
are one optional duration. -/
inductive Motion where
  | transition (start stop : Color) (dur : Word)
  | rainbow (rate : Word) (width : BitVec 16) (dur : Option Word)
  | wave (rate : Word) (width : BitVec 16) (shape : WaveShape) (dur : Option Word)
  | cylon (rate : Word) (width : BitVec 16) (dur : Option Word)
  deriving DecidableEq, Repr

/-- An occupied effect slot (R30): `START`, `EMAP`, and the kind with its fields. -/
structure Effect where
  start  : Nat
  emap   : List Index
  motion : Motion
  deriving DecidableEq, Repr

/-- One entry of the Area table, `AREA[a]` (R25 to R30); an empty slot (`KIND = 0`) is `none`. -/
structure Area where
  defined : Bool
  map     : List Index
  base    : Color
  on      : Bool
  dirty   : Bool
  eff     : Option Effect
  deriving DecidableEq, Repr

/-- What an observer of the wire sees (R12): the `emitBit` triples in order (R247), and around each frame the edge of
`IRQ_DISABLE` with the value `NOW` has there (R243, R250). -/
inductive WireEvent where
  /-- `IRQ_DISABLE` goes to 1 for a frame of strip `strip` at time `now`. -/
  | frameStart (strip : Nat) (now : Nat)
  /-- One `emitBit(pin, high_cycles, low_cycles)` call. -/
  | emitBit (pin : BitVec 8) (high low : Nat)
  /-- `IRQ_DISABLE` goes back to 0 at time `now`. -/
  | frameEnd (strip : Nat) (now : Nat)
  deriving DecidableEq, Repr

/-- The state of the block.  `NSTRIPS` is the length of `strips` (R22, R23), `MAX_AREAS` the length of `areas` (R25). -/
@[ext]
structure State where
  /-- The parameters of the build (R6); no step writes them. -/
  build      : Build
  /-- The valid entries of the Strip table, in declaration order (R22). -/
  strips     : List Strip
  /-- `NPIX`, the length of the pixel buffer (R23). -/
  npix       : BitVec 16
  /-- `PIXBUF` (R24). -/
  pixbuf     : Memory
  /-- The Area table, ids ascending (R25). -/
  areas      : List Area
  /-- `TICK` (R32), held as an unbounded number as R32 allows. -/
  tick       : Nat
  /-- `CTRL` (R45). -/
  ctrl       : Word
  /-- `STATUS` (R46). -/
  status     : Word
  /-- `IRQ_DISABLE` (R35). -/
  irqDisable : Bool
  /-- `NOW` as it was last read (R34). -/
  now        : Nat
  /-- `RSP`, oldest word first (R36). -/
  rsp        : List Word
  /-- `CMD`, oldest word first (R37). -/
  cmd        : List Word
  /-- The tail of `CMD` behind a packet that its writer has not finished: the TICK packets queued there (R285, R313). -/
  waitingTicks : Nat
  /-- The wire trace, oldest event first (R12, R250). -/
  wire       : List WireEvent
  /-- The model's own: how often the clock has been read, which selects the next free value (assumption log 3). -/
  clockReads : Nat
  deriving DecidableEq, Repr

/-- The sentinel `NONE = (0, 0, -25600)` (R20, R138). -/
def noneColor : Color := { h := 0#16, s := 0#16, v := BitVec.ofInt 16 (-25600) }

/-- An Area after reset (R53, R300). -/
def Area.reset : Area :=
  { defined := false, map := [], base := noneColor, on := false, dirty := false, eff := none }

/-- The state of a build after reset (R53, R300). -/
def State.resetOf (b : Build) : State :=
  { build := b
    strips := []
    npix := 0#16
    pixbuf := []
    areas := List.replicate b.maxAreas Area.reset
    tick := 0
    ctrl := 0#32
    status := 0#32
    irqDisable := false
    now := 0
    rsp := []
    cmd := []
    waitingTicks := 0
    wire := []
    clockReads := 0 }

/-- The state after reset, of the build with every parameter at its default (R6, R53, R300). -/
def State.reset : State := State.resetOf Build.default

/-- The flags of `STATUS` that a step can set (R46). -/
inductive StatusBit where
  | configured
  | bufAllocFail
  | mapAllocFail
  | unmappedIndex
  | badCmd
  | badArea
  | badIndex
  deriving DecidableEq, Repr

/-- The nine registers (R43 to R52). -/
inductive Reg where
  | id
  | ctrl
  | status
  | tickLo
  | tickHi
  | npix
  | nstrips
  | areasDefined
  | active
  deriving DecidableEq, Repr

/-- The two colour strategies (R45, R120). -/
inductive Strategy where
  | fast
  | reference
  deriving DecidableEq, Repr

/-- What a conversion reads beside its colour: the strategy in force (R45) and the build's `GAMMA` (R6). -/
structure Conversion where
  strategy : Strategy
  gamma    : Gamma
  deriving DecidableEq, Repr

/-- The states of an effect (R31, R192).  A slot that is empty has no effect in it: its last effect is complete or was
discarded. -/
inductive EffectPhase where
  | empty
  | bound
  | running
  deriving DecidableEq, Repr

/-- Why the machine stops.  The spec has no fault ("No error stops the block", R270). -/
inductive Fault where
  /-- Raised by the transmitter when a strip reaches past `NPIX`, to a word that "does not exist" (R24).  Safe: no state that
  meets the invariant of R39 raises it, and R39 holds after reset and after every step. -/
  | pixelOutsideBuffer (index : Nat)
  deriving DecidableEq, Repr

/-- Why a step has no meaning. -/
inductive Refusal where
  /-- Raised by `exec` alone, for an instruction that has no meaning yet.  Safe. -/
  | notModelled (mnemonic : String)
  deriving DecidableEq, Repr

end Sys2Proof.Machine
end

