-- ==== Sys2Proof/Machine/Flags.lean ====
section
/-! DEFINITION. `STATUS` and `CTRL` (R45, R46).  `flag` is the block's only form of raising an error: it sets a sticky bit and
continues; there is no trap entry and no return from one (R10, R270, R282, R283). -/

namespace Sys2Proof.Machine

/-- The position of a flag in `STATUS` (R46). -/
def StatusBit.mask : StatusBit → Word
  | .configured => 0x00000001#32
  | .bufAllocFail => 0x00000002#32
  | .mapAllocFail => 0x00000004#32
  | .unmappedIndex => 0x00000008#32
  | .badCmd => 0x00000010#32
  | .badArea => 0x00000020#32
  | .badIndex => 0x00000040#32

/-- The bits of `STATUS` that hold a flag, 0 to 6; bits 31:8 read as 0 and bit 7 mirrors `IRQ_DISABLE` (R46). -/
def flagBits : Word := 0x0000007F#32

/-- `STATUS.IRQ_MASKED`, bit 7 (R46). -/
def irqMaskedBit : Word := 0x00000080#32

/-- The sticky bits, 1 to 6, that a WRREG clears where it writes a 1 (R46, R262). -/
def stickyBits : Word := 0x0000007E#32

/-- `flag STATUS.X` (R10, R270): the sticky bit is set, bits already set stay set (R277), and the step goes on. -/
def State.flag (s : State) (b : StatusBit) : State := { s with status := s.status ||| b.mask }

/-- Whether a flag of `STATUS` is set. -/
def State.flagged (s : State) (b : StatusBit) : Bool := s.status &&& b.mask ≠ 0#32

/-- The value `STATUS` reads as (R46). -/
def statusValue (s : State) : Word :=
  (s.status &&& flagBits) ||| (if s.irqDisable then irqMaskedBit else 0#32)

/-- A write to `STATUS`: write one to clear (R46, R262). -/
def State.clearStatus (s : State) (x : Word) : State :=
  { s with status := s.status &&& ~~~(x &&& stickyBits) }

/-- `CTRL.STRATEGY`, bit 0 of `CTRL`, is the only bit of it that can be written (R45). -/
def ctrlBits : Word := 0x00000001#32

/-- A write to `CTRL` (R45, R262). -/
def State.writeCtrl (s : State) (x : Word) : State := { s with ctrl := x &&& ctrlBits }

/-- The strategy in force (R45). -/
def State.strategy (s : State) : Strategy := if s.ctrl.getLsbD 0 then .reference else .fast

/-- How colours are converted now (R6, R45, R120). -/
def State.conversion (s : State) : Conversion := { strategy := s.strategy, gamma := s.build.gamma }

end Sys2Proof.Machine
end

