-- ==== Sys2Proof/Machine/Operands.lean ====
section
/-! DEFINITION. Operand forms: how a 16-bit field is read as a hue, a saturation or a value, and which register a number
names. -/

namespace Sys2Proof.Machine

/-- `clamp(s16(x), 0, 25600)`: a saturation or value field brought into range (R121, R188). -/
def clampSv (x : BitVec 16) : Nat := (max 0 (min x.toInt (Config.svOne : Int))).toNat

/-- A hue field brought into range, `h mod 46080` (R121, R188). -/
def wrapHue (h : BitVec 16) : Nat := h.toNat % Config.hueMod

/-- `isNone(c)` is `c.v < 0` (R138). -/
def isNone (c : Color) : Bool := c.v.toInt < 0

/-- `withVal(c, v)`: the same hue and saturation with the value replaced (R137). -/
def withVal (c : Color) (v : BitVec 16) : Color := { c with v := v }

/-- `BLACK` (R138). -/
def black : Color := { h := 0#16, s := 0#16, v := 0#16 }

/-- The register a number names; 0x09 to 0xFF are reserved (R43). -/
def Reg.ofNumber (r : BitVec 8) : Option Reg :=
  match r.toNat with
  | 0x00 => some .id
  | 0x01 => some .ctrl
  | 0x02 => some .status
  | 0x03 => some .tickLo
  | 0x04 => some .tickHi
  | 0x05 => some .npix
  | 0x06 => some .nstrips
  | 0x07 => some .areasDefined
  | 0x08 => some .active
  | _ => none

/-- `KIND` of an effect (R30). -/
def Motion.kind : Motion → Nat
  | .transition _ _ _ => 1
  | .rainbow _ _ _ => 2
  | .wave _ _ _ _ => 3
  | .cylon _ _ _ => 4

/-- `AREA[a].EFF.KIND`, 0 for an empty slot (R30). -/
def Area.kind (r : Area) : Nat :=
  match r.eff with
  | none => 0
  | some e => e.motion.kind

end Sys2Proof.Machine
end

