-- ==== Sys2Proof/Machine/Ops.lean ====
section
/-! DEFINITION. The named operations over the pixel buffer, the Area table, the response queue, the Strip table and the clock.
Raising an error is `State.flag` (Machine/Flags.lean), the one form of exception this block has (R270). -/

namespace Sys2Proof.Machine

/-! ### The pixel buffer -/

/-- The word at an index. -/
def Memory.read : Memory → Nat → Pixel
  | [], _ => Memory.unlisted
  | (k, q) :: m, i => if k = i then q else Memory.read m i

/-- Replaces the word at an index, all 32 bits (R66), and keeps the canonical form. -/
def Memory.write : Memory → Nat → Pixel → Memory
  | [], i, p => if p = Memory.unlisted then [] else [(i, p)]
  | (k, q) :: m, i, p =>
    if i < k then (if p = Memory.unlisted then (k, q) :: m else (i, p) :: (k, q) :: m)
    else if i = k then (if p = Memory.unlisted then m else (i, p) :: m)
    else (k, q) :: Memory.write m i p

/-- `PIXBUF[i]`; words at or beyond `NPIX` do not exist (R24). -/
def State.pixel? (s : State) (i : Nat) : Option Pixel :=
  if i < s.npix.toNat then some (s.pixbuf.read i) else none

/-- `setPixel(i, p)`, the only write to the pixel buffer (R161). -/
def State.setPixel (s : State) (i : Index) (p : Pixel) : State :=
  if i.toNat < s.npix.toNat then { s with pixbuf := s.pixbuf.write i.toNat p } else s.flag .badIndex

/-- Several `setPixel`s, in the order of the list (R166, R210). -/
def State.setPixels (s : State) (writes : List (Index × Pixel)) : State :=
  writes.foldl (fun t w => t.setPixel w.1 w.2) s

/-! ### The Area table -/

/-- `AREA[a]`; `none` for an id at or above `MAX_AREAS`. -/
def State.area? (s : State) (a : Nat) : Option Area := s.areas[a]?

/-- `AREA[a] <- r`. -/
def State.setArea (s : State) (a : Nat) (r : Area) : State := { s with areas := s.areas.set a r }

/-- `areaOk(a)` (R162): the Area when its id is in range and it is defined, else `none`, and then the command that asked
flags `BAD_AREA`. -/
def State.definedArea? (s : State) (a : AreaId) : Option Area :=
  match s.area? a.toNat with
  | none => none
  | some r => if r.defined then some r else none

/-! ### The response queue -/

/-- `respond(w)` appends a word to `RSP` (R10, R36). -/
def State.respond (s : State) (w : Word) : State := { s with rsp := s.rsp ++ [w] }

/-! ### Registers -/

/-- The number whose bit `k` is element `k` of a list. -/
def bitmap : List Bool → Nat
  | [] => 0
  | b :: bs => b.toNat + 2 * bitmap bs

/-- The value a register reads as (R44 to R52). -/
def State.readReg (s : State) : Reg → Word
  | .id => Config.idWord
  | .ctrl => s.ctrl &&& ctrlBits
  | .status => statusValue s
  | .tickLo => BitVec.ofNat 32 s.tick
  | .tickHi => BitVec.ofNat 32 (s.tick / 2 ^ 32)
  | .npix => s.npix.setWidth 32
  | .nstrips => BitVec.ofNat 32 s.strips.length
  | .areasDefined => BitVec.ofNat 32 (bitmap (s.areas.map Area.defined))
  | .active => BitVec.ofNat 32 (bitmap (s.areas.map fun r => r.eff.isSome))

/-! ### The clock and the wire -/

/-- A reading of `NOW` (R34): the environment has advanced it by a free amount since the last reading. -/
def State.readClock (s : State) : State :=
  { s with now := s.now + Config.elapsedUs s.clockReads, clockReads := s.clockReads + 1 }

/-- `hold until NOW ≥ t` (R10, R242): nothing happens until the clock has reached `t`. -/
def State.holdUntil (s : State) (t : Nat) : State := { s with now := max s.now t }

/-- Appends to the wire trace (R10, R250). -/
def State.emit (s : State) (events : List WireEvent) : State := { s with wire := s.wire ++ events }

/-- `STRIP[k].LAST_SHOWN <- t` (R246). -/
def State.stampStrip (s : State) (k : Nat) (t : Nat) : State :=
  { s with strips := s.strips.modify k fun r => { r with lastShown := t } }

/-- Sequencing: the next action runs only if this one gave a next state. -/
def andThen (o : Host.Outcome State Fault Refusal) (f : State → Host.Outcome State Fault Refusal) :
    Host.Outcome State Fault Refusal :=
  match o with
  | .next s => f s
  | .fault r => .fault r
  | .refused r => .refused r

end Sys2Proof.Machine
end

