-- ==== Sys2Proof/Machine/Tables.lean ====
section
/-! DEFINITION. The three lookup tables of the build (R38): `GAMMA_LUT` and `SAT_LUT` as R127 defines their entries, for every
`GAMMA`; the two tables the spec prints; and `SIN_LUT`, transcribed row by row from R218. -/

namespace Sys2Proof.Machine

/-- The greatest number below `k + 2^bits` that passes a test which, once failed, stays failed; `k` itself is taken to
pass. -/
def greatest (test : Nat → Bool) : Nat → Nat → Nat
  | 0, k => k
  | bits + 1, k => greatest test bits (if test (k + 2 ^ bits) then k + 2 ^ bits else k)

/-- `k ≤ 65536·(i/200)^g + 1/2`, for positive `k`, decided in integers (R127). -/
def sampleAtLeast (g : Gamma) (i k : Nat) : Bool :=
  (2 * k - 1) ^ g.den * 200 ^ g.num ≤ 2 ^ g.den * 65536 ^ g.den * i ^ g.num

/-- `floor(65536·(i/200)^g + 1/2)`: the sample of a power law at the input i/200, scale 65536 (R126, R127). -/
def powerSample (g : Gamma) (i : Nat) : Nat := greatest (sampleAtLeast g i) 17 0

/-- `GAMMA_LUT` (R127). -/
def gammaLut (g : Gamma) : Nat → Nat := powerSample g

/-- The exponent 1/3 of the saturation transfer function (R123, R127). -/
def cubeRoot : Gamma := { num := 1, den := 3 }

/-- `SAT_LUT` (R127). -/
def satLut : Nat → Nat := powerSample cubeRoot

/-- `GAMMA_LUT` as printed, "normative for GAMMA = 11/5" (R127, R128). -/
def printedGammaLut : List Nat :=
  [0, 1, 3, 6, 12, 20, 29, 41, 55, 71,
   90, 111, 134, 160, 189, 220, 253, 289, 328, 369,
   414, 460, 510, 562, 618, 676, 736, 800, 867, 936,
   1009, 1084, 1163, 1244, 1329, 1416, 1507, 1601, 1697, 1797,
   1900, 2006, 2115, 2228, 2343, 2462, 2584, 2709, 2838, 2969] ++
  [3104, 3242, 3384, 3529, 3677, 3828, 3983, 4141, 4303, 4468,
   4636, 4808, 4983, 5161, 5343, 5529, 5718, 5910, 6106, 6305,
   6508, 6714, 6924, 7137, 7354, 7574, 7798, 8026, 8257, 8492,
   8730, 8972, 9217, 9466, 9719, 9976, 10236, 10499, 10767, 11038,
   11312, 11591, 11873, 12158, 12448, 12741, 13038, 13339, 13643, 13951] ++
  [14263, 14579, 14898, 15221, 15548, 15879, 16214, 16552, 16895, 17241,
   17590, 17944, 18302, 18663, 19029, 19398, 19771, 20148, 20528, 20913,
   21302, 21694, 22091, 22491, 22895, 23303, 23715, 24131, 24551, 24975,
   25403, 25835, 26271, 26711, 27155, 27602, 28054, 28510, 28970, 29434,
   29902, 30374, 30850, 31329, 31813, 32302, 32794, 33290, 33790, 34294] ++
  [34803, 35315, 35832, 36353, 36877, 37406, 37939, 38476, 39018, 39563,
   40112, 40666, 41224, 41786, 42352, 42922, 43496, 44075, 44657, 45244,
   45835, 46431, 47030, 47634, 48242, 48854, 49470, 50090, 50715, 51344,
   51977, 52615, 53256, 53902, 54552, 55207, 55865, 56528, 57195, 57867,
   58543, 59223, 59907, 60595, 61288, 61985, 62687, 63393, 64103, 64817] ++
  [65536]

/-- `SAT_LUT` as printed (R129). -/
def printedSatLut : List Nat :=
  [0, 11206, 14119, 16163, 17789, 19163, 20364, 21437, 22413, 23310,
   24144, 24923, 25656, 26350, 27009, 27638, 28239, 28815, 29369, 29903,
   30419, 30918, 31401, 31870, 32325, 32768, 33199, 33619, 34030, 34430,
   34821, 35204, 35578, 35945, 36305, 36657, 37003, 37343, 37676, 38004,
   38326, 38642, 38954, 39261, 39563, 39860, 40153, 40442, 40727, 41008] ++
  [41285, 41559, 41828, 42095, 42358, 42618, 42875, 43128, 43379, 43627,
   43872, 44114, 44354, 44591, 44826, 45058, 45288, 45516, 45741, 45964,
   46185, 46404, 46621, 46836, 47049, 47260, 47469, 47676, 47882, 48085,
   48287, 48488, 48686, 48884, 49079, 49273, 49466, 49657, 49846, 50034,
   50221, 50406, 50590, 50773, 50954, 51134, 51313, 51491, 51667, 51842] ++
  [52016, 52189, 52360, 52531, 52700, 52869, 53036, 53202, 53368, 53532,
   53695, 53857, 54019, 54179, 54338, 54497, 54654, 54811, 54966, 55121,
   55275, 55428, 55581, 55732, 55883, 56032, 56182, 56330, 56477, 56624,
   56770, 56915, 57059, 57203, 57346, 57489, 57630, 57771, 57911, 58051,
   58190, 58328, 58465, 58602, 58739, 58874, 59009, 59144, 59278, 59411] ++
  [59543, 59675, 59807, 59938, 60068, 60198, 60327, 60456, 60584, 60711,
   60838, 60965, 61091, 61216, 61341, 61465, 61589, 61713, 61836, 61958,
   62080, 62202, 62323, 62443, 62563, 62683, 62802, 62921, 63039, 63157,
   63274, 63391, 63508, 63624, 63740, 63855, 63970, 64084, 64198, 64312,
   64425, 64538, 64650, 64762, 64874, 64985, 65096, 65207, 65317, 65427] ++
  [65536]

/-- `SIN_LUT` (R218). -/
def sinLut : List Nat :=
  [0, 10, 39, 89, 158, 246, 355, 482,
   630, 796, 982, 1187, 1411, 1654, 1915, 2196,
   2494, 2811, 3146, 3499, 3869, 4257, 4662, 5084,
   5522, 5977, 6448, 6935, 7438, 7956, 8489, 9036,
   9598, 10173, 10762, 11365, 11980, 12608, 13248, 13900,
   14563, 15237, 15922, 16617, 17321, 18035, 18758, 19489,
   20228, 20975, 21729, 22489, 23256, 24028, 24806, 25588,
   26375, 27166, 27960, 28757, 29556, 30357, 31160, 31964] ++
  [32768, 33572, 34376, 35179, 35980, 36779, 37576, 38370,
   39161, 39948, 40730, 41508, 42280, 43047, 43807, 44561,
   45308, 46047, 46778, 47501, 48215, 48919, 49614, 50299,
   50973, 51636, 52288, 52928, 53556, 54171, 54774, 55363,
   55938, 56500, 57047, 57580, 58098, 58601, 59088, 59559,
   60014, 60452, 60874, 61279, 61667, 62037, 62390, 62725,
   63042, 63340, 63621, 63882, 64125, 64349, 64554, 64740,
   64906, 65054, 65181, 65290, 65378, 65447, 65497, 65526] ++
  [65536, 65526, 65497, 65447, 65378, 65290, 65181, 65054,
   64906, 64740, 64554, 64349, 64125, 63882, 63621, 63340,
   63042, 62725, 62390, 62037, 61667, 61279, 60874, 60452,
   60014, 59559, 59088, 58601, 58098, 57580, 57047, 56500,
   55938, 55363, 54774, 54171, 53556, 52928, 52288, 51636,
   50973, 50299, 49614, 48919, 48215, 47501, 46778, 46047,
   45308, 44561, 43807, 43047, 42280, 41508, 40730, 39948,
   39161, 38370, 37576, 36779, 35980, 35179, 34376, 33572] ++
  [32768, 31964, 31160, 30357, 29556, 28757, 27960, 27166,
   26375, 25588, 24806, 24028, 23256, 22489, 21729, 20975,
   20228, 19489, 18758, 18035, 17321, 16617, 15922, 15237,
   14563, 13900, 13248, 12608, 11980, 11365, 10762, 10173,
   9598, 9036, 8489, 7956, 7438, 6935, 6448, 5977,
   5522, 5084, 4662, 4257, 3869, 3499, 3146, 2811,
   2494, 2196, 1915, 1654, 1411, 1187, 982, 796,
   630, 482, 355, 246, 158, 89, 39, 10]

/-- Entry `i` of a list. -/
def lutEntry (table : List Nat) (i : Nat) : Nat := table.getD i 0

end Sys2Proof.Machine
end

