-- ==== Sys2Proof/Machine/ColorEngine.lean ====
section
/-! DEFINITION. The colour engine (40_color_engine.md): `toPixel` in both strategies, `mix`, and CONVERT. -/

namespace Sys2Proof.Machine

/-! ### Normalisation and hue weights -/

/-- The distance between two numbers. -/
def absDiff (a b : Nat) : Nat := (a - b) + (b - a)

/-- `dR`, `dG`, `dB`: the distance of a hue from the peak of a channel's lobe (R122). -/
def lobeDistance (c : Channel) (h : Nat) : Nat :=
  match c with
  | .red => min h (Config.hueMod - h)
  | .green => absDiff h Config.lobe
  | .blue => absDiff h (2 * Config.lobe)
  | .white => Config.lobe

/-- `wR`, `wG`, `wB`: the triangular hue weights, 0 to 15360 (R122); white has none. -/
def hueWeight (c : Channel) (h : Nat) : Nat := Config.lobe - lobeDistance c h

/-- `(Wc << 24) | (Rc << 16) | (Gc << 8) | Bc`, each channel in 0 to 255 (R134). -/
def packPixel (white red green blue : Nat) : Pixel :=
  BitVec.ofNat 8 white ++ BitVec.ofNat 8 red ++ BitVec.ofNat 8 green ++ BitVec.ofNat 8 blue

/-! ### The fast strategy (R125 to R134) -/

/-- `lutInterp(T, x)`: linear interpolation on the low 7 bits (R130). -/
def lutInterp (table : Nat → Nat) (x : Nat) : Nat :=
  let i := x / 128
  let f := x % 128
  if 200 ≤ i then table 200
  else table i + ((table (i + 1) - table i) * f + 64) / 128

/-- `D = 2^32 · 15360` (R133). -/
def colorDivisor : Nat := 2 ^ 32 * Config.lobe

/-- `Wc` (R132). -/
def fastWhite (b s : Nat) : Nat := (b * (Config.qOne - s) * 255 + 2 ^ 31) / 2 ^ 32

/-- `Xc` for a weight `w` (R133). -/
def fastColor (b s w : Nat) : Nat := (b * s * 255 * w + colorDivisor / 2) / colorDivisor

/-- One channel of the fast strategy on a normalised colour (R131 to R133). -/
def fastChannel (g : Gamma) (c : Channel) (h s v : Nat) : Nat :=
  match c with
  | .white => fastWhite (lutInterp (gammaLut g) v) (lutInterp satLut s)
  | .red => fastColor (lutInterp (gammaLut g) v) (lutInterp satLut s) (hueWeight .red h)
  | .green => fastColor (lutInterp (gammaLut g) v) (lutInterp satLut s) (hueWeight .green h)
  | .blue => fastColor (lutInterp (gammaLut g) v) (lutInterp satLut s) (hueWeight .blue h)

/-! ### The reference strategy (R123, R124)

R123 computes over the real numbers: with V = v/25600, S = s/25600, γ = `GAMMA` and α the cube root of S, a colour channel is
X = V^γ · α · 255 · w/15360 and white is X = V^γ · (1 − α) · 255, each rounded to `floor(X + 1/2)`.  Both comparisons
`k ≤ X + 1/2` are decided here exactly in integers (assumption log 6): with γ = p/q the first by raising it to the 3q-th
power, the second by raising it to the q-th, which leaves the sign of a number `c0 + c1·α + c2·α²`. -/

/-- `k ≤ X + 1/2` for a colour channel of weight `w`, when `k` is positive. -/
def refColorAtLeast (g : Gamma) (w s v k : Nat) : Bool :=
  (2 * k - 1) ^ (3 * g.den) * Config.lobe ^ (3 * g.den) * Config.svOne ^ (3 * g.num + g.den) ≤
    (510 * w) ^ (3 * g.den) * v ^ (3 * g.num) * s ^ g.den

/-- The number `c0 + c1·α + c2·α²`, α the cube root of a saturation `s/25600`. -/
structure Cubic where
  c0 : Int
  c1 : Int
  c2 : Int
  deriving DecidableEq, Repr

/-- `25600·(1 − α)` times a number, by `25600·α³ = s`. -/
def Cubic.timesOneLessRoot (s : Nat) (x : Cubic) : Cubic :=
  { c0 := Config.svOne * x.c0 - s * x.c2
    c1 := Config.svOne * (x.c1 - x.c0)
    c2 := Config.svOne * (x.c2 - x.c1) }

/-- `(25600·(1 − α))^n`. -/
def oneLessRootPow (s : Nat) : Nat → Cubic
  | 0 => { c0 := 1, c1 := 0, c2 := 0 }
  | n + 1 => (oneLessRootPow s n).timesOneLessRoot s

/-- Whether the three terms of a number are equal, by their cubes. -/
def Cubic.termsEqual (s : Nat) (x : Cubic) : Bool :=
  Config.svOne * x.c0 ^ 3 = s * x.c1 ^ 3 && Config.svOne * x.c1 ^ 3 = s * x.c2 ^ 3

/-- The norm of a number, `x³ + y³ + z³ − 3·x·y·z` of its three terms, times `25600²`. -/
def Cubic.norm (s : Nat) (x : Cubic) : Int :=
  Config.svOne ^ 2 * x.c0 ^ 3 + Config.svOne * x.c1 ^ 3 * s + x.c2 ^ 3 * s ^ 2 -
    3 * Config.svOne * x.c0 * x.c1 * x.c2 * s

/-- Whether a number is at least 0: the norm has its sign, unless the three terms are equal. -/
def Cubic.nonneg (s : Nat) (x : Cubic) : Bool := if x.termsEqual s then 0 ≤ x.c0 else 0 ≤ x.norm s

/-- `((510·V^γ·(1 − α))^q − (2k − 1)^q)·25600^(p+q)`. -/
def refWhiteExcess (g : Gamma) (s v k : Nat) : Cubic :=
  let x := oneLessRootPow s g.den
  let m : Int := 510 ^ g.den * (v : Int) ^ g.num
  { c0 := m * x.c0 - (2 * (k : Int) - 1) ^ g.den * (Config.svOne : Int) ^ (g.num + g.den)
    c1 := m * x.c1
    c2 := m * x.c2 }

/-- `k ≤ X + 1/2` for white, when `k` is positive. -/
def refWhiteAtLeast (g : Gamma) (s v k : Nat) : Bool := (refWhiteExcess g s v k).nonneg s

/-- One channel of the reference strategy on a normalised colour (R123, R124). -/
def refChannel (g : Gamma) (c : Channel) (h s v : Nat) : Nat :=
  match c with
  | .white => greatest (refWhiteAtLeast g s v) 8 0
  | .red => greatest (refColorAtLeast g (hueWeight .red h) s v) 8 0
  | .green => greatest (refColorAtLeast g (hueWeight .green h) s v) 8 0
  | .blue => greatest (refColorAtLeast g (hueWeight .blue h) s v) 8 0

/-! ### toPixel -/

/-- One channel under the strategy in force (R120). -/
def channelValue (conv : Conversion) (c : Channel) (h s v : Nat) : Nat :=
  match conv.strategy with
  | .fast => fastChannel conv.gamma c h s v
  | .reference => refChannel conv.gamma c h s v

/-- `toPixel(c)` (R120, R121, R134): a negative value gives the off pixel, else the strategy works on the normalised
colour. -/
def toPixel (conv : Conversion) (c : Color) : Pixel :=
  if isNone c then 0#32
  else
    let h := wrapHue c.h
    let s := clampSv c.s
    let v := clampSv c.v
    packPixel (channelValue conv .white h s v) (channelValue conv .red h s v)
      (channelValue conv .green h s v) (channelValue conv .blue h s v)

/-! ### mix -/

/-- `a + ((2·(b − a)·num + den) div (2·den))`, rounding toward minus infinity (R136). -/
def mixComponent (a b : Int) (num den : Nat) : Int := a + Int.fdiv (2 * (b - a) * num + den) (2 * den)

/-- `mix(a, b, num, den)`: each component on its own, the hue as a plain number (R136). -/
def mix (a b : Color) (num den : Nat) : Color :=
  { h := BitVec.ofInt 16 (mixComponent a.h.toNat b.h.toNat num den)
    s := BitVec.ofInt 16 (mixComponent a.s.toInt b.s.toInt num den)
    v := BitVec.ofInt 16 (mixComponent a.v.toInt b.v.toInt num den) }

/-! ### CONVERT -/

/-- CONVERT (R139): answers the pixel of a colour; a packet without a whole colour flags `BAD_CMD` and answers 0 (R103). -/
def execConvert (color : Option Color) (s : State) : Host.Outcome State Fault Refusal :=
  match color with
  | none => .next ((s.flag .badCmd).respond 0#32)
  | some c => .next (s.respond (toPixel s.conversion c))

end Sys2Proof.Machine
end

