-- ==== Sys2Proof/Machine/Addressing.lean ====
section
/-! DEFINITION. Strips, the reversal address mapper, Areas and pixel writes (41_addressing.md): CONFIGURE, DEFINE_AREA,
SET_PIXEL and FILL_AREA. -/

namespace Sys2Proof.Machine

/-! ### CONFIGURE -/

/-- The pixels a list of descriptors asks for. -/
def totalLength (strips : List StripDesc) : Nat := (strips.map fun d => d.length.toNat).sum

/-- The Strip table of a CONFIGURE: each strip at the running offset, in declaration order (R150, R151). -/
def placeStrips : Nat → List StripDesc → List Strip
  | _, [] => []
  | off, d :: ds =>
    { pin := d.pin, offset := BitVec.ofNat 16 off, length := d.length, reversed := d.reversed, lastShown := 0 } ::
      placeStrips (off + d.length.toNat) ds

/-- The degraded state of a buffer that could not be allocated: no pixels and no strips (R152). -/
def State.degradeBuffer (s : State) : State :=
  { s.flag .bufAllocFail with strips := [], npix := 0#16, pixbuf := [] }

/-- The Strip table and a zero-filled buffer of the total length (R150). -/
def State.installStrips (s : State) (strips : List StripDesc) : State :=
  { s with strips := placeStrips 0 strips, npix := BitVec.ofNat 16 (totalLength strips), pixbuf := [] }

/-- CONFIGURE (R150, R152, R153). -/
def execConfigure (strips : List StripDesc) (s : State) : Host.Outcome State Fault Refusal :=
  if s.flagged .configured then .next (s.flag .badCmd)
  else if s.build.maxStrips < strips.length then .next (s.flag .badCmd)
  else if s.build.maxPixels < totalLength strips then .next (s.flag .configured).degradeBuffer
  else .next ((s.flag .configured).installStrips strips)

/-! ### logicalToPhysical -/

/-- Whether a strip owns a logical index (R154). -/
def Strip.owns (r : Strip) (li : Nat) : Bool := r.offset.toNat ≤ li && li < r.offset.toNat + r.length.toNat

/-- The physical index of a logical index inside its strip; a reversed strip runs backwards (R154). -/
def Strip.resolve (r : Strip) (li : Nat) : Nat :=
  if r.reversed then (r.offset.toNat + r.length.toNat - 1) - (li - r.offset.toNat) else li

/-- The strip that owns a logical index, and the physical index there; `none` when no strip owns it (R154, R155). -/
def resolveIndex : List Strip → Nat → Option Index
  | [], _ => none
  | r :: rs, li => if r.owns li then some (BitVec.ofNat 16 (r.resolve li)) else resolveIndex rs li

/-- `logicalToPhysical(li)` (R154): an uncovered index resolves to 0 and flags `UNMAPPED_INDEX` (R155). -/
def logicalToPhysical (s : State) (li : Nat) : Index × State :=
  match resolveIndex s.strips li with
  | some p => (p, s)
  | none => (0#16, s.flag .unmappedIndex)

/-- `logicalToPhysical` of several logical indices in order. -/
def resolveAll : List Nat → State → List Index × State
  | [], s => ([], s)
  | li :: lis, s =>
    ((logicalToPhysical s li).1 :: (resolveAll lis (logicalToPhysical s li).2).1,
      (resolveAll lis (logicalToPhysical s li).2).2)

/-! ### DEFINE_AREA -/

/-- The indices a list of sections asks for. -/
def sectionTotal (sections : List Section) : Nat := (sections.map fun w => w.length.toNat).sum

/-- The logical indices of the sections: sections in declaration order, indices of a section ascending, the sum not wrapped
to 16 bits (R156). -/
def sectionIndices (sections : List Section) : List Nat :=
  sections.flatMap fun w => (List.range w.length.toNat).map fun i => w.offset.toNat + i

/-- The index map of an Area and the flags its resolution sets (R156, R157). -/
def buildMap (sections : List Section) (s : State) : List Index × State :=
  if s.build.maxMapLen < sectionTotal sections then ([], s.flag .mapAllocFail)
  else resolveAll (sectionIndices sections) s

/-- DEFINE_AREA (R156 to R159). -/
def execDefineArea (a : AreaId) (sections : List Section) (s : State) : Host.Outcome State Fault Refusal :=
  match s.area? a.toNat with
  | none => .next (s.flag .badArea)
  | some r =>
    .next ((buildMap sections s).2.setArea a.toNat { r with map := (buildMap sections s).1, defined := true })

/-! ### SET_PIXEL and FILL_AREA -/

/-- SET_PIXEL (R160). -/
def execSetPixel (write : Option PixelWrite) (s : State) : Host.Outcome State Fault Refusal :=
  match write with
  | none => .next (s.flag .badCmd)
  | some w => .next (s.setPixel w.index w.pixel)

/-- FILL_AREA (R166): the `LEN` check, then `areaOk`, then the fill of the Area's current map. -/
def execFillArea (a : AreaId) (color : Option Color) (s : State) : Host.Outcome State Fault Refusal :=
  match color with
  | none => .next (s.flag .badCmd)
  | some c =>
    match s.definedArea? a with
    | none => .next (s.flag .badArea)
    | some r => .next (s.setPixels (r.map.map fun i => (i, toPixel s.conversion c)))

end Sys2Proof.Machine
end

