-- ==== Sys2Proof/Machine/EffectKinds.lean ====
section
/-! DEFINITION. The four effect kinds (43_effect_variants.md): what one update writes and when it reports completion.  The
frame at elapsed `e` is a function of `e`, the slot, `EffColor` and the strategy alone (R222). -/

namespace Sys2Proof.Machine

/-- A 16-bit field from a number that fits it. -/
def field16 (n : Nat) : BitVec 16 := BitVec.ofNat 16 n

/-- `phase16(e, P)` (R211). -/
def phase16 (e p : Nat) : Nat := if p = 0 then 0 else (65536 * (e % p)) / p

/-- Completion: Transition at `e ≥ DUR` (R212), the continuous kinds at `e > DUR` when a duration is set (R213). -/
def Motion.done (m : Motion) (e : Nat) : Bool :=
  match m with
  | .transition _ _ dur => dur.toNat = 0 || dur.toNat ≤ e
  | .rainbow _ _ none => false
  | .rainbow _ _ (some d) => d.toNat < e
  | .wave _ _ _ none => false
  | .wave _ _ _ (some d) => d.toNat < e
  | .cylon _ _ none => false
  | .cylon _ _ (some d) => d.toNat < e

/-- The colour of a Transition at elapsed `e` (R212). -/
def transitionColor (start stop : Color) (dur : Word) (e : Nat) : Color :=
  if dur.toNat = 0 ∨ dur.toNat ≤ e then stop else mix start stop e dur.toNat

/-- The colour of position `i` of a Rainbow (R214). -/
def rainbowColor (ec : Color) (rate width e i : Nat) : Color :=
  let hue0 := if rate = 0 then 0 else (Config.hueMod * (e % rate)) / rate
  { h := field16 ((hue0 + i * width) % Config.hueMod), s := field16 Config.svOne, v := ec.v }

/-- `tri16(ph)` (R217). -/
def tri16 (ph : Nat) : Nat := if ph < 32768 then 2 * ph else 2 * (65536 - ph)

/-- The multiplier of a Wave at a phase (R216 to R218). -/
def waveProfile (shape : WaveShape) (ph : Nat) : Nat :=
  match shape with
  | .triangular => tri16 ph
  | .sinusoidal => lutEntry sinLut (ph / 256)

/-- The phase of position `i` of a Wave: time phase less space phase, modulo 65536 (R216). -/
def wavePhase (rate width e i : Nat) : Nat :=
  let sp := if width = 0 then 0 else (65536 * (i % width)) / width
  (phase16 e rate + (65536 - sp)) % 65536

/-- The colour of position `i` of a Wave (R216). -/
def waveColor (ec : Color) (rate width : Nat) (shape : WaveShape) (e i : Nat) : Color :=
  withVal ec (field16 ((ec.v.toNat * waveProfile shape (wavePhase rate width e i) + 32768) / 65536))

/-- The band centre of a Cylon over `n` positions, in 1/256 of a position (R220). -/
def cylonCentre (n rate e : Nat) : Nat :=
  let t := phase16 e rate
  let tri := if t < 32768 then t else 65536 - t
  ((n - 1) * 256 * tri) / 32768

/-- The pixel of position `i` of a Cylon: off outside the band, written without `toPixel` (R220). -/
def cylonPixel (conv : Conversion) (ec : Color) (n rate width e i : Nat) : Pixel :=
  let hw := width * 128
  let d := absDiff (i * 256) (cylonCentre n rate e)
  if hw = 0 ∨ hw ≤ d then 0#32
  else toPixel conv (withVal ec (field16 ((2 * ec.v.toNat * (hw - d) + hw) / (2 * hw))))

/-- The pixels one update writes, position 0 first (R210): `n` positions at elapsed `e`. -/
def Motion.frame (conv : Conversion) (ec : Color) (n e : Nat) : Motion → List Pixel
  | .transition start stop dur => List.replicate n (toPixel conv (transitionColor start stop dur e))
  | .rainbow rate width _ =>
    (List.range n).map fun i => toPixel conv (rainbowColor ec rate.toNat width.toNat e i)
  | .wave rate width shape _ =>
    (List.range n).map fun i => toPixel conv (waveColor ec rate.toNat width.toNat shape e i)
  | .cylon rate width _ =>
    (List.range n).map fun i => cylonPixel conv ec n rate.toNat width.toNat e i

end Sys2Proof.Machine
end

