-- ==== Sys2Proof/Machine/Transmitter.lean ====
section
/-! DEFINITION. The transmitter (44_transmitter.md): the show procedure, one frame per strip, and SHOW. -/

namespace Sys2Proof.Machine

/-- A channel byte of a pixel word: W 31:24, R 23:16, G 15:8, B 7:0 (R21, R241). -/
def channelByte (p : Pixel) (c : Channel) : BitVec 8 :=
  match c with
  | .white => p.extractLsb' 24 8
  | .red => p.extractLsb' 16 8
  | .green => p.extractLsb' 8 8
  | .blue => p.extractLsb' 0 8

/-- The bits of a byte, most significant first (R244). -/
def byteBits (b : BitVec 8) : List Bool := [7, 6, 5, 4, 3, 2, 1, 0].map fun k => b.getLsbD k

/-- The 32 bits of a pixel, its channel bytes in an order (R244). -/
def pixelBits (order : List Channel) (p : Pixel) : List Bool := order.flatMap fun c => byteBits (channelByte p c)

/-- One bit as one pulse (R245). -/
def pulse (pin : BitVec 8) (bit : Bool) : WireEvent :=
  .emitBit pin (if bit then Config.t1hCyc else Config.t0hCyc) Config.tlCyc

/-- The pulses of a list of pixels, first pixel first (R241, R244). -/
def framePulses (order : List Channel) (pin : BitVec 8) (pixels : List Pixel) : List WireEvent :=
  pixels.flatMap fun p => (pixelBits order p).map (pulse pin)

/-- The processor cycles a list of events takes on the wire (R247, R252). -/
def wireCycles : List WireEvent → Nat
  | [] => 0
  | .emitBit _ high low :: es => high + low + wireCycles es
  | .frameStart _ _ :: es => wireCycles es
  | .frameEnd _ _ :: es => wireCycles es

/-- The pixels at a list of indices, or the first index at which there is no pixel (R24). -/
def readPixels (s : State) : List Nat → Except Nat (List Pixel)
  | [] => .ok []
  | i :: is =>
    match s.pixel? i with
    | none => .error i
    | some p =>
      match readPixels s is with
      | .ok ps => .ok (p :: ps)
      | .error j => .error j

/-- The physical indices a strip owns, in the order they go out (R62, R241). -/
def Strip.indices (r : Strip) : List Nat := (List.range r.length.toNat).map fun j => r.offset.toNat + j

/-- Before the first pulse of a frame: the reset-gap hold, then `IRQ_DISABLE <- 1` (R241 to R243). -/
def State.openFrame (s : State) (k : Nat) (r : Strip) : State :=
  let t := s.readClock.holdUntil (r.lastShown + s.build.resetUs)
  { t with irqDisable := true, wire := t.wire ++ [.frameStart k t.now] }

/-- After the last pulse of a frame: `IRQ_DISABLE <- 0`, and the timestamp is `NOW` (R241, R243, R246). -/
def State.closeFrame (s : State) (k : Nat) : State :=
  let t := s.readClock
  { t.stampStrip k t.now with irqDisable := false, wire := t.wire ++ [.frameEnd k t.now] }

/-- `transmit(k)` (R241): one frame of strip `k`. -/
def transmit (s : State) (k : Nat) (r : Strip) : Host.Outcome State Fault Refusal :=
  match readPixels s r.indices with
  | .error i => .fault (.pixelOutsideBuffer i)
  | .ok pixels => .next (((s.openFrame k r).emit (framePulses s.build.wireOrder r.pin pixels)).closeFrame k)

/-- The turn of strip `k` in a show: a strip of `LENGTH = 0` is skipped (R249). -/
def showStrip (s : State) (k : Nat) : Host.Outcome State Fault Refusal :=
  match s.strips[k]? with
  | none => .next s
  | some r => if r.length = 0#16 then .next s else transmit s k r

/-- The strips of a list of numbers, one after the other. -/
def showFrom : List Nat → State → Host.Outcome State Fault Refusal
  | [], s => .next s
  | k :: ks, s => andThen (showStrip s k) (showFrom ks)

/-- `show()` (R241): every strip in declaration order. -/
def showAll (s : State) : Host.Outcome State Fault Refusal := showFrom (List.range s.strips.length) s

/-- SHOW (R240). -/
def execShow (s : State) : Host.Outcome State Fault Refusal := showAll s

end Sys2Proof.Machine
end

