-- ==== Sys2Proof/Machine/EffectEngine.lean ====
section
/-! DEFINITION. The effect engine (42_effect_engine.md): the tick, binding, AREA_CMD, EFFECT and QUERY. -/

namespace Sys2Proof.Machine

/-! ### The colours of an Area -/

/-- `EffColor(a)` (R185). -/
def effColor (r : Area) : Color :=
  if isNone r.base then black
  else if r.on then r.base
  else withVal r.base 0#16

/-- `CurrentColor(a)` at tick number `tick` (R186): what a running Transition last wrote, else `EffColor`. -/
def currentColor (tick : Nat) (r : Area) : Color :=
  match r.eff with
  | some { start := start, emap := _, motion := .transition c0 c1 dur } =>
    if tick = start then c0 else transitionColor c0 c1 dur (tick - 1 - start)
  | _ => effColor r

/-! ### Binding -/

/-- `bind(a, E)` (R184): the slot holds a new effect with `START = TICK` and a copy of the Area's map. -/
def bindEffect (tick : Nat) (r : Area) (m : Motion) : Area :=
  { r with eff := some { start := tick, emap := r.map, motion := m }, dirty := true }

/-- The state of the effect in a slot, read off the slot and the tick counter (R31): bound until the first update, then
running; a completed effect has left the slot (R183). -/
def Area.phase (tick : Nat) (r : Area) : EffectPhase :=
  match r.eff with
  | none => .empty
  | some e => if tick = e.start then .bound else .running

/-! ### The tick -/

/-- `update(a, cur)` (R210): writes the frame of the tick that carries number `cur` through `EMAP`. -/
def State.writeFrame (s : State) (r : Area) (e : Effect) (cur : Nat) : State :=
  s.setPixels (e.emap.zip (e.motion.frame s.conversion (effColor r) e.emap.length (cur - e.start)))

/-- The turn of Area `a` in the tick that carries number `cur`: its update, and the slot cleared when that reports completion
(R181, R183).  The Boolean is `updated`. -/
def tickArea (cur : Nat) (acc : State × Bool) (a : Nat) : State × Bool :=
  match acc.1.area? a with
  | none => acc
  | some r =>
    match r.eff with
    | none => acc
    | some e =>
      let t := acc.1.writeFrame r e cur
      (if e.motion.done (cur - e.start) then t.setArea a { r with eff := none } else t, true)

/-- Every Area in ascending id (R181). -/
def tickAreas (s : State) : State × Bool := (List.range s.areas.length).foldl (tickArea s.tick) (s, false)

/-- `TICK <- TICK + 1` (R32, R181). -/
def State.advanceTick (s : State) : State := { s with tick := s.tick + 1 }

/-- TICK (R180, R181): updates, then the count, then one show when an Area was updated (R182). -/
def execTick (s : State) : Host.Outcome State Fault Refusal :=
  if (tickAreas s).2 then showAll (tickAreas s).1.advanceTick else .next (tickAreas s).1.advanceTick

/-! ### AREA_CMD -/

/-- None of the state fields is present; a lone duration has nothing to apply to (R189). -/
def AreaFields.empty (f : AreaFields) : Bool :=
  f.state.isNone && f.hue.isNone && f.sat.isNone && f.bri.isNone

/-- `BASE` before fields are applied: `DEFAULT_COLOR` when it is NONE (R6, R187). -/
def startColor (defaultColor base : Color) : Color := if isNone base then defaultColor else base

/-- The present fields applied to an Area (R188). -/
def applyFields (f : AreaFields) (r : Area) : Area :=
  { r with
    on := f.state.getD r.on
    base := { h := match f.hue with
                | none => r.base.h
                | some h => field16 (wrapHue h)
              s := match f.sat with
                | none => r.base.s
                | some x => field16 (clampSv x)
              v := match f.bri with
                | none => r.base.v
                | some x => field16 (clampSv x) } }

/-- The Area with its target state set, before the bind (R187, R188). -/
def retarget (defaultColor : Color) (f : AreaFields) (r : Area) : Area :=
  applyFields f { r with base := startColor defaultColor r.base }

/-- The Area after an AREA_CMD with a state field: retargeted, and a Transition bound from the colour it showed to the
colour it now targets (R187). -/
def commandArea (defaultColor : Color) (tick : Nat) (f : AreaFields) (r : Area) : Area :=
  bindEffect tick (retarget defaultColor f r)
    (.transition (currentColor tick r) (effColor (retarget defaultColor f r)) (f.trans.getD 0#32))

/-- AREA_CMD (R187, R189). -/
def execAreaCmd (a : AreaId) (f : AreaFields) (s : State) : Host.Outcome State Fault Refusal :=
  match s.definedArea? a with
  | none => .next (s.flag .badArea)
  | some r => 
    if AreaFields.empty f then .next s
    else .next (s.setArea a.toNat (commandArea s.build.defaultColor s.tick f r))

/-! ### EFFECT -/

/-- The effect a request names; `none` when its code is not a name (R190, R191). -/
def requestedMotion (q : EffectRequest) : Option Motion :=
  match q.name with
  | .rainbow => some (.rainbow q.rate q.width q.duration)
  | .wave shape => some (.wave q.rate q.width shape q.duration)
  | .cylon => some (.cylon q.rate q.width q.duration)
  | .unnamed _ => none

/-- EFFECT (R190, R191): the `LEN` check, then `areaOk`, then the kind (R273). -/
def execEffect (a : AreaId) (request : Option EffectRequest) (s : State) : Host.Outcome State Fault Refusal :=
  match request with
  | none => .next (s.flag .badCmd)
  | some q =>
    match s.definedArea? a with
    | none => .next (s.flag .badArea)
    | some r =>
      match requestedMotion q with
      | none => .next (s.flag .badCmd)
      | some m => .next (s.setArea a.toNat (bindEffect s.tick r m))

/-! ### QUERY -/

/-- `brightness(v)`: percent, rounded to nearest with ties up (R199). -/
def brightness (v : BitVec 16) : Nat := (v.toNat + 128) / 256

/-- The colour QUERY reports: `BASE`, or zeros when it is NONE (R198). -/
def reportedColor (r : Area) : Color := if isNone r.base then black else r.base

/-- Word 0 of the QUERY response (R102, R198): `VALID`, `STATE`, `COLOR_SET`, `DIRTY`, reserved, `EFFECT`, reserved,
`BRIGHTNESS`. -/
def queryWord0 (r : Area) : Word :=
  1#1 ++ BitVec.ofBool r.on ++ BitVec.ofBool (!isNone r.base) ++ BitVec.ofBool r.dirty ++ 0#1 ++
    BitVec.ofNat 3 r.kind ++ 0#17 ++ BitVec.ofNat 7 (brightness (reportedColor r).v)

/-- Word 1 of the QUERY response (R102, R198). -/
def queryWord1 (r : Area) : Word := (reportedColor r).h ++ (reportedColor r).s

/-- QUERY (R198): two words, and `DIRTY` cleared. -/
def execQuery (a : AreaId) (s : State) : Host.Outcome State Fault Refusal :=
  match s.definedArea? a with
  | none => .next (((s.flag .badArea).respond 0#32).respond 0#32)
  | some r => .next (((s.respond (queryWord0 r)).respond (queryWord1 r)).setArea a.toNat { r with dirty := false })

end Sys2Proof.Machine
end

