-- ==== Sys2Proof/Machine/System.lean ====
section
/-! DEFINITION. System commands (45_system.md): NOP, RDREG and WRREG. -/

namespace Sys2Proof.Machine

/-- NOP (R260). -/
def execNop (s : State) : Host.Outcome State Fault Refusal := .next s

/-- RDREG (R261, R263): the register's value, or 0 with `BAD_CMD` for a reserved number. -/
def execRdreg (reg : BitVec 8) (s : State) : Host.Outcome State Fault Refusal :=
  match Reg.ofNumber reg with
  | some r => .next (s.respond (s.readReg r))
  | none => .next ((s.flag .badCmd).respond 0#32)

/-- A write to a register (R262, R263): `CTRL` and `STATUS` can be written, every other register flags `BAD_CMD`. -/
def State.writeReg (s : State) (x : Word) : Reg → State
  | .ctrl => s.writeCtrl x
  | .status => s.clearStatus x
  | .id => s.flag .badCmd
  | .tickLo => s.flag .badCmd
  | .tickHi => s.flag .badCmd
  | .npix => s.flag .badCmd
  | .nstrips => s.flag .badCmd
  | .areasDefined => s.flag .badCmd
  | .active => s.flag .badCmd

/-- WRREG (R262, R263). -/
def execWrreg (reg : BitVec 8) (value : Option Word) (s : State) : Host.Outcome State Fault Refusal :=
  match value with
  | none => .next (s.flag .badCmd)
  | some x =>
    match Reg.ofNumber reg with
    | some r => .next (s.writeReg x r)
    | none => .next (s.flag .badCmd)

end Sys2Proof.Machine
end

