-- ==== Sys2Proof/Machine/Dispatch.lean ====
section
/-! DEFINITION. The command dispatch (R104): one arm per constructor of `Instr`, one call of its meaning. -/

namespace Sys2Proof.Machine

def exec (i : Instr) (s : State) : Host.Outcome State Fault Refusal :=
  match i with
  | .nop => Sys2Proof.Machine.execNop s
  | .configure strips => Sys2Proof.Machine.execConfigure strips s
  | .defineArea area sections => Sys2Proof.Machine.execDefineArea area sections s
  | .setPixel write => Sys2Proof.Machine.execSetPixel write s
  | .showStrips => Sys2Proof.Machine.execShow s
  | .areaCmd area fields => Sys2Proof.Machine.execAreaCmd area fields s
  | .effect area request => Sys2Proof.Machine.execEffect area request s
  | .fillArea area color => Sys2Proof.Machine.execFillArea area color s
  | .tick => Sys2Proof.Machine.execTick s
  | .query area => Sys2Proof.Machine.execQuery area s
  | .convert color => Sys2Proof.Machine.execConvert color s
  | .rdreg reg => Sys2Proof.Machine.execRdreg reg s
  | .wrreg reg value => Sys2Proof.Machine.execWrreg reg value s

end Sys2Proof.Machine
end

