-- ==== Sys2Proof/WellFormed.lean ====
section
/-! DEFINITION. Which terms of `Instr` are commands a packet can carry.  The checks are those the encoding makes: the number
of descriptors is the 8-bit field `LEN` (R91, R104), and a `KIND` that is a name is written as the name (R98, R191). -/

namespace Sys2Proof

/-- The most payload words one packet has, the largest `LEN` (R91). -/
def maxPayload : Nat := 255

/-- A code without a name is one of 0, 1, 5, 6, 7 (R191). -/
def EffectName.wf : EffectName → Bool
  | .rainbow => true
  | .wave _ => true
  | .cylon => true
  | .unnamed code => code ≠ 2#3 && code ≠ 3#3 && code ≠ 4#3

/-- A well-formed command: one that some packet stands for. -/
def Instr.wf : Instr → Bool
  | .nop => true
  | .configure strips => strips.length ≤ maxPayload
  | .defineArea _ sections => sections.length ≤ maxPayload
  | .setPixel _ => true
  | .showStrips => true
  | .areaCmd _ _ => true
  | .effect _ none => true
  | .effect _ (some request) => request.name.wf
  | .fillArea _ _ => true
  | .tick => true
  | .query _ => true
  | .convert _ => true
  | .rdreg _ => true
  | .wrreg _ _ => true

end Sys2Proof
end

