-- ==== Sys2Proof/Decode.lean ====
section
/-! DEFINITION. Packets (R90 to R106): the fields of header and payload words, the decoder, total on every list of words, and
after it the encoder written from the same tables. -/

namespace Sys2Proof

/-! ### Header fields (R91, R97, R98, R100) -/

/-- `OPCODE`, header bits 31:24. -/
def opcodeField (hdr : Word) : BitVec 8 := hdr.extractLsb' 24 8

/-- `AREA`, header bits 23:20. -/
def areaField (hdr : Word) : AreaId := hdr.extractLsb' 20 4

/-- `LEN`, header bits 7:0: how many payload words follow. -/
def lenField (hdr : Word) : BitVec 8 := hdr.extractLsb' 0 8

/-- The register number of RDREG and WRREG, header bits 15:8 (R100). -/
def regField (hdr : Word) : BitVec 8 := hdr.extractLsb' 8 8

/-- `KIND` of EFFECT, header bits 10:8 (R98). -/
def kindField (hdr : Word) : BitVec 3 := hdr.extractLsb' 8 3

/-- The upper half, bits 31:16, of a payload word. -/
def upperHalf (w : Word) : BitVec 16 := w.extractLsb' 16 16

/-- The lower half, bits 15:0, of a payload word. -/
def lowerHalf (w : Word) : BitVec 16 := w.extractLsb' 0 16

/-! ### Payload words (R94 to R101) -/

/-- STRIPDESC (R94): `PIN` 31:24, `REV` 16, `LENGTH` 15:0. -/
def stripDescOf (w : Word) : StripDesc :=
  { pin := w.extractLsb' 24 8, reversed := w.getLsbD 16, length := lowerHalf w }

/-- SECTION (R95): `OFFSET` 31:16, `LENGTH` 15:0. -/
def sectionOf (w : Word) : Section :=
  { offset := upperHalf w, length := lowerHalf w }

/-- COLOR2 (R96), the first two payload words; `none` when `LEN` is below 2 (R93). -/
def color2Of : List Word → Option Color
  | w0 :: w1 :: _ => some { h := upperHalf w0, s := lowerHalf w0, v := lowerHalf w1 }
  | _ => none

/-- The operands of SET_PIXEL (R99); `none` when `LEN` is below 2 (R93). -/
def pixelWriteOf : List Word → Option PixelWrite
  | w0 :: w1 :: _ => some { index := lowerHalf w0, pixel := w1 }
  | _ => none

/-- The value carried by a presence bit and a payload word: absent when either is missing (R97). -/
def present {α : Type} (bit : Bool) (word : Option Word) (read : Word → α) : Option α :=
  if bit then word.map read else none

/-- The fields of AREA_CMD (R97). -/
def areaFieldsOf (hdr : Word) (payload : List Word) : AreaFields :=
  { state := if hdr.getLsbD 8 then some (hdr.getLsbD 16) else none
    hue := present (hdr.getLsbD 9) payload[0]? upperHalf
    sat := present (hdr.getLsbD 10) payload[0]? lowerHalf
    bri := present (hdr.getLsbD 11) payload[1]? lowerHalf
    trans := present (hdr.getLsbD 12) payload[2]? id }

/-- `SHAPE` (R98). -/
def waveShapeOf (bit : Bool) : WaveShape := if bit then .sinusoidal else .triangular

/-- `KIND` and `SHAPE` (R98). -/
def effectNameOf (kind : BitVec 3) (shape : Bool) : EffectName :=
  if kind = 2#3 then .rainbow
  else if kind = 3#3 then .wave (waveShapeOf shape)
  else if kind = 4#3 then .cylon
  else .unnamed kind

/-- The operands of EFFECT (R98); `none` when `LEN` is below 2, no duration when the third word is missing (R93). -/
def effectRequestOf (hdr : Word) : List Word → Option EffectRequest
  | w0 :: w1 :: more =>
    some { name := effectNameOf (kindField hdr) (hdr.getLsbD 11)
           rate := w0
           width := lowerHalf w1
           duration := present (hdr.getLsbD 12) more[0]? id }
  | _ => none

/-! ### The opcode map (R104) and the decoder -/

/-- The command a header and its payload words stand for; `none` for a reserved opcode (R104, R105). -/
def decodePacket (hdr : Word) (payload : List Word) : Option Instr :=
  match (opcodeField hdr).toNat with
  | 0x00 => some .nop
  | 0x01 => some (.configure (payload.map stripDescOf))
  | 0x02 => some (.defineArea (areaField hdr) (payload.map sectionOf))
  | 0x03 => some (.setPixel (pixelWriteOf payload))
  | 0x04 => some .showStrips
  | 0x05 => some (.areaCmd (areaField hdr) (areaFieldsOf hdr payload))
  | 0x06 => some (.effect (areaField hdr) (effectRequestOf hdr payload))
  | 0x07 => some (.fillArea (areaField hdr) (color2Of payload))
  | 0x08 => some .tick
  | 0x09 => some (.query (areaField hdr))
  | 0x0A => some (.convert (color2Of payload))
  | 0x0B => some (.rdreg (regField hdr))
  | 0x0C => some (.wrreg (regField hdr) payload[0]?)
  | _ => none

/-- What the decoder reads at the head of `CMD`. -/
inductive Decoded where
  /-- A whole packet of a known opcode, and the words after it. -/
  | command (i : Instr) (rest : List Word)
  /-- A whole packet whose opcode is reserved (R105), and the words after it. -/
  | reservedOpcode (opcode : BitVec 8) (rest : List Word)
  /-- No header yet, or fewer than `LEN` payload words after it (R112). -/
  | incomplete
  deriving DecidableEq, Repr

/-- One packet: a header word and the `LEN` payload words after it (R90, R108). -/
def decode : List Word → Decoded
  | [] => .incomplete
  | hdr :: more =>
    if more.length < (lenField hdr).toNat then .incomplete
    else
      match decodePacket hdr (more.take (lenField hdr).toNat) with
      | some i => .command i (more.drop (lenField hdr).toNat)
      | none => .reservedOpcode (opcodeField hdr) (more.drop (lenField hdr).toNat)

/-- How many words the last packet of a queue still lacks, when the packet at its head lacks `n` payload words (R112): 0 when
the queue ends where a packet ends. -/
def missingWords : Nat → List Word → Nat
  | n, [] => n
  | 0, hdr :: more => missingWords (lenField hdr).toNat more
  | n + 1, _ :: more => missingWords n more

/-! ### The encoder -/

/-- A header word from its four fields (R91). -/
def header (opcode : BitVec 8) (area : AreaId) (arg : BitVec 12) (len : BitVec 8) : Word :=
  opcode ++ area ++ arg ++ len

/-- The opcode of each command (R104). -/
def Instr.opcode : Instr → BitVec 8
  | .nop => 0x00#8
  | .configure _ => 0x01#8
  | .defineArea _ _ => 0x02#8
  | .setPixel _ => 0x03#8
  | .showStrips => 0x04#8
  | .areaCmd _ _ => 0x05#8
  | .effect _ _ => 0x06#8
  | .fillArea _ _ => 0x07#8
  | .tick => 0x08#8
  | .query _ => 0x09#8
  | .convert _ => 0x0A#8
  | .rdreg _ => 0x0B#8
  | .wrreg _ _ => 0x0C#8

/-- The `AREA` field, 0 for the commands that do not use it (R104). -/
def Instr.areaBits : Instr → AreaId
  | .defineArea a _ => a
  | .areaCmd a _ => a
  | .effect a _ => a
  | .fillArea a _ => a
  | .query a => a
  | .nop => 0#4
  | .configure _ => 0#4
  | .setPixel _ => 0#4
  | .showStrips => 0#4
  | .tick => 0#4
  | .convert _ => 0#4
  | .rdreg _ => 0#4
  | .wrreg _ _ => 0#4

/-- One bit as a bit vector. -/
def bit1 (b : Bool) : BitVec 1 := BitVec.ofBool b

/-- `ARG` of AREA_CMD (R97): reserved, `ON_VAL`, reserved, then the five presence bits. -/
def areaCmdArg (f : AreaFields) : BitVec 12 :=
  0#3 ++ bit1 (f.state.getD false) ++ 0#3 ++ bit1 f.trans.isSome ++ bit1 f.bri.isSome ++ bit1 f.sat.isSome ++
    bit1 f.hue.isSome ++ bit1 f.state.isSome

/-- `KIND` of an effect name (R98). -/
def EffectName.code : EffectName → BitVec 3
  | .rainbow => 2#3
  | .wave _ => 3#3
  | .cylon => 4#3
  | .unnamed code => code

/-- `SHAPE` of an effect name (R98). -/
def EffectName.shapeBit : EffectName → Bool
  | .wave .sinusoidal => true
  | .wave .triangular => false
  | .rainbow => false
  | .cylon => false
  | .unnamed _ => false

/-- `ARG` of EFFECT (R98): reserved, `HAS_DUR`, `SHAPE`, `KIND`. -/
def effectArg (r : EffectRequest) : BitVec 12 :=
  0#7 ++ bit1 r.duration.isSome ++ bit1 r.name.shapeBit ++ r.name.code

/-- The `ARG` field, 0 for the commands that do not use it (R104). -/
def Instr.argBits : Instr → BitVec 12
  | .areaCmd _ f => areaCmdArg f
  | .effect _ (some r) => effectArg r
  | .effect _ none => 0#12
  | .rdreg r => 0#4 ++ r
  | .wrreg r _ => 0#4 ++ r
  | .nop => 0#12
  | .configure _ => 0#12
  | .defineArea _ _ => 0#12
  | .setPixel _ => 0#12
  | .showStrips => 0#12
  | .fillArea _ _ => 0#12
  | .tick => 0#12
  | .query _ => 0#12
  | .convert _ => 0#12

/-- The word of a STRIPDESC (R94). -/
def stripDescWord (d : StripDesc) : Word := d.pin ++ 0#7 ++ bit1 d.reversed ++ d.length

/-- The word of a SECTION (R95). -/
def sectionWord (d : Section) : Word := d.offset ++ d.length

/-- The two words of a COLOR2 (R96). -/
def color2Words (c : Color) : List Word := [c.h ++ c.s, 0#16 ++ c.v]

/-- The payload words (R94 to R101); AREA_CMD always carries three, as the text form of R109 does. -/
def Instr.payload : Instr → List Word
  | .configure strips => strips.map stripDescWord
  | .defineArea _ sections => sections.map sectionWord
  | .setPixel (some w) => [0#16 ++ w.index, w.pixel]
  | .setPixel none => []
  | .areaCmd _ f => [f.hue.getD 0#16 ++ f.sat.getD 0#16, 0#16 ++ f.bri.getD 0#16, f.trans.getD 0#32]
  | .effect _ (some r) => [r.rate, 0#16 ++ r.width] ++ r.duration.toList
  | .effect _ none => []
  | .fillArea _ (some c) => color2Words c
  | .fillArea _ none => []
  | .convert (some c) => color2Words c
  | .convert none => []
  | .wrreg _ (some x) => [x]
  | .wrreg _ none => []
  | .nop => []
  | .showStrips => []
  | .tick => []
  | .query _ => []
  | .rdreg _ => []

/-- The packet of a command: its header and its payload words. -/
def encode (i : Instr) : List Word :=
  header i.opcode i.areaBits i.argBits (BitVec.ofNat 8 i.payload.length) :: i.payload

/-! ### Words numbered as spec/opcode_table.json numbers them -/

/-- The packet whose bits are `w` up to `nbits` and zero above: word `k` is bits 32k+31 to 32k, and there are
`1 + LEN` words (R90). -/
def tableWords (nbits w : Nat) : List Word :=
  let bits := w % 2 ^ nbits
  (List.range (1 + (lenField (BitVec.ofNat 32 bits)).toNat)).map fun k => BitVec.ofNat 32 (bits >>> (32 * k))

/-- The command this decoder reads from the packet whose bits are `w`, numbered as the opcode table numbers them. -/
def decodeTableWord (nbits w : Nat) : Option Instr :=
  match decode (tableWords nbits w) with
  | .command i _ => some i
  | .reservedOpcode _ _ => none
  | .incomplete => none

end Sys2Proof
end

