-- ==== Sys2Proof/Machine/Fetch.lean ====
section
/-! DEFINITION. Taking a packet from `CMD` (R90, R105, R112): the block has no program counter, the head of `CMD` is what
sequences its work (R41). -/

namespace Sys2Proof.Machine

/-- What the head of `CMD` makes the block do. -/
inductive Fetched where
  /-- A command, in the state whose `CMD` no longer holds its packet. -/
  | run (i : Instr) (s : State)
  /-- A packet of a reserved opcode, in the state whose `CMD` no longer holds it. -/
  | skip (s : State)
  /-- No whole packet is there. -/
  | wait
  deriving DecidableEq, Repr

/-- The packet is consumed whole (R37, R90). -/
def State.consume (s : State) (rest : List Word) : State := { s with cmd := rest }

/-- The next packet of `CMD`. -/
def fetch (s : State) : Fetched :=
  match decode s.cmd with
  | .command i rest => .run i (s.consume rest)
  | .reservedOpcode _ rest => .skip (s.consume rest)
  | .incomplete => .wait

/-- A packet with a reserved opcode does nothing but set `BAD_CMD` (R105). -/
def skipReserved (s : State) : Host.Outcome State Fault Refusal := .next (s.flag .badCmd)

/-- Without a whole packet the block holds its state and waits (R112, R290). -/
def waitForPacket (s : State) : Host.Outcome State Fault Refusal := .next s

/-- A packet, numbered as the opcode table numbers its bits, put at the head of `CMD`. -/
def State.loadTableWord (s : State) (nbits w : Nat) : State := { s with cmd := tableWords nbits w ++ s.cmd }

end Sys2Proof.Machine
end

