-- ==== Sys2Proof/Machine/Environment.lean ====
section
/-! DEFINITION. What the outside world does to the block (R5, R11, R279, R285, R301): between steps the host writes `CMD` and
reads `RSP`, the tick timer writes its packet and time passes; a reset may come between steps and inside one.  `step` calls none
of these. -/

namespace Sys2Proof.Machine

/-- The TICK packets that wait behind the last packet of `CMD` enter it when that packet is whole: "a packet is written
whole", packets "never interleave word by word" (R285). -/
def State.admitTicks (s : State) : State :=
  if missingWords 0 s.cmd = 0 then
    { s with cmd := s.cmd ++ (List.replicate s.waitingTicks (encode .tick)).flatten, waitingTicks := 0 }
  else s

/-- The host writes one word into `CMD` (R37). -/
def State.hostWriteWord (s : State) (w : Word) : State := { s with cmd := s.cmd ++ [w] }.admitTicks

/-- The host writes words into `CMD`, in order (R37). -/
def State.hostWrite (s : State) (words : List Word) : State := words.foldl State.hostWriteWord s

/-- The host reads the oldest word of `RSP` (R36). -/
def State.hostRead (s : State) : Option Word × State := (s.rsp.head?, { s with rsp := s.rsp.tail })

/-- The tick timer writes one whole TICK packet (R285): behind a packet that the host has not finished it is queued and not
taken (R313). -/
def State.timerTick (s : State) : State := { s with waitingTicks := s.waitingTicks + 1 }.admitTicks

/-- The clock advances by `us` microseconds (R34, R286). -/
def State.passTime (s : State) (us : Nat) : State := { s with now := s.now + us }

/-- The reset event (R6, R300, R301): the block is in the state after reset, and nothing of its old state survives but the
build.  No pulse is emitted by reset, so the observer's trace stays as it is; the count of clock readings, the model's own, goes on
(assumption log 17). -/
def State.resetEvent (s : State) : State :=
  { State.resetOf s.build with wire := s.wire, clockReads := s.clockReads }

/-- A reset inside the step that starts in `s`, when `n` of the events of that step are on the wire: the step is abandoned (R301)
and "the wire trace ends where it ends" (U13), so a frame on the wire is cut short. -/
def State.resetInStep (s : State) (n : Nat) : State :=
  match step s with
  | .next t => { t with wire := t.wire.take (s.wire.length + n) }.resetEvent
  | .fault _ => s.resetEvent
  | .refused _ => s.resetEvent

end Sys2Proof.Machine
end

