-- ==== Sys2Proof/Safety.lean ====
section
/-! DEFINITION. What counts as a safe state and a safe run: the invariants of R39 and of the state's widths, and a run in which
no error stops the block (R270). -/

namespace Sys2Proof.Machine

/-- The lengths of the strips, in order. -/
def stripLengths (strips : List Strip) : List Nat := strips.map fun r => r.length.toNat

/-- "the sum of `STRIP[k].LENGTH` for k < `NSTRIPS` equals `NPIX`, and `STRIP[k].OFFSET` equals the sum of the lengths of the
strips before k" (R39 a), the first strip at offset `off`. -/
def stripsContiguous : Nat → List Strip → Nat → Prop
  | off, [], total => off = total
  | off, r :: rs, total => r.offset.toNat = off ∧ stripsContiguous (off + r.length.toNat) rs total

/-- A colour in range: hue below 360 degrees, saturation and value in 0 to 1.0 (R20). -/
abbrev inRange (c : Color) : Prop :=
  c.h.toNat < Config.hueMod ∧ c.s.toNat ≤ Config.svOne ∧ c.v.toNat ≤ Config.svOne

/-- The Strip table and the pixel buffer of a state (R39 a, R39 e, R24). -/
structure BufferInv (s : State) : Prop where
  contiguous : stripsContiguous 0 s.strips s.npix.toNat
  fewStrips  : s.strips.length ≤ s.build.maxStrips
  fits       : s.npix.toNat ≤ s.build.maxPixels
  canonical  : s.pixbuf.wf
  inside     : ∀ cell ∈ s.pixbuf, cell.1 < s.npix.toNat
  configured : s.flagged .configured = false → s.strips = []

/-- One Area at tick number `tick` in a build with index maps of `maxMapLen` entries (R39 d, R39 e, R193). -/
structure AreaInv (maxMapLen tick : Nat) (r : Area) : Prop where
  mapFits  : r.map.length ≤ maxMapLen
  emapFits : ∀ e, r.eff = some e → e.emap.length ≤ maxMapLen
  bound    : ∀ e, r.eff = some e → r.defined = true
  started  : ∀ e, r.eff = some e → e.start ≤ tick

/-- The colours one Area holds: `BASE` is NONE or in range, the ends of a bound Transition are in range (R20, R27). -/
structure ColorInv (r : Area) : Prop where
  base : r.base = noneColor ∨ inRange r.base
  ends : ∀ e c0 c1 dur, r.eff = some e → e.motion = .transition c0 c1 dur → inRange c0 ∧ inRange c1

/-- The registers, the clock and the wire of a state: reserved bits read 0 (R45, R46), `IRQ_DISABLE` is 0 at every step
boundary (R35), no strip was shown later than `NOW` (R33, R34), and TICK packets wait only behind a packet that is not finished
(R285, R313). -/
structure PortInv (s : State) : Prop where
  ctrl   : s.ctrl &&& ~~~ctrlBits = 0#32
  status : s.status &&& ~~~flagBits = 0#32
  irq    : s.irqDisable = false
  shown  : ∀ r ∈ s.strips, r.lastShown ≤ s.now
  queue  : s.waitingTicks = 0 ∨ missingWords 0 s.cmd ≠ 0

/-- The invariant of the block (R39, with the widths and ranges of 10_state.md). -/
structure Inv (s : State) : Prop where
  build  : s.build.Ok
  table  : s.areas.length = s.build.maxAreas
  buffer : BufferInv s
  areas  : ∀ a r, s.area? a = some r → AreaInv s.build.maxMapLen s.tick r
  colors : ∀ a r, s.area? a = some r → ColorInv r
  ports  : PortInv s

/-- The Strip table without its timestamps: what is "immutable" after CONFIGURE (R22, R153). -/
def stripGeometry (strips : List Strip) : List Strip := strips.map fun r => { r with lastShown := 0 }

/-- Whether an event is an `emitBit` call. -/
def WireEvent.isPulse : WireEvent → Bool
  | .emitBit _ _ _ => true
  | .frameStart _ _ => false
  | .frameEnd _ _ => false

/-- The `emitBit` calls of a trace, in order: the wire trace of R250. -/
def pulsesOf (events : List WireEvent) : List WireEvent := events.filter WireEvent.isPulse

/-- The strip numbers of the frames of a trace, in order. -/
def framesOf : List WireEvent → List Nat
  | [] => []
  | .frameStart k _ :: es => k :: framesOf es
  | .emitBit _ _ _ :: es => framesOf es
  | .frameEnd _ _ :: es => framesOf es

/-- A state without what depends on the clock: `NOW`, the timestamps, and the times of frames (R197). -/
def State.timeless (s : State) : State :=
  { s with strips := stripGeometry s.strips, now := 0, wire := pulsesOf s.wire, clockReads := 0 }

/-- What a step gives, without what depends on the clock. -/
def timelessOutcome : Host.Outcome State Fault Refusal → Host.Outcome State Fault Refusal
  | .next s => .next s.timeless
  | .fault r => .fault r
  | .refused r => .refused r

/-- The word the last write to an index in a list of writes gives it (R308). -/
def lastWrite (ws : List (Index × Pixel)) (j : Nat) : Option Pixel :=
  (ws.reverse.find? fun w => w.1.toNat = j).map Prod.snd

/-- The pixel writes of the update of Area `a` in the tick that starts in `s`, in order (R210). -/
def areaWrites (s : State) (a : Nat) : List (Index × Pixel) :=
  match s.area? a with
  | none => []
  | some r =>
    match r.eff with
    | none => []
    | some e => e.emap.zip (e.motion.frame s.conversion (effColor r) e.emap.length (s.tick - e.start))

/-- The pixel writes of the tick that starts in `s`: the Areas in ascending id (R181). -/
def tickWrites (s : State) : List (Index × Pixel) := (List.range s.areas.length).flatMap (areaWrites s)

/-- An Area after the tick that carries number `tick`: its slot cleared when its update reports completion (R183). -/
def tickedArea (tick : Nat) (r : Area) : Area :=
  match r.eff with
  | none => r
  | some e => if e.motion.done (tick - e.start) then { r with eff := none } else r

/-- Whether some Area has an active effect, so that a tick updates it (R181, R182). -/
def someActive (s : State) : Bool := s.areas.any fun r => r.eff.isSome

/-- A run of `k` steps that never stops. -/
def runsOn : Nat → State → Prop
  | 0, _ => True
  | k + 1, s => ∃ t, step s = .next t ∧ runsOn k t

end Sys2Proof.Machine
end

