-- ==== Sys2Proof/Certificates/Slice0/Obligations.lean ====
section
/-! DEFINITION. The statements for the provers, one `def Obligations.<Name> : Prop` each. -/

open Sys2Proof Sys2Proof.Machine

/-! ### Vocabulary of the statements -/

/-- The header bits a packet uses: every other bit is reserved or ignored (R91, R97, R98, R100, R104).  `ON_VAL` counts only with
`P_STATE` (R97), `SHAPE` only in a WAVE (R98). -/
def Sys2Proof.usedHeaderBits (hdr : Word) : Word :=
  match (opcodeField hdr).toNat with
  | 0x02 => 0xFFF000FF#32
  | 0x05 => if hdr.getLsbD 8 then 0xFFF11FFF#32 else 0xFFF01FFF#32
  | 0x06 => if kindField hdr = 3#3 then 0xFFF01FFF#32 else 0xFFF017FF#32
  | 0x07 => 0xFFF000FF#32
  | 0x09 => 0xFFF000FF#32
  | 0x0B => 0xFF00FFFF#32
  | 0x0C => 0xFF00FFFF#32
  | _ => 0xFF0000FF#32

/-- How many payload words a packet reads (R92, R104); CONFIGURE and DEFINE_AREA read as many as a packet can carry, AREA_CMD and
EFFECT as many as their presence bits ask for (R97, R98). -/
def Sys2Proof.wordsRead (hdr : Word) : Nat :=
  match (opcodeField hdr).toNat with
  | 0x01 => 255
  | 0x02 => 255
  | 0x03 => 2
  | 0x05 => if hdr.getLsbD 12 then 3 else if hdr.getLsbD 11 then 2 else if hdr.getLsbD 9 || hdr.getLsbD 10 then 1 else 0
  | 0x06 => if hdr.getLsbD 12 then 3 else 2
  | 0x07 => 2
  | 0x0A => 2
  | 0x0C => 1
  | _ => 0

/-- The bits of payload word `k` a packet uses: none of a word it does not read (R92), and of a word it reads those that are not
reserved or ignored (R94 to R99); a field of AREA_CMD counts only with its presence bit (R97). -/
def Sys2Proof.usedPayloadBits (hdr : Word) (k : Nat) : Word :=
  if wordsRead hdr ≤ k then 0#32
  else
    match (opcodeField hdr).toNat, k with
    | 0x01, _ => 0xFF01FFFF#32
    | 0x03, 0 => 0x0000FFFF#32
    | 0x05, 0 => (if hdr.getLsbD 9 then 0xFFFF0000#32 else 0#32) ||| (if hdr.getLsbD 10 then 0x0000FFFF#32 else 0#32)
    | 0x05, 1 => if hdr.getLsbD 11 then 0x0000FFFF#32 else 0#32
    | 0x06, 1 => 0x0000FFFF#32
    | 0x07, 1 => 0x0000FFFF#32
    | 0x0A, 1 => 0x0000FFFF#32
    | _, _ => 0xFFFFFFFF#32

/-- The words of a queue of whole packets, each a header and its payload (R90). -/
def Sys2Proof.packetWords (packets : List (Word × List Word)) : List Word := packets.flatMap fun p => p.1 :: p.2

/-- Whether each of a list of packets has the `LEN` payload words its header asks for (R90). -/
def Sys2Proof.wholePackets (packets : List (Word × List Word)) : Prop := ∀ p ∈ packets, p.2.length = (lenField p.1).toNat

/-- The logical indices of a list of sections: sections in declaration order, each ascending, not wrapped (R156). -/
def Sys2Proof.namedIndices (sections : List Section) : List Nat :=
  sections.flatMap fun w => (List.range w.length.toNat).map fun i => w.offset.toNat + i

/-- What makes a command of the opcode map set `BAD_CMD` (R271, first five rows). -/
def Sys2Proof.badCmdCause (s : State) : Instr → Prop
  | .nop => False
  | .configure strips => s.status.getLsbD 0 = true ∨ s.build.maxStrips < strips.length
  | .defineArea _ _ => False
  | .setPixel write => write = none
  | .showStrips => False
  | .areaCmd _ _ => False
  | .effect a request =>
    request = none ∨ ∃ q c, request = some q ∧ q.name = .unnamed c ∧ ∃ r, s.area? a.toNat = some r ∧ r.defined = true
  | .fillArea _ color => color = none
  | .tick => False
  | .query _ => False
  | .convert color => color = none
  | .rdreg r => 8 < r.toNat
  | .wrreg r value => value = none ∨ (r ≠ 1#8 ∧ r ≠ 2#8)

/-- How many response words a command produces (R104). -/
def Sys2Proof.responseWords : Instr → Nat
  | .query _ => 2
  | .convert _ => 1
  | .rdreg _ => 1
  | .nop => 0
  | .configure _ => 0
  | .defineArea _ _ => 0
  | .setPixel _ => 0
  | .showStrips => 0
  | .areaCmd _ _ => 0
  | .effect _ _ => 0
  | .fillArea _ _ => 0
  | .tick => 0
  | .wrreg _ _ => 0

/-- The numbers of the strips a show sends: those of non-zero length, in declaration order (R241, R249). -/
def Sys2Proof.sentStrips (s : State) : List Nat :=
  (List.range s.strips.length).filter fun k => (s.strips[k]?.map fun r => r.length.toNat).getD 0 ≠ 0

/-- The pulses of a show: for each strip in declaration order, its pixels in physical order (R241, R250). -/
def Sys2Proof.shownPulses (s : State) : List WireEvent :=
  s.strips.flatMap fun r =>
    framePulses s.build.wireOrder r.pin ((List.range r.length.toNat).map fun j => s.pixbuf.read (r.offset.toNat + j))

/-- The three components of a Color as numbers: the hue unsigned, saturation and value two's complement (R20). -/
def Sys2Proof.componentsOf : List (Color → ℤ) :=
  [fun c => (c.h.toNat : ℤ), fun c => c.s.toInt, fun c => c.v.toInt]

/-! ### Packets -/

/-- Decoding the packet of a well-formed command gives the command back, with whatever follows it left over. -/
def Obligations.DecodeGivesBackEveryEncodedCommand : Prop :=
  ∀ (i : Instr) (rest : List Word), i.wf = true → decode (encode i ++ rest) = .command i rest

/-- R108: the next header is `1 + LEN` words further, whatever the opcode; a whole packet is a well-formed command exactly when
its opcode is one of the thirteen. -/
def Obligations.NextHeaderIsLenWordsOn : Prop :=
  ∀ (hdr : Word) (more : List Word), (lenField hdr).toNat ≤ more.length →
    ((opcodeField hdr).toNat ≤ 0x0C →
      ∃ i, decode (hdr :: more) = .command i (more.drop (lenField hdr).toNat) ∧ i.wf = true ∧ i.opcode = opcodeField hdr) ∧
    (0x0C < (opcodeField hdr).toNat →
      decode (hdr :: more) = .reservedOpcode (opcodeField hdr) (more.drop (lenField hdr).toNat))

/-- R92, R106: bits a packet does not use, and payload words beyond those it reads, change nothing: neither what such a word
holds nor whether it is there.  A field read only under a condition (`ON_VAL`, `HUE`, `SAT`, `BRI` and `TRANS` with their presence
bits, R97; `SHAPE` in a WAVE and `DUR` with `HAS_DUR`, R98) is unused without it. -/
def Obligations.UnusedBitsAndWordsAreIgnored : Prop :=
  (∀ (hdr hdr' : Word) (payload payload' : List Word),
    hdr &&& usedHeaderBits hdr = hdr' &&& usedHeaderBits hdr →
    payload.length = payload'.length → payload.length ≤ 255 →
    (∀ k, (payload[k]?.map fun w => w &&& usedPayloadBits hdr k) = (payload'[k]?.map fun w => w &&& usedPayloadBits hdr k)) →
    decodePacket hdr payload = decodePacket hdr' payload') ∧
  (∀ (hdr : Word) (payload : List Word), payload.length ≤ 255 →
    decodePacket hdr (payload.take (wordsRead hdr)) = decodePacket hdr payload)

/-- Words written out from the encodings of the spec decode to the commands they stand for. -/
def Obligations.SpecWordsDecodeToTheirCommands : Prop :=
  decode [0x01000002#32, 0x04010096#32, 0x05000048#32] =
      .command (.configure [⟨4#8, true, 150#16⟩, ⟨5#8, false, 72#16⟩]) [] ∧
  decode [0x02000002#32, 0x00000095#32, 0x00950047#32] =
      .command (.defineArea 0#4 [⟨0#16, 149#16⟩, ⟨149#16, 71#16⟩]) [] ∧
  decode [0x03000002#32, 0x00000000#32, 0x00200000#32] = .command (.setPixel (some ⟨0#16, 0x00200000#32⟩)) [] ∧
  decode [0x05011F03#32, 0x3C006400#32, 0x00003200#32, 0x00000000#32] =
      .command (.areaCmd 0#4 ⟨some true, some 15360#16, some 25600#16, some 12800#16, some 0#32⟩) [] ∧
  decode [0x06201B03#32, 0x0000003C#32, 0x0000000A#32, 0x0000012C#32] =
      .command (.effect 2#4 (some ⟨.wave .sinusoidal, 60#32, 10#16, some 300#32⟩)) [] ∧
  decode [0x0A000002#32, 0x3C006400#32, 0x00003200#32] = .command (.convert (some ⟨15360#16, 25600#16, 12800#16⟩)) [] ∧
  decode [0x09000000#32] = .command (.query 0#4) [] ∧
  decode [0x0C000101#32, 0x00000001#32] = .command (.wrreg 1#8 (some 1#32)) [] ∧
  decode [0x0B000500#32] = .command (.rdreg 5#8) []

/-- R93: what a packet shorter than its command's minimum does, for every opcode that has a minimum; and which fields AREA_CMD and
EFFECT take from a packet of any length (R97, R98): each field whose presence bit is set and whose word is there, and no other. -/
def Obligations.ShortPacketsDoNothingButFlag : Prop :=
  ∀ (s : State) (hdr : Word) (payload rest : List Word), s.cmd = hdr :: (payload ++ rest) →
    payload.length = (lenField hdr).toNat →
    ((opcodeField hdr = 0x03#8 ∨ opcodeField hdr = 0x06#8 ∨ opcodeField hdr = 0x07#8) → payload.length < 2 →
      step s = .next { s with cmd := rest, status := s.status ||| 0x10#32 }) ∧
    (opcodeField hdr = 0x0C#8 → payload.length < 1 →
      step s = .next { s with cmd := rest, status := s.status ||| 0x10#32 }) ∧
    (opcodeField hdr = 0x0A#8 → payload.length < 2 →
      step s = .next { s with cmd := rest, status := s.status ||| 0x10#32, rsp := s.rsp ++ [0#32] }) ∧
    (opcodeField hdr = 0x05#8 → ∃ f, decodePacket hdr payload = some (.areaCmd (hdr.extractLsb' 20 4) f) ∧
      step s = exec (.areaCmd (hdr.extractLsb' 20 4) f) { s with cmd := rest } ∧
      (∀ v, f.state = some v ↔ hdr.getLsbD 8 = true ∧ v = hdr.getLsbD 16) ∧
      (∀ h, f.hue = some h ↔ hdr.getLsbD 9 = true ∧ ∃ w, payload[0]? = some w ∧ h = w.extractLsb' 16 16) ∧
      (∀ x, f.sat = some x ↔ hdr.getLsbD 10 = true ∧ ∃ w, payload[0]? = some w ∧ x = w.extractLsb' 0 16) ∧
      (∀ x, f.bri = some x ↔ hdr.getLsbD 11 = true ∧ ∃ w, payload[1]? = some w ∧ x = w.extractLsb' 0 16) ∧
      (∀ d, f.trans = some d ↔ hdr.getLsbD 12 = true ∧ payload[2]? = some d)) ∧
    (opcodeField hdr = 0x06#8 → ∀ w0 w1 more, payload = w0 :: w1 :: more →
      ∃ q, decodePacket hdr payload = some (.effect (hdr.extractLsb' 20 4) (some q)) ∧
        step s = exec (.effect (hdr.extractLsb' 20 4) (some q)) { s with cmd := rest } ∧
        (hdr.extractLsb' 8 3 = 2#3 → q.name = .rainbow) ∧
        (hdr.extractLsb' 8 3 = 3#3 → q.name = .wave (if hdr.getLsbD 11 then .sinusoidal else .triangular)) ∧
        (hdr.extractLsb' 8 3 = 4#3 → q.name = .cylon) ∧
        (hdr.extractLsb' 8 3 ≠ 2#3 → hdr.extractLsb' 8 3 ≠ 3#3 → hdr.extractLsb' 8 3 ≠ 4#3 →
          q.name = .unnamed (hdr.extractLsb' 8 3)) ∧
        q.rate = w0 ∧ q.width = w1.extractLsb' 0 16 ∧
        (∀ d, q.duration = some d ↔ hdr.getLsbD 12 = true ∧ payload[2]? = some d))

/-! ### Steps -/

/-- When the head of `CMD` decodes to a command, a step is that command, run in the state whose `CMD` no longer holds its
packet; nothing else surrounds it. -/
def Obligations.StepRunsTheDecodedCommand : Prop :=
  ∀ (s : State) (i : Instr) (rest : List Word), decode s.cmd = .command i rest → step s = exec i { s with cmd := rest }

/-- R105: a packet with a reserved opcode is consumed whole and sets `BAD_CMD`, nothing else. -/
def Obligations.ReservedOpcodeIsSkippedByLen : Prop :=
  ∀ (s : State) (hdr : Word) (more : List Word), s.cmd = hdr :: more → 0x0D ≤ (opcodeField hdr).toNat →
    (lenField hdr).toNat ≤ more.length →
    step s = .next { s with cmd := more.drop (lenField hdr).toNat, status := s.status ||| 0x10#32 }

/-- R112, R285, R313: with no header, or fewer than `LEN` words after it, the block holds; packets the tick timer writes behind an
unfinished packet do not complete it and are not taken, however many they are; when the rest of the packet arrives, they follow
it.  That a hold is a step which answers the same state is the model's choice (assumption log 8). -/
def Obligations.HalfAPacketHoldsTheBlock : Prop :=
  (∀ s : State, (s.cmd = [] ∨ ∃ hdr more, s.cmd = hdr :: more ∧ more.length < (lenField hdr).toNat) →
    step s = .next s) ∧
  ∀ (s : State) (hdr : Word) (more rest : List Word) (n : Nat), s.cmd = hdr :: more → rest ≠ [] →
    more.length + rest.length = (lenField hdr).toNat →
    step (State.timerTick^[n] s) = .next (State.timerTick^[n] s) ∧
    State.timerTick^[n] s = { s with waitingTicks := s.waitingTicks + n } ∧
    (State.timerTick^[n] s).hostWrite rest =
      { s with cmd := hdr :: (more ++ rest ++ List.replicate (s.waitingTicks + n) 0x08000000#32), waitingTicks := 0 }

/-! ### Reset and invariants -/

/-- The state after reset of every build, item by item, as R53 gives it.  That `State.reset` is the state of the build at the defaults
is the model's choice (assumption log 1), and so is the count of waiting TICK packets (assumption log 14). -/
def Obligations.ResetLeavesTheStatedValues : Prop :=
  (∀ b : Build,
    (State.resetOf b).build = b ∧
    (State.resetOf b).strips = [] ∧ (State.resetOf b).npix = 0#16 ∧ (∀ i, (State.resetOf b).pixel? i = none) ∧
    (∀ a, (State.resetOf b).area? a = if a < b.maxAreas then
      some { defined := false, map := [], base := ⟨0#16, 0#16, BitVec.ofInt 16 (-25600)⟩, on := false, dirty := false,
             eff := none } else none) ∧
    (State.resetOf b).tick = 0 ∧ (State.resetOf b).ctrl = 0#32 ∧ (State.resetOf b).status = 0#32 ∧
    (State.resetOf b).irqDisable = false ∧ (State.resetOf b).rsp = [] ∧ (State.resetOf b).cmd = [] ∧
    (State.resetOf b).waitingTicks = 0 ∧ (State.resetOf b).now = 0) ∧
  State.reset = State.resetOf Build.default

/-- The invariant holds after reset of every build R6 allows, and the build with every parameter at its default is one. -/
def Obligations.InvariantHoldsAfterReset : Prop :=
  (∀ b : Build, b.Ok → Inv (State.resetOf b)) ∧ Build.default.Ok ∧ Inv State.reset

/-- Every step from a state of build `b` that meets the invariant gives a state of build `b` that meets it: the parameters "are
fixed when the block is built and never change afterwards" (R6). -/
def Obligations.EveryStepKeepsTheInvariant : Prop :=
  ∀ (b : Build) (s t : State), Inv s ∧ s.build = b → step s = .next t → Inv t ∧ t.build = b

/-- R270: no error stops the block.  From every state that meets the invariant it runs on for any number of steps. -/
def Obligations.NoErrorStopsTheBlock : Prop :=
  ∀ (k : Nat) (s : State), Inv s → runsOn k s

/-- What the host, the tick timer, the clock and a reset do, and that it keeps the invariant and the build: the host reads the oldest
word of `RSP` (R36) and appends words to `CMD` (R37); the tick timer appends its packet where `CMD` ends at a whole packet, and else
waits for the rest of the last one (R285, R313); `NOW` goes up (R34); a reset gives the state after reset (R300, R301), "also inside a
step", wherever it falls there: the wire keeps the events the step had sent, and a frame that had begun shows its start and the pulses
up to the cut, not its end (U13).  That the outside world is these functions, and that packets behind an unfinished one are counted,
is the model's choice (assumption log 14); so is that the trace, an output, goes on after a reset with no event of its own (assumption
log 7), that a cut falls between two events (assumption log 13), and that the model's count of clock readings goes on (assumption log
17). -/
def Obligations.EnvironmentKeepsTheInvariant : Prop :=
  ∀ (b : Build) (s : State), Inv s ∧ s.build = b →
    ((∀ ws, Inv (s.hostWrite ws) ∧ (s.hostWrite ws).build = b) ∧ (Inv s.hostRead.2 ∧ s.hostRead.2.build = b) ∧
      (Inv s.timerTick ∧ s.timerTick.build = b) ∧ (∀ us, Inv (s.passTime us) ∧ (s.passTime us).build = b) ∧
      (Inv s.resetEvent ∧ s.resetEvent.build = b) ∧ (∀ n, Inv (s.resetInStep n) ∧ (s.resetInStep n).build = b)) ∧
    s.resetEvent = { State.resetOf b with wire := s.wire, clockReads := s.clockReads } ∧
    (∃ t new, step s = .next t ∧ t.wire = s.wire ++ new ∧
      (∀ n, s.resetInStep n = { State.resetOf b with wire := s.wire ++ new.take n, clockReads := t.clockReads }) ∧
      ∀ before k a pulses after m, new = before ++ .frameStart k a :: (pulses ++ after) → m ≤ pulses.length →
        (s.resetInStep (before.length + 1 + m)).wire = s.wire ++ before ++ .frameStart k a :: pulses.take m) ∧
    (∀ us, s.passTime us = { s with now := s.now + us }) ∧
    (s.rsp = [] → s.hostRead = (none, s)) ∧
    (∀ w ws, s.rsp = w :: ws → s.hostRead = (some w, { s with rsp := ws })) ∧
    (∀ packets, wholePackets packets → s.cmd = packetWords packets →
      s.timerTick = { s with cmd := s.cmd ++ [0x08000000#32] } ∧
      ∀ ws, s.hostWrite ws = { s with cmd := s.cmd ++ ws }) ∧
    (∀ packets hdr more, wholePackets packets → s.cmd = packetWords packets ++ hdr :: more →
      more.length < (lenField hdr).toNat →
      s.timerTick = { s with waitingTicks := s.waitingTicks + 1 } ∧
      (∀ ws, more.length + ws.length < (lenField hdr).toNat → s.hostWrite ws = { s with cmd := s.cmd ++ ws }) ∧
      ∀ ws, more.length + ws.length = (lenField hdr).toNat → s.hostWrite ws =
        { s with cmd := s.cmd ++ ws ++ List.replicate s.waitingTicks 0x08000000#32, waitingTicks := 0 }) ∧
    ∀ ws ws', s.hostWrite (ws ++ ws') = (s.hostWrite ws).hostWrite ws'

/-! ### Rules about every command -/

/-- R32: `TICK` is incremented by exactly 1 by every TICK command and written by nothing else. -/
def Obligations.OnlyTickCommandsAdvanceTheTickCounter : Prop :=
  State.reset.tick = 0 ∧
  ∀ s t : State, step s = .next t →
    t.tick = s.tick + (match decode s.cmd with
      | .command .tick _ => 1
      | _ => 0)

/-- R36: only QUERY, CONVERT and RDREG append to `RSP`, each its full number of words; no command removes a word. -/
def Obligations.OnlyRespondingCommandsAppendToRsp : Prop :=
  State.reset.rsp = [] ∧
  ∀ (i : Instr) (s t : State), exec i s = .next t → ∃ ws, t.rsp = s.rsp ++ ws ∧ ws.length = responseWords i

/-- A sticky bit that is set stays set unless a WRREG to `STATUS` writes a 1 to it; `CONFIGURED` is never cleared; the bits
above bit 6 and `CTRL` change only as R45 and R46 say. -/
def Obligations.StatusBitsOnlyClearByWriteOne : Prop :=
  ∀ (i : Instr) (s t : State), exec i s = .next t →
    (∀ n, s.status.getLsbD n = true → t.status.getLsbD n = false →
      1 ≤ n ∧ n ≤ 6 ∧ ∃ x : Word, i = .wrreg 2#8 (some x) ∧ x.getLsbD n = true) ∧
    (∀ n, 7 ≤ n → t.status.getLsbD n = s.status.getLsbD n) ∧
    (t.ctrl ≠ s.ctrl → ∃ x : Word, i = .wrreg 1#8 (some x) ∧ t.ctrl = x &&& 1#32)

/-- R25 to R30: which commands write which fields of an Area. -/
def Obligations.AreaFieldsHaveTheirWriters : Prop :=
  ∀ (i : Instr) (s t : State) (a : Nat) (r r' : Area), exec i s = .next t → s.area? a = some r → t.area? a = some r' →
    ((r'.base ≠ r.base ∨ r'.on ≠ r.on) → ∃ x f, i = .areaCmd x f ∧ x.toNat = a) ∧
    ((r'.map ≠ r.map ∨ r'.defined ≠ r.defined) → ∃ x ws, i = .defineArea x ws ∧ x.toNat = a ∧ r'.defined = true) ∧
    (r'.eff ≠ r.eff → (∃ x f, i = .areaCmd x f ∧ x.toNat = a) ∨ (∃ x q, i = .effect x q ∧ x.toNat = a) ∨
      (i = .tick ∧ r'.eff = none)) ∧
    (r'.dirty ≠ r.dirty → (r'.dirty = true ∧ ∃ x f, i = .areaCmd x f ∧ x.toNat = a) ∨
      (r'.dirty = true ∧ ∃ x q, i = .effect x q ∧ x.toNat = a) ∨ (r'.dirty = false ∧ ∃ x, i = .query x ∧ x.toNat = a))

/-- R24: a pixel changes only by SET_PIXEL, FILL_AREA, the updates of a TICK, and the zero fill of CONFIGURE. -/
def Obligations.OnlyPixelCommandsChangePixels : Prop :=
  ∀ (i : Instr) (s t : State) (j : Nat), exec i s = .next t → t.pixel? j ≠ s.pixel? j →
    (∃ w, i = .setPixel (some w) ∧ w.index.toNat = j) ∨
    (∃ a c r, i = .fillArea a (some c) ∧ s.area? a.toNat = some r ∧ ∃ k ∈ r.map, k.toNat = j) ∨
    (i = .tick ∧ ∃ a r e, s.area? a = some r ∧ r.eff = some e ∧ ∃ k ∈ e.emap, k.toNat = j) ∨
    (∃ ds, i = .configure ds ∧ s.status.getLsbD 0 = false)

/-- R272: `BAD_CMD` is set by exactly the causes of R271: a reserved opcode, and those of the commands. -/
def Obligations.BadCmdHasExactlyItsCauses : Prop :=
  ∀ s t : State, step s = .next t → s.status.getLsbD 4 = false →
    (t.status.getLsbD 4 = true ↔
      (∃ opcode rest, decode s.cmd = .reservedOpcode opcode rest) ∨
      ∃ i rest, decode s.cmd = .command i rest ∧ badCmdCause s i)

/-- R197: two runs from states that differ only in what depends on the clock give the same pixels, responses, pulses and every
other thing that does not depend on the clock.  How the clock advances is the model's choice (assumption log 3): each reading
adds a free amount selected by the count of readings, which the two states need not share. -/
def Obligations.ClockDoesNotMatter : Prop :=
  ∀ (k : Nat) (s s' : State), s.timeless = s'.timeless →
    timelessOutcome (Host.Core.run Sys2Proof.core k s) = timelessOutcome (Host.Core.run Sys2Proof.core k s')

/-! ### System commands -/

/-- R260: a NOP packet is consumed, whatever its `AREA`, `ARG` and payload words, and nothing else changes. -/
def Obligations.NopIsConsumedAndChangesNothing : Prop :=
  (∀ s : State, exec .nop s = .next s) ∧
  ∀ (s : State) (hdr : Word) (more : List Word), s.cmd = hdr :: more → opcodeField hdr = 0x00#8 →
    (lenField hdr).toNat ≤ more.length → step s = .next { s with cmd := more.drop (lenField hdr).toNat }

/-- R261: RDREG answers the value of the register it names, and changes nothing else; a reserved number answers 0 and sets
`BAD_CMD`; the number is header bits 15:8. -/
def Obligations.RdregAnswersTheRegister : Prop :=
  ∀ s : State,
    exec (.rdreg 0x00#8) s = .next { s with rsp := s.rsp ++ [0x4B4C5001#32] } ∧
    exec (.rdreg 0x01#8) s = .next { s with rsp := s.rsp ++ [s.ctrl &&& 1#32] } ∧
    exec (.rdreg 0x02#8) s =
      .next { s with rsp := s.rsp ++ [(s.status &&& 0x7F#32) ||| (if s.irqDisable then 0x80#32 else 0#32)] } ∧
    exec (.rdreg 0x03#8) s = .next { s with rsp := s.rsp ++ [BitVec.ofNat 32 s.tick] } ∧
    exec (.rdreg 0x04#8) s = .next { s with rsp := s.rsp ++ [BitVec.ofNat 32 (s.tick / 2 ^ 32)] } ∧
    exec (.rdreg 0x05#8) s = .next { s with rsp := s.rsp ++ [s.npix.setWidth 32] } ∧
    exec (.rdreg 0x06#8) s = .next { s with rsp := s.rsp ++ [BitVec.ofNat 32 s.strips.length] } ∧
    exec (.rdreg 0x07#8) s = .next { s with rsp := s.rsp ++ [s.readReg .areasDefined] } ∧
    exec (.rdreg 0x08#8) s = .next { s with rsp := s.rsp ++ [s.readReg .active] } ∧
    (∀ r : BitVec 8, 8 < r.toNat →
      exec (.rdreg r) s = .next { s with rsp := s.rsp ++ [0#32], status := s.status ||| 0x10#32 }) ∧
    ∀ (hdr : Word) (more : List Word), s.cmd = hdr :: more → opcodeField hdr = 0x0B#8 →
      (lenField hdr).toNat ≤ more.length →
      step s = exec (.rdreg (hdr.extractLsb' 8 8)) { s with cmd := more.drop (lenField hdr).toNat }

/-- R51, R52: bit a of `AREAS_DEFINED` is `AREA[a].DEFINED` and bit a of `ACTIVE` says whether Area a has an effect; the other
bits are 0; a write is ignored and sets `BAD_CMD`; both read 0 after reset. -/
def Obligations.AreaRegistersHaveOneBitPerArea : Prop :=
  (∀ (s : State) (a : Nat), s.areas.length ≤ 16 →
    (s.readReg .areasDefined).getLsbD a = ((s.area? a).map fun r => r.defined).getD false ∧
    (s.readReg .active).getLsbD a = ((s.area? a).map fun r => decide (r.kind ≠ 0)).getD false) ∧
  (∀ (s : State) (x : Word), exec (.wrreg 0x07#8 (some x)) s = .next { s with status := s.status ||| 0x10#32 }) ∧
  (∀ (s : State) (x : Word), exec (.wrreg 0x08#8 (some x)) s = .next { s with status := s.status ||| 0x10#32 }) ∧
  ∀ b : Build, (State.resetOf b).readReg .areasDefined = 0#32 ∧ (State.resetOf b).readReg .active = 0#32

/-- R262, R263: WRREG writes bit 0 of `CTRL`, clears the sticky bits of `STATUS` where it writes a 1, and does nothing but set
`BAD_CMD` for every other register number or without a value; the number is header bits 15:8, the value the first payload
word. -/
def Obligations.WrregWritesCtrlAndClearsStatus : Prop :=
  ∀ (s : State) (x : Word),
    (∃ t, exec (.wrreg 0x01#8 (some x)) s = .next t ∧ t = { s with ctrl := t.ctrl } ∧
      ∀ n, t.ctrl.getLsbD n = (decide (n = 0) && x.getLsbD 0)) ∧
    (∃ t, exec (.wrreg 0x02#8 (some x)) s = .next t ∧ t = { s with status := t.status } ∧
      ∀ n, t.status.getLsbD n = (s.status.getLsbD n && !(decide (1 ≤ n ∧ n ≤ 6) && x.getLsbD n))) ∧
    (∀ r : BitVec 8, r ≠ 0x01#8 → r ≠ 0x02#8 →
      exec (.wrreg r (some x)) s = .next { s with status := s.status ||| 0x10#32 }) ∧
    (∀ r : BitVec 8, exec (.wrreg r none) s = .next { s with status := s.status ||| 0x10#32 }) ∧
    (∀ (hdr : Word) (payload rest : List Word), s.cmd = hdr :: (payload ++ rest) →
      payload.length = (lenField hdr).toNat → opcodeField hdr = 0x0C#8 →
      (payload = [] → step s = .next { s with cmd := rest, status := s.status ||| 0x10#32 }) ∧
      (∀ y more, payload = y :: more → step s = exec (.wrreg (hdr.extractLsb' 8 8) (some y)) { s with cmd := rest }))

/-! ### Strips, Areas and pixels -/

/-- R150: CONFIGURE, in each of its four cases. -/
def Obligations.ConfigureFollowsTheDescriptors : Prop :=
  ∀ (ds : List StripDesc) (s : State),
    (s.status.getLsbD 0 = true → exec (.configure ds) s = .next { s with status := s.status ||| 0x10#32 }) ∧
    (s.status.getLsbD 0 = false → s.build.maxStrips < ds.length →
      exec (.configure ds) s = .next { s with status := s.status ||| 0x10#32 }) ∧
    (s.status.getLsbD 0 = false → ds.length ≤ s.build.maxStrips →
      s.build.maxPixels < (ds.map fun d => d.length.toNat).sum →
      exec (.configure ds) s = .next { s with status := s.status ||| 0x03#32, strips := [], npix := 0#16, pixbuf := [] }) ∧
    (s.status.getLsbD 0 = false → ds.length ≤ s.build.maxStrips →
      (ds.map fun d => d.length.toNat).sum ≤ s.build.maxPixels → s.build.maxPixels ≤ 65535 →
      ∃ t, exec (.configure ds) s = .next t ∧
        t = { s with status := s.status ||| 0x01#32, strips := t.strips, npix := t.npix, pixbuf := t.pixbuf } ∧
        t.strips.length = ds.length ∧ t.npix.toNat = (ds.map fun d => d.length.toNat).sum ∧
        (∀ k d, ds[k]? = some d → ∃ r, t.strips[k]? = some r ∧ r.pin = d.pin ∧ r.reversed = d.reversed ∧
          r.length = d.length ∧ r.lastShown = 0 ∧ r.offset.toNat = ((ds.take k).map fun d => d.length.toNat).sum) ∧
        ∀ i, t.pixel? i = if i < (ds.map fun d => d.length.toNat).sum then some 0#32 else none)

/-- R153: CONFIGURE is accepted once, and no other command writes the Strip table (timestamps apart), `NSTRIPS` or `NPIX`. -/
def Obligations.StripTableIsWrittenOnce : Prop :=
  (∀ (s : State) (ds : List StripDesc), s.status.getLsbD 0 = true ∨ s.build.maxStrips < ds.length →
    exec (.configure ds) s = .next { s with status := s.status ||| 0x10#32 }) ∧
  (∀ (s : State) (hdr : Word) (more : List Word), s.cmd = hdr :: more → opcodeField hdr = 0x01#8 →
    (lenField hdr).toNat ≤ more.length → (s.status.getLsbD 0 = true ∨ s.build.maxStrips < (lenField hdr).toNat) →
    step s = .next { s with cmd := more.drop (lenField hdr).toNat, status := s.status ||| 0x10#32 }) ∧
  (∀ (i : Instr) (s t : State), (∀ ds, i ≠ .configure ds) → exec i s = .next t →
    stripGeometry t.strips = stripGeometry s.strips ∧ t.npix = s.npix)

/-- R154, R155: on strips that follow one another without a gap, an index below `NPIX` resolves inside the strip that owns it,
backwards in a reversed strip; applied twice it gives the index back; any other index resolves to 0 and sets
`UNMAPPED_INDEX`. -/
def Obligations.LogicalIndexResolvesInsideItsStrip : Prop :=
  ∀ s : State, stripsContiguous 0 s.strips s.npix.toNat →
    (∀ (r : Strip) (li : Nat), r ∈ s.strips → r.offset.toNat ≤ li → li < r.offset.toNat + r.length.toNat →
      ∃ p, logicalToPhysical s li = (p, s) ∧
        p.toNat = (if r.reversed then r.offset.toNat + r.length.toNat - 1 - (li - r.offset.toNat) else li)) ∧
    (∀ li, li < s.npix.toNat → ∃ p : Index, logicalToPhysical s li = (p, s) ∧ p.toNat < s.npix.toNat ∧
      ∃ q : Index, logicalToPhysical s p.toNat = (q, s) ∧ q.toNat = li) ∧
    (∀ li, s.npix.toNat ≤ li → logicalToPhysical s li = (0#16, { s with status := s.status ||| 0x08#32 }))

/-- R156, R157, R159: DEFINE_AREA replaces the Area's map and marks it defined; a map that does not fit is empty and sets
`MAP_ALLOC_FAIL`; an uncovered index is 0 and sets `UNMAPPED_INDEX`; an id out of range does nothing but set `BAD_AREA`. -/
def Obligations.DefineAreaBuildsTheIndexMap : Prop :=
  ∀ (a : AreaId) (ws : List Section) (s : State),
    (s.areas.length = s.build.maxAreas →
      (s.build.maxAreas ≤ a.toNat → exec (.defineArea a ws) s = .next { s with status := s.status ||| 0x20#32 }) ∧
      (a.toNat < s.build.maxAreas → ∃ r, s.area? a.toNat = some r)) ∧
    (∀ r, s.area? a.toNat = some r →
      ∃ t, exec (.defineArea a ws) s = .next t ∧ (∀ b, b ≠ a.toNat → t.area? b = s.area? b) ∧
        (s.build.maxMapLen < (ws.map fun w => w.length.toNat).sum →
          t = { s with areas := t.areas, status := s.status ||| 0x04#32 } ∧
          t.area? a.toNat = some { r with map := [], defined := true }) ∧
        ((ws.map fun w => w.length.toNat).sum ≤ s.build.maxMapLen →
          t = { s with areas := t.areas, status := t.status } ∧
          t.area? a.toNat =
            some { r with map := (namedIndices ws).map fun li => (logicalToPhysical s li).1, defined := true } ∧
          t.status = (if ∃ li ∈ namedIndices ws, resolveIndex s.strips li = none then s.status ||| 0x08#32 else s.status)))

/-- R160, R161: SET_PIXEL replaces one pixel word, or drops the write and sets `BAD_INDEX`; every other pixel and every other
part of the state is unchanged.  That the buffer has a canonical form, which the command keeps, is the model's choice (assumption
log 2). -/
def Obligations.SetPixelWritesOnePixel : Prop :=
  (∀ s : State, exec (.setPixel none) s = .next { s with status := s.status ||| 0x10#32 }) ∧
  ∀ (s : State) (w : PixelWrite), s.pixbuf.wf →
    (s.npix.toNat ≤ w.index.toNat → exec (.setPixel (some w)) s = .next { s with status := s.status ||| 0x40#32 }) ∧
    (w.index.toNat < s.npix.toNat → ∃ t, exec (.setPixel (some w)) s = .next t ∧ t = { s with pixbuf := t.pixbuf } ∧
      t.pixbuf.wf ∧ t.pixel? w.index.toNat = some w.pixel ∧ ∀ j, j ≠ w.index.toNat → t.pixel? j = s.pixel? j)

/-- R166: FILL_AREA writes one pixel word at every index of the Area's map that exists, sets `BAD_INDEX` when some index does
not, and changes nothing else. -/
def Obligations.FillAreaPaintsTheCurrentMap : Prop :=
  (∀ (s : State) (a : AreaId), exec (.fillArea a none) s = .next { s with status := s.status ||| 0x10#32 }) ∧
  (∀ (s : State) (a : AreaId) (c : Color), s.definedArea? a = none →
    exec (.fillArea a (some c)) s = .next { s with status := s.status ||| 0x20#32 }) ∧
  ∀ (s : State) (a : AreaId) (c : Color) (r : Area), s.area? a.toNat = some r → r.defined = true → s.pixbuf.wf →
    ∃ t, exec (.fillArea a (some c)) s = .next t ∧
      t = { s with pixbuf := t.pixbuf, status := t.status } ∧
      t.status = (if ∃ i ∈ r.map, s.npix.toNat ≤ i.toNat then s.status ||| 0x40#32 else s.status) ∧
      ∀ j, t.pixel? j =
        if j < s.npix.toNat ∧ ∃ i ∈ r.map, i.toNat = j then some (toPixel s.conversion c) else s.pixel? j

/-- R162: a command whose Area is out of range or not defined changes no state but the flag; QUERY still answers two zero
words. -/
def Obligations.UndefinedAreaOnlySetsBadArea : Prop :=
  ∀ (s : State) (a : AreaId),
    ((s.areas.length = s.build.maxAreas ∧ s.build.maxAreas ≤ a.toNat) ∨
      ∃ r, s.area? a.toNat = some r ∧ r.defined = false) →
    (∀ f, exec (.areaCmd a f) s = .next { s with status := s.status ||| 0x20#32 }) ∧
    (∀ q, exec (.effect a (some q)) s = .next { s with status := s.status ||| 0x20#32 }) ∧
    (∀ c, exec (.fillArea a (some c)) s = .next { s with status := s.status ||| 0x20#32 }) ∧
    exec (.query a) s = .next { s with status := s.status ||| 0x20#32, rsp := s.rsp ++ [0#32, 0#32] }

/-! ### The colour engine -/

/-- R139: CONVERT answers the pixel of its colour and changes nothing else; a short packet sets `BAD_CMD` and answers 0; the
colour is bits 31:16 and 15:0 of the first payload word and bits 15:0 of the second. -/
def Obligations.ConvertAnswersThePixel : Prop :=
  (∀ (s : State) (c : Color), exec (.convert (some c)) s =
    .next { s with rsp := s.rsp ++ [toPixel ⟨if s.ctrl.getLsbD 0 then .reference else .fast, s.build.gamma⟩ c] }) ∧
  (∀ s : State, exec (.convert none) s = .next { s with rsp := s.rsp ++ [0#32], status := s.status ||| 0x10#32 }) ∧
  (∀ (s : State) (hdr : Word) (payload rest : List Word), s.cmd = hdr :: (payload ++ rest) →
    payload.length = (lenField hdr).toNat → opcodeField hdr = 0x0A#8 →
    (payload.length < 2 → step s =
      .next { s with cmd := rest, rsp := s.rsp ++ [0#32], status := s.status ||| 0x10#32 }) ∧
    (∀ w0 w1 more, payload = w0 :: w1 :: more → step s =
      .next { s with cmd := rest, rsp := s.rsp ++ [toPixel ⟨if s.ctrl.getLsbD 0 then .reference else .fast, s.build.gamma⟩
        ⟨w0.extractLsb' 16 16, w0.extractLsb' 0 16, w1.extractLsb' 0 16⟩] }))

/-- R121: a negative value gives the off pixel; every other colour is converted as its normalised form. -/
def Obligations.ToPixelNormalisesItsColour : Prop :=
  ∀ (conv : Conversion) (c : Color),
    (c.v.toInt < 0 → toPixel conv c = 0x00000000#32) ∧
    (0 ≤ c.v.toInt →
      toPixel conv c = toPixel conv
        { h := BitVec.ofNat 16 (c.h.toNat % 46080)
          s := BitVec.ofNat 16 (max 0 (min c.s.toInt 25600)).toNat
          v := BitVec.ofNat 16 (max 0 (min c.v.toInt 25600)).toNat }) ∧
    ∀ strategy : Strategy, toPixel ⟨strategy, ⟨11, 5⟩⟩ { h := 61440#16, s := 30000#16, v := 25600#16 } = 0x0000FF00#32

/-- R122: the three hue weights, their sum 15360, that at most two of them are not zero, and the three examples. -/
def Obligations.HueWeightsSumToOneLobe : Prop :=
  (∀ h : Nat, h < 46080 →
    (hueWeight .red h : ℤ) = max 0 (15360 - min (h : ℤ) (46080 - h)) ∧
    (hueWeight .green h : ℤ) = max 0 (15360 - |(h : ℤ) - 15360|) ∧
    (hueWeight .blue h : ℤ) = max 0 (15360 - |(h : ℤ) - 30720|) ∧
    hueWeight .red h + hueWeight .green h + hueWeight .blue h = 15360 ∧
    (hueWeight .red h = 0 ∨ hueWeight .green h = 0 ∨ hueWeight .blue h = 0)) ∧
  (hueWeight .red 7680 = 7680 ∧ hueWeight .green 7680 = 7680 ∧ hueWeight .blue 7680 = 0) ∧
  (hueWeight .red 25600 = 0 ∧ hueWeight .green 25600 = 5120 ∧ hueWeight .blue 25600 = 10240) ∧
  (hueWeight .red 100 = 15260 ∧ hueWeight .green 100 = 100 ∧ hueWeight .blue 100 = 0)

/-- R127 to R129: every table entry is the rounded sample of its power law, for every `GAMMA`; for `GAMMA` = 11/5 it is decided
in integers as the rule says, and the tables and their sums are as printed. -/
def Obligations.TablesHoldTheirPowerLaws : Prop :=
  (∀ (g : Gamma) (i : Nat), 0 < g.num → 0 < g.den → i ≤ 200 →
    (gammaLut g i : ℤ) = ⌊65536 * ((i : ℝ) / 200) ^ ((g.num : ℝ) / g.den) + 1 / 2⌋) ∧
  (∀ i : Nat, i ≤ 200 → (satLut i : ℤ) = ⌊65536 * ((i : ℝ) / 200) ^ ((1 : ℝ) / 3) + 1 / 2⌋) ∧
  (∀ i, 1 ≤ i → i ≤ 200 →
    (2 * gammaLut ⟨11, 5⟩ i - 1) ^ 5 * 200 ^ 11 ≤ 2 ^ 5 * 65536 ^ 5 * i ^ 11 ∧
    2 ^ 5 * 65536 ^ 5 * i ^ 11 < (2 * (gammaLut ⟨11, 5⟩ i + 1) - 1) ^ 5 * 200 ^ 11 ∧
    (2 * satLut i - 1) ^ 3 * 200 ≤ 2 ^ 3 * 65536 ^ 3 * i ∧
    2 ^ 3 * 65536 ^ 3 * i < (2 * (satLut i + 1) - 1) ^ 3 * 200) ∧
  gammaLut ⟨11, 5⟩ 0 = 0 ∧ satLut 0 = 0 ∧
  (List.range 201).map (gammaLut ⟨11, 5⟩) = printedGammaLut ∧ (List.range 201).map satLut = printedSatLut ∧
  printedGammaLut.sum = 4128826 ∧ printedSatLut.sum = 9860069

/-- R130: interpolation between neighbouring samples, rounded, for every `GAMMA`; it stays in 0 to 65536, never decreases, and is
the table entry at a sample point. -/
def Obligations.InterpolationIsMonotonic : Prop :=
  (∀ (g : Gamma), 0 < g.num → 0 < g.den → ∀ table ∈ [gammaLut g, satLut],
    (∀ i f, i < 200 → f < 128 → (lutInterp table (128 * i + f) : ℤ) =
      table i + (((table (i + 1) : ℤ) - table i) * f + 64) / 128) ∧
    (∀ x, x ≤ 25600 → lutInterp table x ≤ 65536) ∧
    (∀ x y, x ≤ y → y ≤ 25600 → lutInterp table x ≤ lutInterp table y) ∧
    (∀ i, i ≤ 200 → lutInterp table (128 * i) = table i)) ∧
  lutInterp (gammaLut ⟨11, 5⟩) 12864 = 14421 ∧ lutInterp satLut 64 = 5603

/-- R131 to R134: the fast strategy, channel by channel as a rounded quotient of integers, every channel in 0 to 255, and the
three corner cases, for every `GAMMA`. -/
def Obligations.FastStrategyRoundsEachChannelOnce : Prop :=
  ∀ (g : Gamma) (c : Color), 0 < g.num → 0 < g.den → inRange c →
    let b := lutInterp (gammaLut g) c.v.toNat
    let q := lutInterp satLut c.s.toNat
    let p := toPixel ⟨.fast, g⟩ c
    (channelByte p .white).toNat = (b * (65536 - q) * 255 + 2 ^ 31) / 2 ^ 32 ∧
    (channelByte p .red).toNat = (b * q * 255 * hueWeight .red c.h.toNat + 32985348833280) / 65970697666560 ∧
    (channelByte p .green).toNat = (b * q * 255 * hueWeight .green c.h.toNat + 32985348833280) / 65970697666560 ∧
    (channelByte p .blue).toNat = (b * q * 255 * hueWeight .blue c.h.toNat + 32985348833280) / 65970697666560 ∧
    (c.v.toNat = 0 → p = 0#32) ∧
    (c.s.toNat = 0 → channelByte p .red = 0#8 ∧ channelByte p .green = 0#8 ∧ channelByte p .blue = 0#8 ∧
      (channelByte p .white).toNat = (2 * b * 255 + 65536) / (2 * 65536)) ∧
    (c.s.toNat = 25600 → channelByte p .white = 0#8)

/-- R123, R124: the reference strategy is the exact power law over the real numbers, clamped below at 0 and rounded to nearest
with ties up, for every `GAMMA`. -/
def Obligations.ReferenceStrategyIsTheRealPowerLaw : Prop :=
  ∀ (g : Gamma) (c : Color), 0 < g.num → 0 < g.den → inRange c →
    let bt : ℝ := ((c.v.toNat : ℝ) / 25600) ^ ((g.num : ℝ) / g.den)
    let st : ℝ := ((c.s.toNat : ℝ) / 25600) ^ ((1 : ℝ) / 3)
    let p := toPixel ⟨.reference, g⟩ c
    ((channelByte p .white).toNat : ℤ) = ⌊max 0 (bt * (1 - st) * 255) + 1 / 2⌋ ∧
    ((channelByte p .red).toNat : ℤ) = ⌊max 0 (bt * st * 255 * ((hueWeight .red c.h.toNat : ℝ) / 15360)) + 1 / 2⌋ ∧
    ((channelByte p .green).toNat : ℤ) = ⌊max 0 (bt * st * 255 * ((hueWeight .green c.h.toNat : ℝ) / 15360)) + 1 / 2⌋ ∧
    ((channelByte p .blue).toNat : ℤ) = ⌊max 0 (bt * st * 255 * ((hueWeight .blue c.h.toNat : ℝ) / 15360)) + 1 / 2⌋

/-- R135: for `GAMMA` = 11/5 the two strategies agree within 1 count per channel when the saturation is 0 or at
least 128, and not for every saturation between: at (0, 16, 25600) white and red differ by 17. -/
def Obligations.StrategiesAgreeWithinOneCount : Prop :=
  (∀ (c : Color) (x : Channel), inRange c → (c.s.toNat = 0 ∨ 128 ≤ c.s.toNat) →
    (channelByte (toPixel ⟨.fast, ⟨11, 5⟩⟩ c) x).toNat ≤ (channelByte (toPixel ⟨.reference, ⟨11, 5⟩⟩ c) x).toNat + 1 ∧
    (channelByte (toPixel ⟨.reference, ⟨11, 5⟩⟩ c) x).toNat ≤ (channelByte (toPixel ⟨.fast, ⟨11, 5⟩⟩ c) x).toNat + 1) ∧
  toPixel ⟨.fast, ⟨11, 5⟩⟩ { h := 0#16, s := 16#16, v := 25600#16 } = 0xFA050000#32 ∧
  toPixel ⟨.reference, ⟨11, 5⟩⟩ { h := 0#16, s := 16#16, v := 25600#16 } = 0xE9160000#32

/-- R136: each component of `mix` is the rounded point of the line, exact at both ends, within half a unit of the line between
them and monotonic in `num`; colours in range stay in range; the four examples, the fourth
with hue 0, for a stored hue is unsigned (assumption log 20). -/
def Obligations.MixIsTheRoundedLine : Prop :=
  (∀ (a b : Color) (den : Nat), 0 < den →
    mix a b 0 den = a ∧ mix a b den den = b ∧
    ∀ x ∈ componentsOf, ∀ num, num ≤ den →
      x (mix a b num den) = x a + Int.fdiv (2 * (x b - x a) * num + den) (2 * den) ∧
      |2 * den * (x (mix a b num den) - x a) - 2 * (x b - x a) * num| ≤ den ∧
      (inRange a → inRange b → inRange (mix a b num den)) ∧
      ∀ num', num ≤ num' → num' ≤ den →
        (x a ≤ x b → x (mix a b num den) ≤ x (mix a b num' den)) ∧
        (x b ≤ x a → x (mix a b num' den) ≤ x (mix a b num den))) ∧
  mix ⟨0#16, 0#16, 0#16⟩ ⟨15360#16, 25600#16, 12800#16⟩ 1 3 = ⟨5120#16, 8533#16, 4267#16⟩ ∧
  mix ⟨15360#16, 25600#16, 12800#16⟩ ⟨0#16, 0#16, 0#16⟩ 1 3 = ⟨10240#16, 17067#16, 8533#16⟩ ∧
  mix ⟨0#16, 0#16, 0#16⟩ ⟨10#16, 1#16, 3#16⟩ 1 2 = ⟨5#16, 1#16, 2#16⟩ ∧
  mix ⟨0#16, 0#16, 0#16⟩ ⟨0#16, BitVec.ofInt 16 (-1), BitVec.ofInt 16 (-5)⟩ 1 2 = ⟨0#16, 0#16, BitVec.ofInt 16 (-2)⟩

/-! ### The effect engine -/

/-- R187, R188: an AREA_CMD with a state field sets the Area's target and binds a Transition from the colour the Area showed to
the colour it now targets; every other Area and every other part of the state is unchanged. -/
def Obligations.AreaCmdRetargetsAndBindsATransition : Prop :=
  ∀ (s : State) (a : AreaId) (f : AreaFields) (r : Area), s.area? a.toNat = some r → r.defined = true →
    (f.state ≠ none ∨ f.hue ≠ none ∨ f.sat ≠ none ∨ f.bri ≠ none) →
    ∃ t r', exec (.areaCmd a f) s = .next t ∧ t = { s with areas := t.areas } ∧
      (∀ b, b ≠ a.toNat → t.area? b = s.area? b) ∧ t.area? a.toNat = some r' ∧
      r'.defined = true ∧ r'.map = r.map ∧ r'.dirty = true ∧
      (∀ v, f.state = some v → r'.on = v) ∧ (f.state = none → r'.on = r.on) ∧
      (∀ h, f.hue = some h → r'.base.h.toNat = h.toNat % 46080) ∧
      (f.hue = none → r'.base.h = if r.base.v.toInt < 0 then s.build.defaultColor.h else r.base.h) ∧
      (∀ x, f.sat = some x → (r'.base.s.toNat : ℤ) = max 0 (min x.toInt 25600)) ∧
      (f.sat = none → r'.base.s = if r.base.v.toInt < 0 then s.build.defaultColor.s else r.base.s) ∧
      (∀ x, f.bri = some x → (r'.base.v.toNat : ℤ) = max 0 (min x.toInt 25600)) ∧
      (f.bri = none → r'.base.v = if r.base.v.toInt < 0 then s.build.defaultColor.v else r.base.v) ∧
      r'.eff = some ⟨s.tick, r.map, .transition (currentColor s.tick r) (effColor r') (f.trans.getD 0#32)⟩

/-- R189: an AREA_CMD without a state field, absent or dropped because `LEN` is too small, changes nothing. -/
def Obligations.AreaCmdWithoutStateFieldChangesNothing : Prop :=
  (∀ (s : State) (a : AreaId) (trans : Option Word) (r : Area), s.area? a.toNat = some r → r.defined = true →
    exec (.areaCmd a { state := none, hue := none, sat := none, bri := none, trans := trans }) s = .next s) ∧
  ∀ (s : State) (hdr : Word) (payload rest : List Word) (r : Area), s.cmd = hdr :: (payload ++ rest) →
    payload.length = (lenField hdr).toNat → opcodeField hdr = 0x05#8 →
    s.area? (areaField hdr).toNat = some r → r.defined = true → hdr.getLsbD 8 = false →
    (hdr.getLsbD 9 = false ∨ payload.length < 1) → (hdr.getLsbD 10 = false ∨ payload.length < 1) →
    (hdr.getLsbD 11 = false ∨ payload.length < 2) → step s = .next { s with cmd := rest }

/-- R185: the colour an Area's effects render from. -/
def Obligations.EffColorFollowsBaseAndOn : Prop :=
  ∀ r : Area,
    (r.base.v.toInt < 0 → effColor r = ⟨0#16, 0#16, 0#16⟩) ∧
    (0 ≤ r.base.v.toInt → r.on = true → effColor r = r.base) ∧
    (0 ≤ r.base.v.toInt → r.on = false → effColor r = ⟨r.base.h, r.base.s, 0#16⟩)

/-- R186: while a Transition is bound, `CurrentColor` after a tick is the colour the tick's update wrote; before the first
update it is `FROM`; with no effect, or another kind of effect, it is `EffColor`. -/
def Obligations.CurrentColorIsTheLatestFrame : Prop :=
  ∀ r : Area,
    (∀ (start : Nat) (emap : List Index) (c0 c1 : Color) (dur : Word),
      r.eff = some { start := start, emap := emap, motion := .transition c0 c1 dur } →
      currentColor start r = c0 ∧
      ∀ tick, start ≤ tick →
        currentColor (tick + 1) r =
          if dur.toNat = 0 ∨ dur.toNat ≤ tick - start then c1 else mix c0 c1 (tick - start) dur.toNat) ∧
    (∀ tick, r.kind ≠ 1 → currentColor tick r = effColor r)

/-- R190, R191, R184: EFFECT binds the named effect with `START = TICK` and a copy of the map, and sets `DIRTY`; a code that is
not a name does nothing but set `BAD_CMD`; a short packet likewise. -/
def Obligations.EffectBindsTheNamedEffect : Prop :=
  (∀ (s : State) (a : AreaId), exec (.effect a none) s = .next { s with status := s.status ||| 0x10#32 }) ∧
  ∀ (s : State) (a : AreaId) (q : EffectRequest) (r : Area), s.area? a.toNat = some r → r.defined = true →
    (∀ c, q.name = .unnamed c → exec (.effect a (some q)) s = .next { s with status := s.status ||| 0x10#32 }) ∧
    (∀ m, (q.name = .rainbow ∧ m = Motion.rainbow q.rate q.width q.duration) ∨
        (∃ shape, q.name = .wave shape ∧ m = Motion.wave q.rate q.width shape q.duration) ∨
        (q.name = .cylon ∧ m = Motion.cylon q.rate q.width q.duration) →
      ∃ t, exec (.effect a (some q)) s = .next t ∧ t = { s with areas := t.areas } ∧
        (∀ b, b ≠ a.toNat → t.area? b = s.area? b) ∧
        t.area? a.toNat = some { r with eff := some { start := s.tick, emap := r.map, motion := m }, dirty := true })

/-- R102, R198, R199: QUERY answers the Area's target state, field by field, clears `DIRTY`, and changes nothing else. -/
def Obligations.QueryReportsTheTargetState : Prop :=
  ∀ (s : State) (a : AreaId) (r : Area), s.area? a.toNat = some r → r.defined = true →
    (r.base = ⟨0#16, 0#16, BitVec.ofInt 16 (-25600)⟩ ∨ inRange r.base) →
    ∃ t w0 w1, exec (.query a) s = .next t ∧ t = { s with areas := t.areas, rsp := s.rsp ++ [w0, w1] } ∧
      (∀ b, b ≠ a.toNat → t.area? b = s.area? b) ∧ t.area? a.toNat = some { r with dirty := false } ∧
      w0.getLsbD 31 = true ∧ w0.getLsbD 30 = r.on ∧ w0.getLsbD 29 = decide (0 ≤ r.base.v.toInt) ∧
      w0.getLsbD 28 = r.dirty ∧ w0.getLsbD 27 = false ∧ (w0.extractLsb' 24 3).toNat = r.kind ∧
      w0.extractLsb' 7 17 = 0#17 ∧
      (w0.extractLsb' 0 7).toNat = (if 0 ≤ r.base.v.toInt then (r.base.v.toNat + 128) / 256 else 0) ∧
      (w0.extractLsb' 0 7).toNat ≤ 100 ∧
      w1 = (if 0 ≤ r.base.v.toInt then r.base.h ++ r.base.s else 0#32)

/-- R211: `phase16` lies in 0 to 65535, repeats with its period, starts at 0, and stands still for a period of 0. -/
def Obligations.PhaseIsPeriodic : Prop :=
  ∀ e p : Nat, phase16 e p < 65536 ∧ phase16 (e + p) p = phase16 e p ∧ phase16 e 0 = 0 ∧ phase16 0 p = 0 ∧
    (0 < p → phase16 e p = (65536 * (e % p)) / p)

/-- R212: every position of a Transition's frame is one pixel, of `TO` once the duration is over and of the mixed colour before,
and the update is done exactly then; the first frame of a Transition of positive duration is `FROM`. -/
def Obligations.TransitionFadesFromFromToTo : Prop :=
  ∀ (conv : Conversion) (ec c0 c1 : Color) (dur : Word) (n e i : Nat), i < n →
    ((dur.toNat = 0 ∨ dur.toNat ≤ e) →
      ((Motion.transition c0 c1 dur).frame conv ec n e)[i]? = some (toPixel conv c1) ∧
      (Motion.transition c0 c1 dur).done e = true) ∧
    (0 < dur.toNat → e < dur.toNat →
      ((Motion.transition c0 c1 dur).frame conv ec n e)[i]? = some (toPixel conv (mix c0 c1 e dur.toNat)) ∧
      (Motion.transition c0 c1 dur).done e = false) ∧
    (0 < dur.toNat → inRange c0 → inRange c1 →
      ((Motion.transition c0 c1 dur).frame conv ec n 0)[i]? = some (toPixel conv c0))

/-- R213, R214, R215: a Rainbow's hue at a position, its corner cases, its period, and when it is done. -/
def Obligations.RainbowTurnsWithTimeAndPosition : Prop :=
  ∀ (conv : Conversion) (ec : Color) (rate : Word) (width : BitVec 16) (dur : Option Word) (n e i : Nat), i < n →
    (∃ h : BitVec 16,
      ((Motion.rainbow rate width dur).frame conv ec n e)[i]? = some (toPixel conv ⟨h, 25600#16, ec.v⟩) ∧
      h.toNat = ((if rate.toNat = 0 then 0 else (46080 * (e % rate.toNat)) / rate.toNat) + i * width.toNat) % 46080) ∧
    (Motion.rainbow rate width dur).frame conv ec n (e + rate.toNat) = (Motion.rainbow rate width dur).frame conv ec n e ∧
    (rate.toNat ≤ 1 → (Motion.rainbow rate width dur).frame conv ec n e = (Motion.rainbow rate width dur).frame conv ec n 0) ∧
    ((width.toNat = 0 ∨ width.toNat = 46080) → ((Motion.rainbow rate width dur).frame conv ec n e)[i]? =
      ((Motion.rainbow rate width dur).frame conv ec n e)[0]?) ∧
    ((Motion.rainbow rate width dur).done e = true ↔ ∃ d, dur = some d ∧ d.toNat < e)

/-- R213, R216, R217, R219: a Wave's pixel at a position, its period, its corner cases, and when it is done. -/
def Obligations.WaveTravelsAlongTheArea : Prop :=
  ∀ (conv : Conversion) (ec : Color) (rate : Word) (width : BitVec 16) (shape : WaveShape) (dur : Option Word) (n e i : Nat),
    inRange ec → i < n →
    (∃ (ph m : Nat) (v : BitVec 16),
      ((Motion.wave rate width shape dur).frame conv ec n e)[i]? = some (toPixel conv ⟨ec.h, ec.s, v⟩) ∧
      (ph : ℤ) = ((phase16 e rate.toNat : ℤ) -
        (if width.toNat = 0 then 0 else (65536 * (i % width.toNat)) / width.toNat : ℕ)) % 65536 ∧
      (shape = .triangular → m = if ph < 32768 then 2 * ph else 2 * (65536 - ph)) ∧
      (shape = .sinusoidal → m = lutEntry sinLut (ph / 256)) ∧
      v.toNat = (ec.v.toNat * m + 32768) / 65536) ∧
    (Motion.wave rate width shape dur).frame conv ec n (e + rate.toNat) =
      (Motion.wave rate width shape dur).frame conv ec n e ∧
    (width.toNat ≤ 1 → ((Motion.wave rate width shape dur).frame conv ec n e)[i]? =
      ((Motion.wave rate width shape dur).frame conv ec n e)[0]?) ∧
    (rate.toNat = 0 → (Motion.wave rate width shape dur).frame conv ec n e =
      (Motion.wave rate width shape dur).frame conv ec n 0) ∧
    ((Motion.wave rate width shape dur).done e = true ↔ ∃ d, dur = some d ∧ d.toNat < e)

/-- R218: the table of the sinusoidal profile: every entry is the rounded sample of the cosine over the real numbers; its fixed
points, its symmetry and its sum. -/
def Obligations.SineTableHasItsFixedPoints : Prop :=
  (∀ k, k ≤ 255 → (lutEntry sinLut k : ℤ) = ⌊65536 * (1 - Real.cos (2 * Real.pi * k / 256)) / 2 + 1 / 2⌋) ∧
  sinLut.length = 256 ∧ sinLut.sum = 8388608 ∧ lutEntry sinLut 0 = 0 ∧ lutEntry sinLut 64 = 32768 ∧
  lutEntry sinLut 192 = 32768 ∧ lutEntry sinLut 128 = 65536 ∧
  ∀ k, 1 ≤ k → k ≤ 255 → lutEntry sinLut k = lutEntry sinLut (256 - k)

/-- R213, R220, R221: a Cylon's pixel at a position, off outside its band and full at its centre, the range of the centre, and
when it is done. -/
def Obligations.CylonSweepsABand : Prop :=
  ∀ (conv : Conversion) (ec : Color) (rate : Word) (width : BitVec 16) (dur : Option Word) (n e i : Nat),
    inRange ec → i < n →
    ∃ c : Nat, c ≤ (n - 1) * 256 ∧
      c = ((n - 1) * 256 *
        (if phase16 e rate.toNat < 32768 then phase16 e rate.toNat else 65536 - phase16 e rate.toNat)) / 32768 ∧
      ((width.toNat * 128 = 0 ∨ width.toNat * 128 ≤ ((i : ℤ) * 256 - c).natAbs) →
        ((Motion.cylon rate width dur).frame conv ec n e)[i]? = some 0x00000000#32) ∧
      (((i : ℤ) * 256 - c).natAbs < width.toNat * 128 → ∃ v : BitVec 16,
        ((Motion.cylon rate width dur).frame conv ec n e)[i]? = some (toPixel conv ⟨ec.h, ec.s, v⟩) ∧
        v.toNat = (2 * ec.v.toNat * (width.toNat * 128 - ((i : ℤ) * 256 - c).natAbs) + width.toNat * 128) /
          (2 * (width.toNat * 128)) ∧
        (i * 256 = c → v = ec.v)) ∧
      ((Motion.cylon rate width dur).done e = true ↔ ∃ d, dur = some d ∧ d.toNat < e)

/-- R182: a tick with no active effect only counts. -/
def Obligations.IdleTickOnlyCounts : Prop :=
  ∀ s : State, (∀ a r, s.area? a = some r → r.eff = none) → exec .tick s = .next { s with tick := s.tick + 1 }

/-- R181, R182, R183: one TICK, from any state whose strips lie in the buffer: every pixel holds the last word the updates wrote
there, in ascending Area id, or is unchanged; every slot whose update reports completion is cleared; the count goes up by one;
and one show of every strip follows exactly when an Area was updated.  That a tick which sends no frame leaves `NOW`, for the clock
moves only where it is read, is the model's choice (assumption log 3). -/
def Obligations.TickUpdatesEveryActiveAreaAndShowsOnce : Prop :=
  ∀ s : State, BufferInv s → s.irqDisable = false →
    ∃ t, exec .tick s = .next t ∧ t.tick = s.tick + 1 ∧
      (∀ a, t.area? a = (s.area? a).map (tickedArea s.tick)) ∧
      (∀ j, t.pixel? j =
        if j < s.npix.toNat then some ((lastWrite (tickWrites s) j).getD (s.pixbuf.read j)) else none) ∧
      t.status = (if ∃ w ∈ tickWrites s, s.npix.toNat ≤ w.1.toNat then s.status ||| 0x40#32 else s.status) ∧
      stripGeometry t.strips = stripGeometry s.strips ∧ t.npix = s.npix ∧ t.ctrl = s.ctrl ∧ t.rsp = s.rsp ∧ t.cmd = s.cmd ∧
      t.waitingTicks = s.waitingTicks ∧ t.build = s.build ∧ t.irqDisable = false ∧
      ∃ new, t.wire = s.wire ++ new ∧
        (someActive s = true → framesOf new = sentStrips s ∧ pulsesOf new = shownPulses t) ∧
        (someActive s = false → new = [] ∧ t.strips = s.strips ∧ t.now = s.now)

/-- R210: an update writes every position of its map: when only one Area is active and its map names no index twice, after a
TICK the pixel at every mapped index below `NPIX` is the frame's pixel of that position, and every unmapped pixel is unchanged. -/
def Obligations.UpdateWritesEveryMappedPosition : Prop :=
  ∀ (s : State) (a : Nat) (r : Area) (e : Effect), BufferInv s → s.area? a = some r → r.eff = some e → e.emap.Nodup →
    (∀ b r', b ≠ a → s.area? b = some r' → r'.eff = none) →
    ∃ t, exec .tick s = .next t ∧
      (∀ (i : Nat) (x : Index), e.emap[i]? = some x → x.toNat < s.npix.toNat →
        t.pixel? x.toNat = (e.motion.frame s.conversion (effColor r) e.emap.length (s.tick - e.start))[i]?) ∧
      (∀ j, (∀ x ∈ e.emap, x.toNat ≠ j) → t.pixel? j = s.pixel? j)

/-! ### The transmitter -/

/-- R240, R241: SHOW sends every strip of non-zero length, in declaration order, its pixels in physical order, and changes
nothing but timestamps, the clock and the wire (and the model's own count of clock readings, assumption log 3). -/
def Obligations.ShowSendsEveryStripInOrder : Prop :=
  ∀ s : State, BufferInv s → s.irqDisable = false →
    ∃ t, exec .showStrips s = .next t ∧
      t = { s with strips := t.strips, now := t.now, wire := t.wire, clockReads := t.clockReads } ∧
      stripGeometry t.strips = stripGeometry s.strips ∧ s.now ≤ t.now ∧
      ∃ new, t.wire = s.wire ++ new ∧ framesOf new = sentStrips s ∧ pulsesOf new = shownPulses s

/-- R242, R243, R246, R250, R304: whatever the command, no frame it sends starts before its strip's last frame's end plus the reset
gap; every frame is whole, its start, the pulses of its strip's pixels and its end one after the other; each strip that was sent
carries the end of its new frame, at or before `NOW`; and a strip that was not keeps its entry, unless the command is the CONFIGURE
that installs the strips.  That a command which sends no frame leaves `NOW`, for the clock moves only where it is read, is the
model's choice (assumption log 3), and so is that the trace shows the edges of a frame (assumption log 7). -/
def Obligations.ShowKeepsTheResetGap : Prop :=
  ∀ (i : Instr) (s t : State), exec i s = .next t →
    ∃ new, t.wire = s.wire ++ new ∧ (framesOf new).Nodup ∧
      (∀ k a, WireEvent.frameStart k a ∈ new →
        ∃ r, s.strips[k]? = some r ∧ r.lastShown + s.build.resetUs ≤ a ∧ s.now ≤ a ∧ a ≤ t.now) ∧
      (∀ k ∈ framesOf new, ∃ r a b, t.strips[k]? = some r ∧ r.lastShown = b ∧ a ≤ b ∧ b ≤ t.now ∧
        WireEvent.frameStart k a :: (framePulses s.build.wireOrder r.pin
          ((List.range r.length.toNat).map fun j => t.pixbuf.read (r.offset.toNat + j)) ++ [.frameEnd k b]) <:+: new) ∧
      (∀ k b, WireEvent.frameEnd k b ∈ new → k ∈ framesOf new ∧ ∃ r, t.strips[k]? = some r ∧ r.lastShown = b ∧ b ≤ t.now) ∧
      ((∀ ds, i ≠ .configure ds) → ∀ k, k ∉ framesOf new → t.strips[k]? = s.strips[k]?) ∧
      (framesOf new = [] → t.now = s.now)

/-- R243, R246: one frame: a hold of the reset gap, `IRQ_DISABLE` 1 from before the first pulse to after the last and 0 after it,
nothing but pulses between, and the timestamp the value of `NOW` after the last pulse.  That the wire trace shows the two edges
as events is the model's choice (assumption log 7), and how far the clock moves is free (assumption log 3). -/
def Obligations.FrameIsOneCriticalSection : Prop :=
  ∀ (s : State) (k : Nat) (r : Strip), r.offset.toNat + r.length.toNat ≤ s.npix.toNat →
    let pulses := framePulses s.build.wireOrder r.pin
      ((List.range r.length.toNat).map fun j => s.pixbuf.read (r.offset.toNat + j))
    ∃ a b, r.lastShown + s.build.resetUs ≤ a ∧ s.now ≤ a ∧ a ≤ b ∧
      (r.lastShown + s.build.resetUs ≤ s.now → a = s.now + Config.elapsedUs s.clockReads) ∧
      s.openFrame k r = { s with
        irqDisable := true,
        now := a,
        clockReads := s.clockReads + 1,
        wire := s.wire ++ [.frameStart k a] } ∧
      (∀ es, ((s.openFrame k r).emit es).irqDisable = true ∧
        ((s.openFrame k r).emit es).wire = s.wire ++ [.frameStart k a] ++ es) ∧
      transmit s k r = .next (((s.openFrame k r).emit pulses).closeFrame k) ∧
      ((s.openFrame k r).emit pulses).closeFrame k = { s with
        strips := s.strips.modify k (fun r => { r with lastShown := b }),
        irqDisable := false,
        now := b,
        clockReads := s.clockReads + 2,
        wire := s.wire ++ [.frameStart k a] ++ pulses ++ [.frameEnd k b] }

/-- R244: the four channel bytes of a pixel leave in `WIRE_ORDER`, by default green, red, blue and white, each byte most
significant bit first, pixels in order; one bit is one pulse (R245). -/
def Obligations.WireOrderIsGreenRedBlueWhite : Prop :=
  (∀ (order : List Channel) (pin : BitVec 8) (ps : List Pixel) (j m n : Nat) (p : Pixel) (c : Channel),
    order.length = 4 → ps[j]? = some p → order[m]? = some c → n < 8 →
    (framePulses order pin ps).length = 32 * ps.length ∧
    (framePulses order pin ps)[32 * j + 8 * m + n]? =
      some (.emitBit pin (if (channelByte p c).getLsbD (7 - n) then Config.t1hCyc else Config.t0hCyc) Config.tlCyc)) ∧
  (∀ (pin : BitVec 8) (ps : List Pixel) (j n : Nat) (p : Pixel), ps[j]? = some p → n < 32 →
    (framePulses Build.default.wireOrder pin ps)[32 * j + n]? =
      some (.emitBit pin
        (if p.getLsbD (if n < 8 then 15 - n else if n < 16 then 31 - n else if n < 24 then 23 - n else 55 - n)
          then Config.t1hCyc else Config.t0hCyc) Config.tlCyc)) ∧
  Config.t0hCyc ≠ Config.t1hCyc

/-- R252: how many processor cycles a frame lasts. -/
def Obligations.FrameDurationIsBounded : Prop :=
  ∀ (order : List Channel) (pin : BitVec 8) (ps : List Pixel), order.length = 4 →
    32 * ps.length * (min Config.t0hCyc Config.t1hCyc + Config.tlCyc) ≤ wireCycles (framePulses order pin ps) ∧
    wireCycles (framePulses order pin ps) ≤ 32 * ps.length * (max Config.t0hCyc Config.t1hCyc + Config.tlCyc)
end

