-- ==== Sys2Proof/Laws/State.lean ====
section
/-! SUPPORT. One lemma per field per named update of the state, so that no later proof unfolds a record update. -/

namespace Sys2Proof.Machine.State

variable (s : State)

/-! ### flag -/

@[simp] theorem flag_strips (b : StatusBit) : (s.flag b).strips = s.strips := rfl
@[simp] theorem flag_npix (b : StatusBit) : (s.flag b).npix = s.npix := rfl
@[simp] theorem flag_pixbuf (b : StatusBit) : (s.flag b).pixbuf = s.pixbuf := rfl
@[simp] theorem flag_areas (b : StatusBit) : (s.flag b).areas = s.areas := rfl
@[simp] theorem flag_tick (b : StatusBit) : (s.flag b).tick = s.tick := rfl
@[simp] theorem flag_build (b : StatusBit) : (s.flag b).build = s.build := rfl
@[simp] theorem flag_waitingTicks (b : StatusBit) : (s.flag b).waitingTicks = s.waitingTicks := rfl
@[simp] theorem flag_ctrl (b : StatusBit) : (s.flag b).ctrl = s.ctrl := rfl
@[simp] theorem flag_status (b : StatusBit) : (s.flag b).status = s.status ||| b.mask := rfl
@[simp] theorem flag_irqDisable (b : StatusBit) : (s.flag b).irqDisable = s.irqDisable := rfl
@[simp] theorem flag_now (b : StatusBit) : (s.flag b).now = s.now := rfl
@[simp] theorem flag_rsp (b : StatusBit) : (s.flag b).rsp = s.rsp := rfl
@[simp] theorem flag_cmd (b : StatusBit) : (s.flag b).cmd = s.cmd := rfl
@[simp] theorem flag_wire (b : StatusBit) : (s.flag b).wire = s.wire := rfl
@[simp] theorem flag_clockReads (b : StatusBit) : (s.flag b).clockReads = s.clockReads := rfl

/-! ### clearStatus -/

@[simp] theorem clearStatus_strips (x : Word) : (s.clearStatus x).strips = s.strips := rfl
@[simp] theorem clearStatus_npix (x : Word) : (s.clearStatus x).npix = s.npix := rfl
@[simp] theorem clearStatus_pixbuf (x : Word) : (s.clearStatus x).pixbuf = s.pixbuf := rfl
@[simp] theorem clearStatus_areas (x : Word) : (s.clearStatus x).areas = s.areas := rfl
@[simp] theorem clearStatus_tick (x : Word) : (s.clearStatus x).tick = s.tick := rfl
@[simp] theorem clearStatus_build (x : Word) : (s.clearStatus x).build = s.build := rfl
@[simp] theorem clearStatus_waitingTicks (x : Word) : (s.clearStatus x).waitingTicks = s.waitingTicks := rfl
@[simp] theorem clearStatus_ctrl (x : Word) : (s.clearStatus x).ctrl = s.ctrl := rfl
@[simp] theorem clearStatus_status (x : Word) : (s.clearStatus x).status = s.status &&& ~~~(x &&& stickyBits) := rfl
@[simp] theorem clearStatus_irqDisable (x : Word) : (s.clearStatus x).irqDisable = s.irqDisable := rfl
@[simp] theorem clearStatus_now (x : Word) : (s.clearStatus x).now = s.now := rfl
@[simp] theorem clearStatus_rsp (x : Word) : (s.clearStatus x).rsp = s.rsp := rfl
@[simp] theorem clearStatus_cmd (x : Word) : (s.clearStatus x).cmd = s.cmd := rfl
@[simp] theorem clearStatus_wire (x : Word) : (s.clearStatus x).wire = s.wire := rfl
@[simp] theorem clearStatus_clockReads (x : Word) : (s.clearStatus x).clockReads = s.clockReads := rfl

/-! ### writeCtrl -/

@[simp] theorem writeCtrl_strips (x : Word) : (s.writeCtrl x).strips = s.strips := rfl
@[simp] theorem writeCtrl_npix (x : Word) : (s.writeCtrl x).npix = s.npix := rfl
@[simp] theorem writeCtrl_pixbuf (x : Word) : (s.writeCtrl x).pixbuf = s.pixbuf := rfl
@[simp] theorem writeCtrl_areas (x : Word) : (s.writeCtrl x).areas = s.areas := rfl
@[simp] theorem writeCtrl_tick (x : Word) : (s.writeCtrl x).tick = s.tick := rfl
@[simp] theorem writeCtrl_build (x : Word) : (s.writeCtrl x).build = s.build := rfl
@[simp] theorem writeCtrl_waitingTicks (x : Word) : (s.writeCtrl x).waitingTicks = s.waitingTicks := rfl
@[simp] theorem writeCtrl_ctrl (x : Word) : (s.writeCtrl x).ctrl = x &&& ctrlBits := rfl
@[simp] theorem writeCtrl_status (x : Word) : (s.writeCtrl x).status = s.status := rfl
@[simp] theorem writeCtrl_irqDisable (x : Word) : (s.writeCtrl x).irqDisable = s.irqDisable := rfl
@[simp] theorem writeCtrl_now (x : Word) : (s.writeCtrl x).now = s.now := rfl
@[simp] theorem writeCtrl_rsp (x : Word) : (s.writeCtrl x).rsp = s.rsp := rfl
@[simp] theorem writeCtrl_cmd (x : Word) : (s.writeCtrl x).cmd = s.cmd := rfl
@[simp] theorem writeCtrl_wire (x : Word) : (s.writeCtrl x).wire = s.wire := rfl
@[simp] theorem writeCtrl_clockReads (x : Word) : (s.writeCtrl x).clockReads = s.clockReads := rfl

/-! ### setArea -/

@[simp] theorem setArea_strips (a : Nat) (r : Area) : (s.setArea a r).strips = s.strips := rfl
@[simp] theorem setArea_npix (a : Nat) (r : Area) : (s.setArea a r).npix = s.npix := rfl
@[simp] theorem setArea_pixbuf (a : Nat) (r : Area) : (s.setArea a r).pixbuf = s.pixbuf := rfl
@[simp] theorem setArea_areas (a : Nat) (r : Area) : (s.setArea a r).areas = s.areas.set a r := rfl
@[simp] theorem setArea_tick (a : Nat) (r : Area) : (s.setArea a r).tick = s.tick := rfl
@[simp] theorem setArea_build (a : Nat) (r : Area) : (s.setArea a r).build = s.build := rfl
@[simp] theorem setArea_waitingTicks (a : Nat) (r : Area) : (s.setArea a r).waitingTicks = s.waitingTicks := rfl
@[simp] theorem setArea_ctrl (a : Nat) (r : Area) : (s.setArea a r).ctrl = s.ctrl := rfl
@[simp] theorem setArea_status (a : Nat) (r : Area) : (s.setArea a r).status = s.status := rfl
@[simp] theorem setArea_irqDisable (a : Nat) (r : Area) : (s.setArea a r).irqDisable = s.irqDisable := rfl
@[simp] theorem setArea_now (a : Nat) (r : Area) : (s.setArea a r).now = s.now := rfl
@[simp] theorem setArea_rsp (a : Nat) (r : Area) : (s.setArea a r).rsp = s.rsp := rfl
@[simp] theorem setArea_cmd (a : Nat) (r : Area) : (s.setArea a r).cmd = s.cmd := rfl
@[simp] theorem setArea_wire (a : Nat) (r : Area) : (s.setArea a r).wire = s.wire := rfl
@[simp] theorem setArea_clockReads (a : Nat) (r : Area) : (s.setArea a r).clockReads = s.clockReads := rfl

/-! ### respond -/

@[simp] theorem respond_strips (w : Word) : (s.respond w).strips = s.strips := rfl
@[simp] theorem respond_npix (w : Word) : (s.respond w).npix = s.npix := rfl
@[simp] theorem respond_pixbuf (w : Word) : (s.respond w).pixbuf = s.pixbuf := rfl
@[simp] theorem respond_areas (w : Word) : (s.respond w).areas = s.areas := rfl
@[simp] theorem respond_tick (w : Word) : (s.respond w).tick = s.tick := rfl
@[simp] theorem respond_build (w : Word) : (s.respond w).build = s.build := rfl
@[simp] theorem respond_waitingTicks (w : Word) : (s.respond w).waitingTicks = s.waitingTicks := rfl
@[simp] theorem respond_ctrl (w : Word) : (s.respond w).ctrl = s.ctrl := rfl
@[simp] theorem respond_status (w : Word) : (s.respond w).status = s.status := rfl
@[simp] theorem respond_irqDisable (w : Word) : (s.respond w).irqDisable = s.irqDisable := rfl
@[simp] theorem respond_now (w : Word) : (s.respond w).now = s.now := rfl
@[simp] theorem respond_rsp (w : Word) : (s.respond w).rsp = s.rsp ++ [w] := rfl
@[simp] theorem respond_cmd (w : Word) : (s.respond w).cmd = s.cmd := rfl
@[simp] theorem respond_wire (w : Word) : (s.respond w).wire = s.wire := rfl
@[simp] theorem respond_clockReads (w : Word) : (s.respond w).clockReads = s.clockReads := rfl

/-! ### readClock -/

@[simp] theorem readClock_strips : (s.readClock).strips = s.strips := rfl
@[simp] theorem readClock_npix : (s.readClock).npix = s.npix := rfl
@[simp] theorem readClock_pixbuf : (s.readClock).pixbuf = s.pixbuf := rfl
@[simp] theorem readClock_areas : (s.readClock).areas = s.areas := rfl
@[simp] theorem readClock_tick : (s.readClock).tick = s.tick := rfl
@[simp] theorem readClock_build : (s.readClock).build = s.build := rfl
@[simp] theorem readClock_waitingTicks : (s.readClock).waitingTicks = s.waitingTicks := rfl
@[simp] theorem readClock_ctrl : (s.readClock).ctrl = s.ctrl := rfl
@[simp] theorem readClock_status : (s.readClock).status = s.status := rfl
@[simp] theorem readClock_irqDisable : (s.readClock).irqDisable = s.irqDisable := rfl
@[simp] theorem readClock_now : (s.readClock).now = s.now + Config.elapsedUs s.clockReads := rfl
@[simp] theorem readClock_rsp : (s.readClock).rsp = s.rsp := rfl
@[simp] theorem readClock_cmd : (s.readClock).cmd = s.cmd := rfl
@[simp] theorem readClock_wire : (s.readClock).wire = s.wire := rfl
@[simp] theorem readClock_clockReads : (s.readClock).clockReads = s.clockReads + 1 := rfl

/-! ### holdUntil -/

@[simp] theorem holdUntil_strips (t : Nat) : (s.holdUntil t).strips = s.strips := rfl
@[simp] theorem holdUntil_npix (t : Nat) : (s.holdUntil t).npix = s.npix := rfl
@[simp] theorem holdUntil_pixbuf (t : Nat) : (s.holdUntil t).pixbuf = s.pixbuf := rfl
@[simp] theorem holdUntil_areas (t : Nat) : (s.holdUntil t).areas = s.areas := rfl
@[simp] theorem holdUntil_tick (t : Nat) : (s.holdUntil t).tick = s.tick := rfl
@[simp] theorem holdUntil_build (t : Nat) : (s.holdUntil t).build = s.build := rfl
@[simp] theorem holdUntil_waitingTicks (t : Nat) : (s.holdUntil t).waitingTicks = s.waitingTicks := rfl
@[simp] theorem holdUntil_ctrl (t : Nat) : (s.holdUntil t).ctrl = s.ctrl := rfl
@[simp] theorem holdUntil_status (t : Nat) : (s.holdUntil t).status = s.status := rfl
@[simp] theorem holdUntil_irqDisable (t : Nat) : (s.holdUntil t).irqDisable = s.irqDisable := rfl
@[simp] theorem holdUntil_now (t : Nat) : (s.holdUntil t).now = max s.now t := rfl
@[simp] theorem holdUntil_rsp (t : Nat) : (s.holdUntil t).rsp = s.rsp := rfl
@[simp] theorem holdUntil_cmd (t : Nat) : (s.holdUntil t).cmd = s.cmd := rfl
@[simp] theorem holdUntil_wire (t : Nat) : (s.holdUntil t).wire = s.wire := rfl
@[simp] theorem holdUntil_clockReads (t : Nat) : (s.holdUntil t).clockReads = s.clockReads := rfl

/-! ### emit -/

@[simp] theorem emit_strips (es : List WireEvent) : (s.emit es).strips = s.strips := rfl
@[simp] theorem emit_npix (es : List WireEvent) : (s.emit es).npix = s.npix := rfl
@[simp] theorem emit_pixbuf (es : List WireEvent) : (s.emit es).pixbuf = s.pixbuf := rfl
@[simp] theorem emit_areas (es : List WireEvent) : (s.emit es).areas = s.areas := rfl
@[simp] theorem emit_tick (es : List WireEvent) : (s.emit es).tick = s.tick := rfl
@[simp] theorem emit_build (es : List WireEvent) : (s.emit es).build = s.build := rfl
@[simp] theorem emit_waitingTicks (es : List WireEvent) : (s.emit es).waitingTicks = s.waitingTicks := rfl
@[simp] theorem emit_ctrl (es : List WireEvent) : (s.emit es).ctrl = s.ctrl := rfl
@[simp] theorem emit_status (es : List WireEvent) : (s.emit es).status = s.status := rfl
@[simp] theorem emit_irqDisable (es : List WireEvent) : (s.emit es).irqDisable = s.irqDisable := rfl
@[simp] theorem emit_now (es : List WireEvent) : (s.emit es).now = s.now := rfl
@[simp] theorem emit_rsp (es : List WireEvent) : (s.emit es).rsp = s.rsp := rfl
@[simp] theorem emit_cmd (es : List WireEvent) : (s.emit es).cmd = s.cmd := rfl
@[simp] theorem emit_wire (es : List WireEvent) : (s.emit es).wire = s.wire ++ es := rfl
@[simp] theorem emit_clockReads (es : List WireEvent) : (s.emit es).clockReads = s.clockReads := rfl

/-! ### stampStrip -/

@[simp] theorem stampStrip_strips (k t : Nat) :
    (s.stampStrip k t).strips =
      s.strips.modify k fun r => { r with lastShown := t } := rfl
@[simp] theorem stampStrip_npix (k t : Nat) : (s.stampStrip k t).npix = s.npix := rfl
@[simp] theorem stampStrip_pixbuf (k t : Nat) : (s.stampStrip k t).pixbuf = s.pixbuf := rfl
@[simp] theorem stampStrip_areas (k t : Nat) : (s.stampStrip k t).areas = s.areas := rfl
@[simp] theorem stampStrip_tick (k t : Nat) : (s.stampStrip k t).tick = s.tick := rfl
@[simp] theorem stampStrip_build (k t : Nat) : (s.stampStrip k t).build = s.build := rfl
@[simp] theorem stampStrip_waitingTicks (k t : Nat) : (s.stampStrip k t).waitingTicks = s.waitingTicks := rfl
@[simp] theorem stampStrip_ctrl (k t : Nat) : (s.stampStrip k t).ctrl = s.ctrl := rfl
@[simp] theorem stampStrip_status (k t : Nat) : (s.stampStrip k t).status = s.status := rfl
@[simp] theorem stampStrip_irqDisable (k t : Nat) : (s.stampStrip k t).irqDisable = s.irqDisable := rfl
@[simp] theorem stampStrip_now (k t : Nat) : (s.stampStrip k t).now = s.now := rfl
@[simp] theorem stampStrip_rsp (k t : Nat) : (s.stampStrip k t).rsp = s.rsp := rfl
@[simp] theorem stampStrip_cmd (k t : Nat) : (s.stampStrip k t).cmd = s.cmd := rfl
@[simp] theorem stampStrip_wire (k t : Nat) : (s.stampStrip k t).wire = s.wire := rfl
@[simp] theorem stampStrip_clockReads (k t : Nat) : (s.stampStrip k t).clockReads = s.clockReads := rfl

/-! ### degradeBuffer -/

@[simp] theorem degradeBuffer_strips : (s.degradeBuffer).strips = [] := rfl
@[simp] theorem degradeBuffer_npix : (s.degradeBuffer).npix = 0#16 := rfl
@[simp] theorem degradeBuffer_pixbuf : (s.degradeBuffer).pixbuf = [] := rfl
@[simp] theorem degradeBuffer_areas : (s.degradeBuffer).areas = s.areas := rfl
@[simp] theorem degradeBuffer_tick : (s.degradeBuffer).tick = s.tick := rfl
@[simp] theorem degradeBuffer_build : (s.degradeBuffer).build = s.build := rfl
@[simp] theorem degradeBuffer_waitingTicks : (s.degradeBuffer).waitingTicks = s.waitingTicks := rfl
@[simp] theorem degradeBuffer_ctrl : (s.degradeBuffer).ctrl = s.ctrl := rfl
@[simp] theorem degradeBuffer_status : (s.degradeBuffer).status = s.status ||| StatusBit.bufAllocFail.mask := rfl
@[simp] theorem degradeBuffer_irqDisable : (s.degradeBuffer).irqDisable = s.irqDisable := rfl
@[simp] theorem degradeBuffer_now : (s.degradeBuffer).now = s.now := rfl
@[simp] theorem degradeBuffer_rsp : (s.degradeBuffer).rsp = s.rsp := rfl
@[simp] theorem degradeBuffer_cmd : (s.degradeBuffer).cmd = s.cmd := rfl
@[simp] theorem degradeBuffer_wire : (s.degradeBuffer).wire = s.wire := rfl
@[simp] theorem degradeBuffer_clockReads : (s.degradeBuffer).clockReads = s.clockReads := rfl

/-! ### installStrips -/

@[simp] theorem installStrips_strips (ds : List StripDesc) : (s.installStrips ds).strips = placeStrips 0 ds := rfl
@[simp] theorem installStrips_npix (ds : List StripDesc) :
    (s.installStrips ds).npix =
      BitVec.ofNat 16 (totalLength ds) := rfl
@[simp] theorem installStrips_pixbuf (ds : List StripDesc) : (s.installStrips ds).pixbuf = [] := rfl
@[simp] theorem installStrips_areas (ds : List StripDesc) : (s.installStrips ds).areas = s.areas := rfl
@[simp] theorem installStrips_tick (ds : List StripDesc) : (s.installStrips ds).tick = s.tick := rfl
@[simp] theorem installStrips_build (ds : List StripDesc) : (s.installStrips ds).build = s.build := rfl
@[simp] theorem installStrips_waitingTicks (ds : List StripDesc) : (s.installStrips ds).waitingTicks = s.waitingTicks := rfl
@[simp] theorem installStrips_ctrl (ds : List StripDesc) : (s.installStrips ds).ctrl = s.ctrl := rfl
@[simp] theorem installStrips_status (ds : List StripDesc) : (s.installStrips ds).status = s.status := rfl
@[simp] theorem installStrips_irqDisable (ds : List StripDesc) : (s.installStrips ds).irqDisable = s.irqDisable := rfl
@[simp] theorem installStrips_now (ds : List StripDesc) : (s.installStrips ds).now = s.now := rfl
@[simp] theorem installStrips_rsp (ds : List StripDesc) : (s.installStrips ds).rsp = s.rsp := rfl
@[simp] theorem installStrips_cmd (ds : List StripDesc) : (s.installStrips ds).cmd = s.cmd := rfl
@[simp] theorem installStrips_wire (ds : List StripDesc) : (s.installStrips ds).wire = s.wire := rfl
@[simp] theorem installStrips_clockReads (ds : List StripDesc) : (s.installStrips ds).clockReads = s.clockReads := rfl

/-! ### openFrame -/

@[simp] theorem openFrame_strips (k : Nat) (r : Strip) : (s.openFrame k r).strips = s.strips := rfl
@[simp] theorem openFrame_npix (k : Nat) (r : Strip) : (s.openFrame k r).npix = s.npix := rfl
@[simp] theorem openFrame_pixbuf (k : Nat) (r : Strip) : (s.openFrame k r).pixbuf = s.pixbuf := rfl
@[simp] theorem openFrame_areas (k : Nat) (r : Strip) : (s.openFrame k r).areas = s.areas := rfl
@[simp] theorem openFrame_tick (k : Nat) (r : Strip) : (s.openFrame k r).tick = s.tick := rfl
@[simp] theorem openFrame_build (k : Nat) (r : Strip) : (s.openFrame k r).build = s.build := rfl
@[simp] theorem openFrame_waitingTicks (k : Nat) (r : Strip) : (s.openFrame k r).waitingTicks = s.waitingTicks := rfl
@[simp] theorem openFrame_ctrl (k : Nat) (r : Strip) : (s.openFrame k r).ctrl = s.ctrl := rfl
@[simp] theorem openFrame_status (k : Nat) (r : Strip) : (s.openFrame k r).status = s.status := rfl
@[simp] theorem openFrame_irqDisable (k : Nat) (r : Strip) : (s.openFrame k r).irqDisable = true := rfl
@[simp] theorem openFrame_now (k : Nat) (r : Strip) :
    (s.openFrame k r).now =
      max (s.now + Config.elapsedUs s.clockReads) (r.lastShown + s.build.resetUs) := rfl
@[simp] theorem openFrame_rsp (k : Nat) (r : Strip) : (s.openFrame k r).rsp = s.rsp := rfl
@[simp] theorem openFrame_cmd (k : Nat) (r : Strip) : (s.openFrame k r).cmd = s.cmd := rfl
@[simp] theorem openFrame_wire (k : Nat) (r : Strip) :
    (s.openFrame k r).wire =
      s.wire ++ [.frameStart k (max (s.now + Config.elapsedUs s.clockReads) (r.lastShown + s.build.resetUs))] := rfl
@[simp] theorem openFrame_clockReads (k : Nat) (r : Strip) : (s.openFrame k r).clockReads = s.clockReads + 1 := rfl

/-! ### closeFrame -/

@[simp] theorem closeFrame_strips (k : Nat) :
    (s.closeFrame k).strips =
      s.strips.modify k fun r => { r with lastShown := s.now + Config.elapsedUs s.clockReads } := rfl
@[simp] theorem closeFrame_npix (k : Nat) : (s.closeFrame k).npix = s.npix := rfl
@[simp] theorem closeFrame_pixbuf (k : Nat) : (s.closeFrame k).pixbuf = s.pixbuf := rfl
@[simp] theorem closeFrame_areas (k : Nat) : (s.closeFrame k).areas = s.areas := rfl
@[simp] theorem closeFrame_tick (k : Nat) : (s.closeFrame k).tick = s.tick := rfl
@[simp] theorem closeFrame_build (k : Nat) : (s.closeFrame k).build = s.build := rfl
@[simp] theorem closeFrame_waitingTicks (k : Nat) : (s.closeFrame k).waitingTicks = s.waitingTicks := rfl
@[simp] theorem closeFrame_ctrl (k : Nat) : (s.closeFrame k).ctrl = s.ctrl := rfl
@[simp] theorem closeFrame_status (k : Nat) : (s.closeFrame k).status = s.status := rfl
@[simp] theorem closeFrame_irqDisable (k : Nat) : (s.closeFrame k).irqDisable = false := rfl
@[simp] theorem closeFrame_now (k : Nat) : (s.closeFrame k).now = s.now + Config.elapsedUs s.clockReads := rfl
@[simp] theorem closeFrame_rsp (k : Nat) : (s.closeFrame k).rsp = s.rsp := rfl
@[simp] theorem closeFrame_cmd (k : Nat) : (s.closeFrame k).cmd = s.cmd := rfl
@[simp] theorem closeFrame_wire (k : Nat) :
    (s.closeFrame k).wire =
      s.wire ++ [.frameEnd k (s.now + Config.elapsedUs s.clockReads)] := rfl
@[simp] theorem closeFrame_clockReads (k : Nat) : (s.closeFrame k).clockReads = s.clockReads + 1 := rfl

/-! ### advanceTick -/

@[simp] theorem advanceTick_strips : (s.advanceTick).strips = s.strips := rfl
@[simp] theorem advanceTick_build : (s.advanceTick).build = s.build := rfl
@[simp] theorem advanceTick_waitingTicks : (s.advanceTick).waitingTicks = s.waitingTicks := rfl
@[simp] theorem advanceTick_npix : (s.advanceTick).npix = s.npix := rfl
@[simp] theorem advanceTick_pixbuf : (s.advanceTick).pixbuf = s.pixbuf := rfl
@[simp] theorem advanceTick_areas : (s.advanceTick).areas = s.areas := rfl
@[simp] theorem advanceTick_tick : (s.advanceTick).tick = s.tick + 1 := rfl
@[simp] theorem advanceTick_ctrl : (s.advanceTick).ctrl = s.ctrl := rfl
@[simp] theorem advanceTick_status : (s.advanceTick).status = s.status := rfl
@[simp] theorem advanceTick_irqDisable : (s.advanceTick).irqDisable = s.irqDisable := rfl
@[simp] theorem advanceTick_now : (s.advanceTick).now = s.now := rfl
@[simp] theorem advanceTick_rsp : (s.advanceTick).rsp = s.rsp := rfl
@[simp] theorem advanceTick_cmd : (s.advanceTick).cmd = s.cmd := rfl
@[simp] theorem advanceTick_wire : (s.advanceTick).wire = s.wire := rfl
@[simp] theorem advanceTick_clockReads : (s.advanceTick).clockReads = s.clockReads := rfl

/-! ### consume -/

@[simp] theorem consume_strips (ws : List Word) : (s.consume ws).strips = s.strips := rfl
@[simp] theorem consume_npix (ws : List Word) : (s.consume ws).npix = s.npix := rfl
@[simp] theorem consume_pixbuf (ws : List Word) : (s.consume ws).pixbuf = s.pixbuf := rfl
@[simp] theorem consume_areas (ws : List Word) : (s.consume ws).areas = s.areas := rfl
@[simp] theorem consume_tick (ws : List Word) : (s.consume ws).tick = s.tick := rfl
@[simp] theorem consume_build (ws : List Word) : (s.consume ws).build = s.build := rfl
@[simp] theorem consume_waitingTicks (ws : List Word) : (s.consume ws).waitingTicks = s.waitingTicks := rfl
@[simp] theorem consume_ctrl (ws : List Word) : (s.consume ws).ctrl = s.ctrl := rfl
@[simp] theorem consume_status (ws : List Word) : (s.consume ws).status = s.status := rfl
@[simp] theorem consume_irqDisable (ws : List Word) : (s.consume ws).irqDisable = s.irqDisable := rfl
@[simp] theorem consume_now (ws : List Word) : (s.consume ws).now = s.now := rfl
@[simp] theorem consume_rsp (ws : List Word) : (s.consume ws).rsp = s.rsp := rfl
@[simp] theorem consume_cmd (ws : List Word) : (s.consume ws).cmd = ws := rfl
@[simp] theorem consume_wire (ws : List Word) : (s.consume ws).wire = s.wire := rfl
@[simp] theorem consume_clockReads (ws : List Word) : (s.consume ws).clockReads = s.clockReads := rfl

/-! ### admitTicks: every field but `CMD` and what waits behind it -/

@[simp] theorem admitTicks_build : (s.admitTicks).build = s.build := by
  unfold admitTicks; split <;> rfl
@[simp] theorem admitTicks_strips : (s.admitTicks).strips = s.strips := by
  unfold admitTicks; split <;> rfl
@[simp] theorem admitTicks_npix : (s.admitTicks).npix = s.npix := by
  unfold admitTicks; split <;> rfl
@[simp] theorem admitTicks_pixbuf : (s.admitTicks).pixbuf = s.pixbuf := by
  unfold admitTicks; split <;> rfl
@[simp] theorem admitTicks_areas : (s.admitTicks).areas = s.areas := by
  unfold admitTicks; split <;> rfl
@[simp] theorem admitTicks_tick : (s.admitTicks).tick = s.tick := by
  unfold admitTicks; split <;> rfl
@[simp] theorem admitTicks_ctrl : (s.admitTicks).ctrl = s.ctrl := by
  unfold admitTicks; split <;> rfl
@[simp] theorem admitTicks_status : (s.admitTicks).status = s.status := by
  unfold admitTicks; split <;> rfl
@[simp] theorem admitTicks_irqDisable : (s.admitTicks).irqDisable = s.irqDisable := by
  unfold admitTicks; split <;> rfl
@[simp] theorem admitTicks_now : (s.admitTicks).now = s.now := by
  unfold admitTicks; split <;> rfl
@[simp] theorem admitTicks_rsp : (s.admitTicks).rsp = s.rsp := by
  unfold admitTicks; split <;> rfl
@[simp] theorem admitTicks_wire : (s.admitTicks).wire = s.wire := by
  unfold admitTicks; split <;> rfl
@[simp] theorem admitTicks_clockReads : (s.admitTicks).clockReads = s.clockReads := by
  unfold admitTicks; split <;> rfl

/-! ### hostWriteWord: every field but `CMD` and what waits behind it -/

@[simp] theorem hostWriteWord_build (w : Word) : (s.hostWriteWord w).build = s.build := by
  simp [hostWriteWord]
@[simp] theorem hostWriteWord_strips (w : Word) : (s.hostWriteWord w).strips = s.strips := by
  simp [hostWriteWord]
@[simp] theorem hostWriteWord_npix (w : Word) : (s.hostWriteWord w).npix = s.npix := by
  simp [hostWriteWord]
@[simp] theorem hostWriteWord_pixbuf (w : Word) : (s.hostWriteWord w).pixbuf = s.pixbuf := by
  simp [hostWriteWord]
@[simp] theorem hostWriteWord_areas (w : Word) : (s.hostWriteWord w).areas = s.areas := by
  simp [hostWriteWord]
@[simp] theorem hostWriteWord_tick (w : Word) : (s.hostWriteWord w).tick = s.tick := by
  simp [hostWriteWord]
@[simp] theorem hostWriteWord_ctrl (w : Word) : (s.hostWriteWord w).ctrl = s.ctrl := by
  simp [hostWriteWord]
@[simp] theorem hostWriteWord_status (w : Word) : (s.hostWriteWord w).status = s.status := by
  simp [hostWriteWord]
@[simp] theorem hostWriteWord_irqDisable (w : Word) : (s.hostWriteWord w).irqDisable = s.irqDisable := by
  simp [hostWriteWord]
@[simp] theorem hostWriteWord_now (w : Word) : (s.hostWriteWord w).now = s.now := by
  simp [hostWriteWord]
@[simp] theorem hostWriteWord_rsp (w : Word) : (s.hostWriteWord w).rsp = s.rsp := by
  simp [hostWriteWord]
@[simp] theorem hostWriteWord_wire (w : Word) : (s.hostWriteWord w).wire = s.wire := by
  simp [hostWriteWord]
@[simp] theorem hostWriteWord_clockReads (w : Word) : (s.hostWriteWord w).clockReads = s.clockReads := by
  simp [hostWriteWord]

/-! ### hostWrite: every field but `CMD` and what waits behind it -/

@[simp] theorem hostWrite_build (ws : List Word) : (s.hostWrite ws).build = s.build := by
  unfold hostWrite; induction ws generalizing s <;> simp_all
@[simp] theorem hostWrite_strips (ws : List Word) : (s.hostWrite ws).strips = s.strips := by
  unfold hostWrite; induction ws generalizing s <;> simp_all
@[simp] theorem hostWrite_npix (ws : List Word) : (s.hostWrite ws).npix = s.npix := by
  unfold hostWrite; induction ws generalizing s <;> simp_all
@[simp] theorem hostWrite_pixbuf (ws : List Word) : (s.hostWrite ws).pixbuf = s.pixbuf := by
  unfold hostWrite; induction ws generalizing s <;> simp_all
@[simp] theorem hostWrite_areas (ws : List Word) : (s.hostWrite ws).areas = s.areas := by
  unfold hostWrite; induction ws generalizing s <;> simp_all
@[simp] theorem hostWrite_tick (ws : List Word) : (s.hostWrite ws).tick = s.tick := by
  unfold hostWrite; induction ws generalizing s <;> simp_all
@[simp] theorem hostWrite_ctrl (ws : List Word) : (s.hostWrite ws).ctrl = s.ctrl := by
  unfold hostWrite; induction ws generalizing s <;> simp_all
@[simp] theorem hostWrite_status (ws : List Word) : (s.hostWrite ws).status = s.status := by
  unfold hostWrite; induction ws generalizing s <;> simp_all
@[simp] theorem hostWrite_irqDisable (ws : List Word) : (s.hostWrite ws).irqDisable = s.irqDisable := by
  unfold hostWrite; induction ws generalizing s <;> simp_all
@[simp] theorem hostWrite_now (ws : List Word) : (s.hostWrite ws).now = s.now := by
  unfold hostWrite; induction ws generalizing s <;> simp_all
@[simp] theorem hostWrite_rsp (ws : List Word) : (s.hostWrite ws).rsp = s.rsp := by
  unfold hostWrite; induction ws generalizing s <;> simp_all
@[simp] theorem hostWrite_wire (ws : List Word) : (s.hostWrite ws).wire = s.wire := by
  unfold hostWrite; induction ws generalizing s <;> simp_all
@[simp] theorem hostWrite_clockReads (ws : List Word) : (s.hostWrite ws).clockReads = s.clockReads := by
  unfold hostWrite; induction ws generalizing s <;> simp_all

/-! ### timerTick: every field but `CMD` and what waits behind it -/

@[simp] theorem timerTick_build : (s.timerTick).build = s.build := by
  simp [timerTick]
@[simp] theorem timerTick_strips : (s.timerTick).strips = s.strips := by
  simp [timerTick]
@[simp] theorem timerTick_npix : (s.timerTick).npix = s.npix := by
  simp [timerTick]
@[simp] theorem timerTick_pixbuf : (s.timerTick).pixbuf = s.pixbuf := by
  simp [timerTick]
@[simp] theorem timerTick_areas : (s.timerTick).areas = s.areas := by
  simp [timerTick]
@[simp] theorem timerTick_tick : (s.timerTick).tick = s.tick := by
  simp [timerTick]
@[simp] theorem timerTick_ctrl : (s.timerTick).ctrl = s.ctrl := by
  simp [timerTick]
@[simp] theorem timerTick_status : (s.timerTick).status = s.status := by
  simp [timerTick]
@[simp] theorem timerTick_irqDisable : (s.timerTick).irqDisable = s.irqDisable := by
  simp [timerTick]
@[simp] theorem timerTick_now : (s.timerTick).now = s.now := by
  simp [timerTick]
@[simp] theorem timerTick_rsp : (s.timerTick).rsp = s.rsp := by
  simp [timerTick]
@[simp] theorem timerTick_wire : (s.timerTick).wire = s.wire := by
  simp [timerTick]
@[simp] theorem timerTick_clockReads : (s.timerTick).clockReads = s.clockReads := by
  simp [timerTick]

/-! ### passTime -/

@[simp] theorem passTime_strips (us : Nat) : (s.passTime us).strips = s.strips := rfl
@[simp] theorem passTime_npix (us : Nat) : (s.passTime us).npix = s.npix := rfl
@[simp] theorem passTime_pixbuf (us : Nat) : (s.passTime us).pixbuf = s.pixbuf := rfl
@[simp] theorem passTime_areas (us : Nat) : (s.passTime us).areas = s.areas := rfl
@[simp] theorem passTime_tick (us : Nat) : (s.passTime us).tick = s.tick := rfl
@[simp] theorem passTime_build (us : Nat) : (s.passTime us).build = s.build := rfl
@[simp] theorem passTime_waitingTicks (us : Nat) : (s.passTime us).waitingTicks = s.waitingTicks := rfl
@[simp] theorem passTime_ctrl (us : Nat) : (s.passTime us).ctrl = s.ctrl := rfl
@[simp] theorem passTime_status (us : Nat) : (s.passTime us).status = s.status := rfl
@[simp] theorem passTime_irqDisable (us : Nat) : (s.passTime us).irqDisable = s.irqDisable := rfl
@[simp] theorem passTime_now (us : Nat) : (s.passTime us).now = s.now + us := rfl
@[simp] theorem passTime_rsp (us : Nat) : (s.passTime us).rsp = s.rsp := rfl
@[simp] theorem passTime_cmd (us : Nat) : (s.passTime us).cmd = s.cmd := rfl
@[simp] theorem passTime_wire (us : Nat) : (s.passTime us).wire = s.wire := rfl
@[simp] theorem passTime_clockReads (us : Nat) : (s.passTime us).clockReads = s.clockReads := rfl

/-! ### resetEvent -/

@[simp] theorem resetEvent_strips : (s.resetEvent).strips = [] := rfl
@[simp] theorem resetEvent_npix : (s.resetEvent).npix = 0#16 := rfl
@[simp] theorem resetEvent_pixbuf : (s.resetEvent).pixbuf = [] := rfl
@[simp] theorem resetEvent_areas : (s.resetEvent).areas = List.replicate s.build.maxAreas Area.reset := rfl
@[simp] theorem resetEvent_tick : (s.resetEvent).tick = 0 := rfl
@[simp] theorem resetEvent_build : (s.resetEvent).build = s.build := rfl
@[simp] theorem resetEvent_waitingTicks : (s.resetEvent).waitingTicks = 0 := rfl
@[simp] theorem resetEvent_ctrl : (s.resetEvent).ctrl = 0#32 := rfl
@[simp] theorem resetEvent_status : (s.resetEvent).status = 0#32 := rfl
@[simp] theorem resetEvent_irqDisable : (s.resetEvent).irqDisable = false := rfl
@[simp] theorem resetEvent_now : (s.resetEvent).now = 0 := rfl
@[simp] theorem resetEvent_rsp : (s.resetEvent).rsp = [] := rfl
@[simp] theorem resetEvent_cmd : (s.resetEvent).cmd = [] := rfl
@[simp] theorem resetEvent_wire : (s.resetEvent).wire = s.wire := rfl
@[simp] theorem resetEvent_clockReads : (s.resetEvent).clockReads = s.clockReads := rfl

/-! ### setPixel and setPixels: every field but the pixel buffer and `STATUS` -/

@[simp] theorem setPixel_strips (i : Index) (p : Pixel) : (s.setPixel i p).strips = s.strips := by
  unfold setPixel; split <;> rfl
@[simp] theorem setPixel_npix (i : Index) (p : Pixel) : (s.setPixel i p).npix = s.npix := by
  unfold setPixel; split <;> rfl
@[simp] theorem setPixel_areas (i : Index) (p : Pixel) : (s.setPixel i p).areas = s.areas := by
  unfold setPixel; split <;> rfl
@[simp] theorem setPixel_tick (i : Index) (p : Pixel) : (s.setPixel i p).tick = s.tick := by
  unfold setPixel; split <;> rfl
@[simp] theorem setPixel_build (i : Index) (p : Pixel) : (s.setPixel i p).build = s.build := by
  unfold setPixel; split <;> rfl
@[simp] theorem setPixel_waitingTicks (i : Index) (p : Pixel) : (s.setPixel i p).waitingTicks = s.waitingTicks := by
  unfold setPixel; split <;> rfl
@[simp] theorem setPixel_ctrl (i : Index) (p : Pixel) : (s.setPixel i p).ctrl = s.ctrl := by
  unfold setPixel; split <;> rfl
@[simp] theorem setPixel_irqDisable (i : Index) (p : Pixel) : (s.setPixel i p).irqDisable = s.irqDisable := by
  unfold setPixel; split <;> rfl
@[simp] theorem setPixel_now (i : Index) (p : Pixel) : (s.setPixel i p).now = s.now := by
  unfold setPixel; split <;> rfl
@[simp] theorem setPixel_rsp (i : Index) (p : Pixel) : (s.setPixel i p).rsp = s.rsp := by
  unfold setPixel; split <;> rfl
@[simp] theorem setPixel_cmd (i : Index) (p : Pixel) : (s.setPixel i p).cmd = s.cmd := by
  unfold setPixel; split <;> rfl
@[simp] theorem setPixel_wire (i : Index) (p : Pixel) : (s.setPixel i p).wire = s.wire := by
  unfold setPixel; split <;> rfl
@[simp] theorem setPixel_clockReads (i : Index) (p : Pixel) : (s.setPixel i p).clockReads = s.clockReads := by
  unfold setPixel; split <;> rfl

@[simp] theorem setPixels_strips (ws : List (Index × Pixel)) : (s.setPixels ws).strips = s.strips := by
  unfold setPixels; induction ws generalizing s <;> simp_all
@[simp] theorem setPixels_npix (ws : List (Index × Pixel)) : (s.setPixels ws).npix = s.npix := by
  unfold setPixels; induction ws generalizing s <;> simp_all
@[simp] theorem setPixels_areas (ws : List (Index × Pixel)) : (s.setPixels ws).areas = s.areas := by
  unfold setPixels; induction ws generalizing s <;> simp_all
@[simp] theorem setPixels_tick (ws : List (Index × Pixel)) : (s.setPixels ws).tick = s.tick := by
  unfold setPixels; induction ws generalizing s <;> simp_all
@[simp] theorem setPixels_build (ws : List (Index × Pixel)) : (s.setPixels ws).build = s.build := by
  unfold setPixels; induction ws generalizing s <;> simp_all
@[simp] theorem setPixels_waitingTicks (ws : List (Index × Pixel)) : (s.setPixels ws).waitingTicks = s.waitingTicks := by
  unfold setPixels; induction ws generalizing s <;> simp_all
@[simp] theorem setPixels_ctrl (ws : List (Index × Pixel)) : (s.setPixels ws).ctrl = s.ctrl := by
  unfold setPixels; induction ws generalizing s <;> simp_all
@[simp] theorem setPixels_irqDisable (ws : List (Index × Pixel)) : (s.setPixels ws).irqDisable = s.irqDisable := by
  unfold setPixels; induction ws generalizing s <;> simp_all
@[simp] theorem setPixels_now (ws : List (Index × Pixel)) : (s.setPixels ws).now = s.now := by
  unfold setPixels; induction ws generalizing s <;> simp_all
@[simp] theorem setPixels_rsp (ws : List (Index × Pixel)) : (s.setPixels ws).rsp = s.rsp := by
  unfold setPixels; induction ws generalizing s <;> simp_all
@[simp] theorem setPixels_cmd (ws : List (Index × Pixel)) : (s.setPixels ws).cmd = s.cmd := by
  unfold setPixels; induction ws generalizing s <;> simp_all
@[simp] theorem setPixels_wire (ws : List (Index × Pixel)) : (s.setPixels ws).wire = s.wire := by
  unfold setPixels; induction ws generalizing s <;> simp_all
@[simp] theorem setPixels_clockReads (ws : List (Index × Pixel)) : (s.setPixels ws).clockReads = s.clockReads := by
  unfold setPixels; induction ws generalizing s <;> simp_all

@[simp] theorem setPixels_nil : s.setPixels [] = s := rfl

@[simp] theorem setPixels_cons (w : Index × Pixel) (ws : List (Index × Pixel)) :
    s.setPixels (w :: ws) = (s.setPixel w.1 w.2).setPixels ws := rfl

theorem setPixels_append (ws vs : List (Index × Pixel)) :
    s.setPixels (ws ++ vs) = (s.setPixels ws).setPixels vs := List.foldl_append

end Sys2Proof.Machine.State
end

