-- ==== Sys2Proof/Laws/Ops.lean ====
section
/-! SUPPORT. The shared operations: what each can do, said once.  The pixel buffer (read after write, canonical form), the
Area table, several pixel writes, and sequencing. -/

namespace Sys2Proof.Machine

/-! ### The pixel buffer -/

@[simp] theorem Memory.read_nil (i : Nat) : Memory.read [] i = Memory.unlisted := rfl

theorem Memory.read_cons (k : Nat) (q : Pixel) (m : Memory) (i : Nat) :
    Memory.read ((k, q) :: m) i = if k = i then q else Memory.read m i := rfl

/-- An index below every listed index reads as an unlisted one. -/
theorem Memory.read_of_lt (m : Memory) (i : Nat) (h : ∀ cell ∈ m, i < cell.1) : Memory.read m i = Memory.unlisted := by
  induction m with
  | nil => rfl
  | cons cell m ih =>
    have hne : ¬ cell.1 = i := by have := h cell (by simp); omega
    rw [show cell = (cell.1, cell.2) from rfl, Memory.read_cons, if_neg hne]
    exact ih fun c hc => h c (by simp [hc])

theorem Memory.wf_tail {cell : Nat × Pixel} {m : Memory} (h : Memory.wf (cell :: m)) : Memory.wf m :=
  ⟨(List.pairwise_cons.mp h.1).2, fun c hc => h.2 c (by simp [hc])⟩

theorem Memory.lt_of_wf_cons {cell : Nat × Pixel} {m : Memory} (h : Memory.wf (cell :: m)) :
    ∀ c ∈ m, cell.1 < c.1 := (List.pairwise_cons.mp h.1).1

/-- Every index a write lists is the written one or was listed before. -/
theorem Memory.mem_write {m : Memory} {i : Nat} {p : Pixel} {c : Nat × Pixel} (h : c ∈ Memory.write m i p) :
    c.1 = i ∨ c ∈ m := by
  induction m with
  | nil => unfold Memory.write at h; split at h <;> simp_all
  | cons cell m ih =>
    obtain ⟨k, q⟩ := cell
    unfold Memory.write at h
    split at h
    · split at h
      · exact .inr h
      · rcases List.mem_cons.mp h with rfl | h
        · exact .inl rfl
        · exact .inr h
    · split at h
      · split at h
        · exact .inr (by simp [h])
        · rcases List.mem_cons.mp h with rfl | h
          · exact .inl rfl
          · exact .inr (by simp [h])
      · rcases List.mem_cons.mp h with rfl | h
        · exact .inr (by simp)
        · rcases ih h with h | h
          · exact .inl h
          · exact .inr (by simp [h])

/-- A write keeps the canonical form. -/
theorem Memory.write_wf {m : Memory} (h : m.wf) (i : Nat) (p : Pixel) : (m.write i p).wf := by
  induction m with
  | nil =>
    unfold Memory.write
    split
    · exact ⟨List.Pairwise.nil, by simp⟩
    · exact ⟨by simp, by simpa⟩
  | cons cell m ih =>
    obtain ⟨k, q⟩ := cell
    have hlt := Memory.lt_of_wf_cons h
    have htl := Memory.wf_tail h
    unfold Memory.write
    split
    · rename_i hik
      split
      · exact h
      · rename_i hp
        refine ⟨List.pairwise_cons.mpr ⟨?_, h.1⟩, ?_⟩
        · intro c hc
          rcases List.mem_cons.mp hc with rfl | hc
          · exact hik
          · exact Nat.lt_trans hik (hlt c hc)
        · intro c hc
          rcases List.mem_cons.mp hc with rfl | hc
          · exact hp
          · exact h.2 c hc
    · split
      · rename_i hik
        subst hik
        split
        · exact htl
        · rename_i hp
          refine ⟨List.pairwise_cons.mpr ⟨hlt, htl.1⟩, ?_⟩
          intro c hc
          rcases List.mem_cons.mp hc with rfl | hc
          · exact hp
          · exact htl.2 c hc
      · rename_i hik hne
        refine ⟨List.pairwise_cons.mpr ⟨?_, (ih htl).1⟩, ?_⟩
        · intro c hc
          rcases Memory.mem_write hc with he | hc
          · show k < c.1
            omega
          · exact hlt c hc
        · intro c hc
          rcases List.mem_cons.mp hc with rfl | hc
          · exact h.2 _ (by simp)
          · exact (ih htl).2 c hc

/-- Read after write: the written index reads as the written word, every other index as before. -/
theorem Memory.read_write {m : Memory} (h : m.wf) (i : Nat) (p : Pixel) (j : Nat) :
    (m.write i p).read j = if i = j then p else m.read j := by
  induction m with
  | nil =>
    unfold Memory.write
    split
    · rename_i hp; split <;> simp_all
    · simp [Memory.read_cons]
  | cons cell m ih =>
    obtain ⟨k, q⟩ := cell
    have hlt := Memory.lt_of_wf_cons h
    have ih := ih (Memory.wf_tail h)
    unfold Memory.write
    split
    · rename_i hik
      have hr : Memory.read ((k, q) :: m) i = Memory.unlisted := by
        refine Memory.read_of_lt _ _ ?_
        intro c hc
        rcases List.mem_cons.mp hc with rfl | hc
        · exact hik
        · exact Nat.lt_trans hik (hlt c hc)
      split
      · rename_i hp
        split
        · rename_i hij; rw [← hij, hr, hp]
        · rfl
      · rw [Memory.read_cons]
    · split
      · rename_i hik
        subst hik
        have hr : Memory.read m i = Memory.unlisted := Memory.read_of_lt _ _ hlt
        split
        · rename_i hp
          rw [Memory.read_cons]
          by_cases hij : i = j
          · subst hij; simp [hr, hp]
          · simp [hij]
        · rw [Memory.read_cons, Memory.read_cons]
          split <;> rfl
      · rename_i hik hne
        rw [Memory.read_cons, Memory.read_cons, ih]
        by_cases hkj : k = j
        · subst hkj; simp [hne]
        · simp [hkj]

/-! ### setPixel -/

theorem State.setPixel_of_lt {s : State} {i : Index} (h : i.toNat < s.npix.toNat) (p : Pixel) :
    s.setPixel i p = { s with pixbuf := s.pixbuf.write i.toNat p } := by
  simp [State.setPixel, h]

theorem State.setPixel_of_ge {s : State} {i : Index} (h : s.npix.toNat ≤ i.toNat) (p : Pixel) :
    s.setPixel i p = s.flag .badIndex := by
  simp [State.setPixel, Nat.not_lt.mpr h]

theorem State.setPixel_wf {s : State} (h : s.pixbuf.wf) (i : Index) (p : Pixel) : (s.setPixel i p).pixbuf.wf := by
  unfold State.setPixel
  split
  · exact Memory.write_wf h _ _
  · exact h

theorem State.setPixels_wf {s : State} (h : s.pixbuf.wf) (ws : List (Index × Pixel)) : (s.setPixels ws).pixbuf.wf := by
  induction ws generalizing s with
  | nil => exact h
  | cons w ws ih => exact ih (State.setPixel_wf h w.1 w.2)

theorem State.setPixel_inside {s : State} (h : ∀ c ∈ s.pixbuf, c.1 < s.npix.toNat) (i : Index) (p : Pixel) :
    ∀ c ∈ (s.setPixel i p).pixbuf, c.1 < s.npix.toNat := by
  intro c hc
  unfold State.setPixel at hc
  split at hc
  · rename_i hi
    rcases Memory.mem_write hc with he | hc
    · omega
    · exact h c hc
  · exact h c hc

theorem State.setPixels_inside {s : State} (h : ∀ c ∈ s.pixbuf, c.1 < s.npix.toNat) (ws : List (Index × Pixel)) :
    ∀ c ∈ (s.setPixels ws).pixbuf, c.1 < s.npix.toNat := by
  induction ws generalizing s with
  | nil => exact h
  | cons w ws ih =>
    have := @ih (s.setPixel w.1 w.2) (by simpa using State.setPixel_inside h w.1 w.2)
    simpa using this

/-- One pixel write seen through one read: the written pixel if it exists, every other pixel as before. -/
theorem State.pixel?_setPixel {s : State} (h : s.pixbuf.wf) (i : Index) (p : Pixel) (j : Nat) :
    (s.setPixel i p).pixel? j = if i.toNat = j ∧ j < s.npix.toNat then some p else s.pixel? j := by
  unfold State.pixel?
  simp only [State.setPixel_npix]
  by_cases hj : j < s.npix.toNat
  · simp only [hj, if_true, and_true]
    unfold State.setPixel
    split
    · simp only [Memory.read_write h]
      split <;> rfl
    · rename_i hi
      have : ¬ i.toNat = j := by omega
      simp [this]
  · simp [hj]

/-- Several pixel writes seen through one read: "the last write wins" (R308). -/
theorem State.pixel?_setPixels {s : State} (h : s.pixbuf.wf) (ws : List (Index × Pixel)) (j : Nat) :
    (s.setPixels ws).pixel? j = if j < s.npix.toNat then some ((lastWrite ws j).getD (s.pixbuf.read j)) else none := by
  induction ws using List.reverseRecOn with
  | nil => rfl
  | append_singleton ws w ih =>
    rw [State.setPixels_append, State.setPixels_cons, State.setPixels_nil,
      State.pixel?_setPixel (State.setPixels_wf h ws), ih]
    by_cases hj : j < s.npix.toNat
    · by_cases hw : w.1.toNat = j
      · simp [hj, hw, lastWrite]
      · simp [hj, hw, lastWrite]
    · simp [hj]

/-- The flags after several pixel writes: `BAD_INDEX` joins them exactly when some index is at or above `NPIX` (R161). -/
theorem State.setPixels_status (s : State) (ws : List (Index × Pixel)) :
    (s.setPixels ws).status =
      if ∃ w ∈ ws, s.npix.toNat ≤ w.1.toNat then s.status ||| StatusBit.badIndex.mask else s.status := by
  induction ws generalizing s with
  | nil => simp
  | cons w ws ih =>
    rw [State.setPixels_cons, ih]
    by_cases hw : s.npix.toNat ≤ w.1.toNat
    · rw [State.setPixel_of_ge hw]
      simp [hw, BitVec.or_assoc]
    · rw [State.setPixel_of_lt (Nat.lt_of_not_le hw)]
      simp [hw]

/-- `CONFIGURED` is bit 0 of `STATUS` (R46). -/
theorem State.flagged_configured (s : State) : s.flagged .configured = s.status.getLsbD 0 := by
  have h : s.status &&& 1#32 = if s.status.getLsbD 0 then 1#32 else 0#32 := BitVec.and_one_eq_setWidth_ofBool_getLsbD.trans
      (by
    cases s.status.getLsbD 0 <;> rfl)
  unfold State.flagged StatusBit.mask
  simp only
  rw [h]
  cases s.status.getLsbD 0 <;> rfl

/-! ### The Area table -/

theorem State.area?_eq_none {s : State} {a : Nat} : s.area? a = none ↔ s.areas.length ≤ a := by
  simp [State.area?]

theorem State.area?_lt {s : State} {a : Nat} {r : Area} (h : s.area? a = some r) : a < s.areas.length :=
  List.getElem?_eq_some_iff.mp h |>.1

/-- Every id below the length of the table has an entry. -/
theorem State.area?_of_lt {s : State} {a : Nat} (h : a < s.areas.length) : ∃ r, s.area? a = some r :=
  ⟨_, List.getElem?_eq_getElem h⟩

/-- An update of one Area keeps the size of the table. -/
@[simp] theorem State.setArea_length (s : State) (a : Nat) (r : Area) : (s.setArea a r).areas.length = s.areas.length :=
  List.length_set

theorem State.area?_setArea (s : State) (a : Nat) (r : Area) (b : Nat) :
    (s.setArea a r).area? b = if a = b then (if b < s.areas.length then some r else none) else s.area? b := by
  unfold State.area? State.setArea
  rw [List.getElem?_set]
  split
  · rename_i h; subst h; rfl
  · rfl

theorem State.area?_setArea_self {s : State} {a : Nat} {r0 : Area} (h : s.area? a = some r0) (r : Area) :
    (s.setArea a r).area? a = some r := by
  simp [State.area?_setArea, State.area?_lt h]

theorem State.area?_setArea_ne {s : State} {a b : Nat} (h : a ≠ b) (r : Area) :
    (s.setArea a r).area? b = s.area? b := by
  simp [State.area?_setArea, h]

/-- An update of the Areas that keeps the table keeps every entry. -/
theorem State.area?_congr {s t : State} (h : t.areas = s.areas) (a : Nat) : t.area? a = s.area? a := by
  simp [State.area?, h]

theorem State.definedArea?_eq_some {s : State} {a : AreaId} {r : Area} :
    s.definedArea? a = some r ↔ s.area? a.toNat = some r ∧ r.defined = true := by
  unfold State.definedArea?
  constructor
  · intro h
    split at h
    · cases h
    · rename_i r' hr
      split at h
      · simp_all
      · cases h
  · rintro ⟨h1, h2⟩
    simp [h1, h2]

/-! ### Sequencing -/

/-- A sequence answers a next state only through a next state of its first part. -/
theorem andThen_eq_next {o : Host.Outcome State Fault Refusal} {f : State → Host.Outcome State Fault Refusal} {t : State} :
    andThen o f = .next t ↔ ∃ u, o = .next u ∧ f u = .next t := by
  cases o <;> simp [andThen]

/-! ### What writes elsewhere leave -/

/-- Read after write elsewhere, without the canonical form. -/
theorem Memory.read_write_ne (m : Memory) (i : Nat) (p : Pixel) (j : Nat) (h : j ≠ i) : (m.write i p).read j = m.read j := by
  induction m with
  | nil => unfold Memory.write; split <;> simp [Memory.read, Ne.symm h]
  | cons c m ih =>
    obtain ⟨k, q⟩ := c
    unfold Memory.write
    split
    · split
      · rfl
      · simp [Memory.read, Ne.symm h]
    · split
      · rename_i e
        subst e
        split <;> simp [Memory.read, Ne.symm h]
      · simp [Memory.read, ih]

/-- Several writes leave every pixel they do not name. -/
theorem State.pixel?_setPixels_ne (ws : List (Index × Pixel)) (s : State) (j : Nat) (h : ∀ w ∈ ws, w.1.toNat ≠ j) :
    (s.setPixels ws).pixel? j = s.pixel? j := by
  induction ws generalizing s with
  | nil => rfl
  | cons w ws ih =>
    rw [State.setPixels_cons, ih _ (fun w' hw' => h w' (List.mem_cons_of_mem _ hw'))]
    have := h w (List.mem_cons_self ..)
    unfold State.setPixel
    split
    · simp only [State.pixel?]; rw [Memory.read_write_ne _ _ _ _ (Ne.symm this)]
    · rfl

end Sys2Proof.Machine
end

