-- ==== Sys2Proof/Laws/Colour.lean ====
section
/-! SUPPORT. The colour engine: ranges of normalised fields, the lookup tables and their interpolation, the search of the
reference strategy, what its two integer tests say about the real power laws, and `mix`. -/

namespace Sys2Proof.Machine

/-! ### Normalisation -/

theorem clampSv_le (x : BitVec 16) : clampSv x ≤ Config.svOne := by
  unfold clampSv; simp only [Config.svOne]; omega

theorem wrapHue_lt (h : BitVec 16) : wrapHue h < Config.hueMod := Nat.mod_lt _ (by decide)

theorem field16_toNat {n : Nat} (h : n < 65536) : (BitVec.ofNat 16 n).toNat = n := by
  simp [BitVec.toNat_ofNat, Nat.mod_eq_of_lt h]

/-- A saturation or value in range is read as itself. -/
theorem clampSv_ofNat {n : Nat} (h : n ≤ Config.svOne) : clampSv (BitVec.ofNat 16 n) = n := by
  unfold clampSv
  simp only [Config.svOne] at *
  have h2 : (BitVec.ofNat 16 n).toNat = n := field16_toNat (by omega)
  rw [BitVec.toInt_eq_toNat_of_lt (by omega), h2]
  omega

/-- A hue in range is read as itself. -/
theorem wrapHue_ofNat {n : Nat} (h : n < Config.hueMod) : wrapHue (BitVec.ofNat 16 n) = n := by
  unfold wrapHue
  simp only [Config.hueMod] at *
  rw [field16_toNat (by omega), Nat.mod_eq_of_lt h]

/-! ### The search -/

/-- `greatest` finds the greatest number below the bound that passes, when positive numbers that fail stay failed: everything from the
start up to the result passes, and everything above it below the bound fails. -/
theorem greatest_spec {test : Nat → Bool} (mono : ∀ i j, 0 < i → i ≤ j → test j = true → test i = true) (bits k : Nat) :
    k ≤ greatest test bits k ∧ greatest test bits k < k + 2 ^ bits ∧
      (∀ i, k < i → i ≤ greatest test bits k → test i = true) ∧
      (∀ i, greatest test bits k < i → i < k + 2 ^ bits → test i = false) := by
  induction bits generalizing k with
  | zero => simp only [greatest]; exact ⟨Nat.le_refl _, by simp, fun i h1 h2 => by omega, fun i h1 h2 => by simp at h2; omega⟩
  | succ bits ih =>
    have hp : 2 ^ (bits + 1) = 2 ^ bits + 2 ^ bits := by rw [Nat.pow_succ]; omega
    simp only [greatest]
    by_cases ht : test (k + 2 ^ bits) = true
    · rw [if_pos ht]
      obtain ⟨h1, h2, h3, h4⟩ := ih (k + 2 ^ bits)
      refine ⟨by omega, by omega, ?_, fun i hi hb => h4 i hi (by omega)⟩
      intro i hk hi
      rcases Nat.lt_or_ge (k + 2 ^ bits) i with h | h
      · exact h3 i h hi
      · exact mono i _ (by omega) h ht
    · rw [if_neg ht]
      obtain ⟨h1, h2, h3, h4⟩ := ih k
      refine ⟨h1, by omega, h3, ?_⟩
      intro i hi hb
      rcases Nat.lt_or_ge i (k + 2 ^ bits) with h | h
      · exact h4 i hi h
      · by_contra hc
        exact ht (mono _ _ (by omega) h (by simpa using hc))

/-! ### Power laws with a rational exponent -/

/-- `x^p` is the q-th power of `x^(p/q)`. -/
theorem rpow_ratio_pow {x : ℝ} (hx : 0 ≤ x) (p : Nat) {q : Nat} (hq : 0 < q) : (x ^ ((p : ℝ) / q)) ^ q = x ^ p := by
  rw [← Real.rpow_natCast, ← Real.rpow_mul hx, div_mul_cancel₀ _ (by exact_mod_cast hq.ne'), Real.rpow_natCast]

/-- `S` is the cube of `S^(1/3)`. -/
theorem rpow_third_pow {x : ℝ} (hx : 0 ≤ x) : (x ^ ((1 : ℝ) / 3)) ^ 3 = x := by
  have := rpow_ratio_pow hx 1 (q := 3) (by decide)
  simpa using this

/-! ### Tables -/

/-- The integer test of a table entry is the comparison `k ≤ 65536·(i/200)^g + 1/2` of R127 over the real numbers. -/
theorem sampleAtLeast_iff {g : Gamma} (hq : 0 < g.den) (i k : Nat) (hk : 0 < k) :
    sampleAtLeast g i k = true ↔ (k : ℝ) ≤ 65536 * ((i : ℝ) / 200) ^ ((g.num : ℝ) / g.den) + 1 / 2 := by
  have hX : (0 : ℝ) ≤ (i : ℝ) / 200 := by positivity
  have hpow := rpow_ratio_pow hX g.num hq
  set X : ℝ := ((i : ℝ) / 200) ^ ((g.num : ℝ) / g.den)
  have hX0 : 0 ≤ X := Real.rpow_nonneg hX _
  have hk1 : (1 : ℝ) ≤ k := by exact_mod_cast hk
  have h1 : (k : ℝ) ≤ 65536 * X + 1 / 2 ↔ 2 * (k : ℝ) - 1 ≤ 2 * 65536 * X := by constructor <;> intro h <;> linarith
  rw [h1, ← pow_le_pow_iff_left₀ (n := g.den) (by linarith) (by positivity) hq.ne', mul_pow, mul_pow, hpow, div_pow,
    ← mul_div_assoc, le_div_iff₀ (by positivity)]
  unfold sampleAtLeast
  rw [decide_eq_true_iff, ← Nat.cast_le (α := ℝ)]
  push_cast [Nat.cast_sub (show 1 ≤ 2 * k by omega)]
  rfl

theorem sampleAtLeast_mono {g : Gamma} {i j k l : Nat} (hij : i ≤ j) (hkl : k ≤ l) (h : sampleAtLeast g i l = true) :
    sampleAtLeast g j k = true := by
  simp only [sampleAtLeast, decide_eq_true_eq] at *
  calc (2 * k - 1) ^ g.den * 200 ^ g.num ≤ (2 * l - 1) ^ g.den * 200 ^ g.num := by gcongr
    _ ≤ 2 ^ g.den * 65536 ^ g.den * i ^ g.num := h
    _ ≤ 2 ^ g.den * 65536 ^ g.den * j ^ g.num := by gcongr

/-- At a sample point no number above 65536 passes. -/
theorem sampleAtLeast_le {g : Gamma} (hq : 0 < g.den) {i k : Nat} (hi : i ≤ 200) (h : sampleAtLeast g i k = true) :
    k ≤ 65536 := by
  have h := sampleAtLeast_mono hi (Nat.le_refl k) h
  simp only [sampleAtLeast, decide_eq_true_eq, ← mul_pow] at h
  have h2 := Nat.le_of_mul_le_mul_right h (by positivity)
  have := (Nat.pow_le_pow_iff_left hq.ne').mp h2
  omega

/-- A table entry is the greatest number that passes (R127). -/
theorem le_powerSample {g : Gamma} (hq : 0 < g.den) {i : Nat} (hi : i ≤ 200) {k : Nat} (hk : 0 < k) :
    k ≤ powerSample g i ↔ sampleAtLeast g i k = true := by
  obtain ⟨-, h2, h3, h4⟩ := greatest_spec (test := sampleAtLeast g i)
    (fun _ _ _ hij h => sampleAtLeast_mono (Nat.le_refl i) hij h) 17 0
  refine ⟨h3 k hk, fun h => ?_⟩
  by_contra hc
  have hb := sampleAtLeast_le hq hi h
  rw [h4 k (by unfold powerSample at hc; omega) (by omega)] at h
  cases h

theorem powerSample_le {g : Gamma} (hq : 0 < g.den) {i : Nat} (hi : i ≤ 200) : powerSample g i ≤ Config.qOne := by
  rcases Nat.eq_zero_or_pos (powerSample g i) with h | h
  · omega
  · exact sampleAtLeast_le hq hi ((le_powerSample hq hi h).mp (Nat.le_refl _))

/-- A table never goes down. -/
theorem powerSample_step {g : Gamma} (hq : 0 < g.den) (i : Nat) (hi : i < 200) : powerSample g i ≤ powerSample g (i + 1) := by
  rcases Nat.eq_zero_or_pos (powerSample g i) with h | h
  · omega
  · exact (le_powerSample hq (by omega) h).mpr
      (sampleAtLeast_mono (Nat.le_succ i) (Nat.le_refl _) ((le_powerSample hq (by omega) h).mp (Nat.le_refl _)))

theorem powerSample_zero {g : Gamma} (hp : 0 < g.num) (hq : 0 < g.den) : powerSample g 0 = 0 := by
  by_contra hc
  have h := (le_powerSample hq (Nat.zero_le 200) (Nat.pos_of_ne_zero hc)).mp (Nat.le_refl _)
  simp only [sampleAtLeast, decide_eq_true_eq, Nat.zero_pow hp, Nat.mul_zero] at h
  have : 0 < (2 * powerSample g 0 - 1) ^ g.den * 200 ^ g.num :=
    Nat.mul_pos (Nat.pow_pos (by omega)) (Nat.pow_pos (by omega))
  omega

theorem powerSample_top {g : Gamma} (hq : 0 < g.den) : powerSample g 200 = Config.qOne := by
  refine Nat.le_antisymm (powerSample_le hq (Nat.le_refl _)) ((le_powerSample hq (Nat.le_refl _) (by decide)).mpr ?_)
  simp only [sampleAtLeast, decide_eq_true_eq, ← mul_pow, Config.qOne]
  gcongr
  decide

/-- A table that goes up by steps goes up over any distance. -/
theorem table_mono {table : Nat → Nat} (h : ∀ i, i < 200 → table i ≤ table (i + 1)) {i j : Nat} (hij : i ≤ j)
    (hj : j ≤ 200) : table i ≤ table j := by
  induction j, hij using Nat.le_induction with
  | base => exact Nat.le_refl _
  | succ j hij ih => exact Nat.le_trans (ih (by omega)) (h j (by omega))

/-- An interpolated value lies between the two neighbouring samples (R130). -/
theorem lutInterp_between {table : Nat → Nat} (h : ∀ i, i < 200 → table i ≤ table (i + 1)) {x : Nat}
    (hx : x / 128 < 200) : table (x / 128) ≤ lutInterp table x ∧ lutInterp table x ≤ table (x / 128 + 1) := by
  have h1 := h _ hx
  unfold lutInterp
  simp only [Nat.not_le.mpr hx, if_false]
  refine ⟨Nat.le_add_right _ _, ?_⟩
  have hf : x % 128 ≤ 127 := by omega
  have hm : (table (x / 128 + 1) - table (x / 128)) * (x % 128) ≤
      (table (x / 128 + 1) - table (x / 128)) * 127 := Nat.mul_le_mul_left _ hf
  omega

theorem lutInterp_top {table : Nat → Nat} {x : Nat} (hx : 200 ≤ x / 128) : lutInterp table x = table 200 := by
  simp [lutInterp, hx]

/-- An interpolated power law stays within 1.0 (R130). -/
theorem lutInterp_le {g : Gamma} (hq : 0 < g.den) (x : Nat) : lutInterp (powerSample g) x ≤ Config.qOne := by
  rcases Nat.lt_or_ge (x / 128) 200 with h | h
  · exact Nat.le_trans (lutInterp_between (powerSample_step hq) h).2 (powerSample_le hq (by omega))
  · rw [lutInterp_top h]; exact powerSample_le hq (Nat.le_refl _)

theorem hueWeight_le (c : Channel) (h : Nat) : hueWeight c h ≤ Config.lobe := Nat.sub_le _ _

/-! ### The integer tests of the reference strategy against the real power laws -/

/-- The integer test of a colour channel is the comparison `k ≤ X + 1/2` of R124 with the real X of R123. -/
theorem refColorAtLeast_iff {g : Gamma} (hq : 0 < g.den) (w s v k : Nat) (hk : 0 < k) :
    refColorAtLeast g w s v k = true ↔
      (k : ℝ) ≤ ((v : ℝ) / 25600) ^ ((g.num : ℝ) / g.den) * ((s : ℝ) / 25600) ^ ((1 : ℝ) / 3) * 255 * ((w : ℝ) / 15360) +
        1 / 2 := by
  have hV : (0 : ℝ) ≤ (v : ℝ) / 25600 := by positivity
  have hS : (0 : ℝ) ≤ (s : ℝ) / 25600 := by positivity
  have hBq := rpow_ratio_pow hV g.num hq
  have hA3 := rpow_third_pow hS
  set B : ℝ := ((v : ℝ) / 25600) ^ ((g.num : ℝ) / g.den)
  set A : ℝ := ((s : ℝ) / 25600) ^ ((1 : ℝ) / 3)
  have hB0 : 0 ≤ B := Real.rpow_nonneg hV _
  have hA0 : 0 ≤ A := Real.rpow_nonneg hS _
  have hk1 : (1 : ℝ) ≤ k := by exact_mod_cast hk
  have h1 : ((k : ℝ) ≤ B * A * 255 * ((w : ℝ) / 15360) + 1 / 2) ↔ (2 * (k : ℝ) - 1) * 15360 ≤ 510 * w * (B * A) := by
    constructor <;> intro h <;> nlinarith
  have h2 : (510 * (w : ℝ) * (B * A)) ^ (3 * g.den) =
      (510 * w) ^ (3 * g.den) * v ^ (3 * g.num) * s ^ g.den / 25600 ^ (3 * g.num + g.den) := by
    have hb : B ^ (3 * g.den) = ((v : ℝ) / 25600) ^ (3 * g.num) := by
      rw [mul_comm, pow_mul, hBq, ← pow_mul, mul_comm]
    have ha : A ^ (3 * g.den) = ((s : ℝ) / 25600) ^ g.den := by rw [pow_mul, hA3]
    rw [mul_pow, mul_pow B A, hb, ha, div_pow, div_pow, pow_add]
    field_simp
  rw [h1, ← pow_le_pow_iff_left₀ (n := 3 * g.den) (by nlinarith) (by positivity) (by omega), h2,
    le_div_iff₀ (by positivity), mul_pow]
  unfold refColorAtLeast
  rw [decide_eq_true_iff, ← Nat.cast_le (α := ℝ)]
  simp only [Config.lobe, Config.svOne]
  push_cast [Nat.cast_sub (show 1 ≤ 2 * k by omega)]
  rfl

/-- The real number a `Cubic` stands for. -/
noncomputable def Cubic.value (s : Nat) (x : Cubic) : ℝ :=
  x.c0 + x.c1 * ((s : ℝ) / 25600) ^ ((1 : ℝ) / 3) + x.c2 * (((s : ℝ) / 25600) ^ ((1 : ℝ) / 3)) ^ 2

theorem Cubic.value_timesOneLessRoot (s : Nat) (x : Cubic) :
    (x.timesOneLessRoot s).value s = 25600 * (1 - ((s : ℝ) / 25600) ^ ((1 : ℝ) / 3)) * x.value s := by
  have hA3 := rpow_third_pow (x := (s : ℝ) / 25600) (by positivity)
  unfold Cubic.value Cubic.timesOneLessRoot
  set A : ℝ := ((s : ℝ) / 25600) ^ ((1 : ℝ) / 3)
  have hs : (s : ℝ) = 25600 * A ^ 3 := by rw [hA3]; ring
  simp only [Config.svOne]
  push_cast
  rw [hs]
  ring

theorem oneLessRootPow_value (s n : Nat) :
    (oneLessRootPow s n).value s = (25600 * (1 - ((s : ℝ) / 25600) ^ ((1 : ℝ) / 3))) ^ n := by
  induction n with
  | zero => simp [oneLessRootPow, Cubic.value]
  | succ n ih => rw [oneLessRootPow, Cubic.value_timesOneLessRoot, ih, pow_succ]; ring

/-- The sign of `x + y + z` from its norm, unless the three are equal. -/
theorem norm_sign {x y z : ℝ} (h : ¬ (x = y ∧ y = z)) : 0 ≤ x ^ 3 + y ^ 3 + z ^ 3 - 3 * x * y * z ↔ 0 ≤ x + y + z := by
  have hf : x ^ 3 + y ^ 3 + z ^ 3 - 3 * x * y * z =
      (x + y + z) * (((x - y) ^ 2 + (y - z) ^ 2 + (z - x) ^ 2) / 2) := by ring
  have hq : 0 < ((x - y) ^ 2 + (y - z) ^ 2 + (z - x) ^ 2) / 2 := by
    rcases not_and_or.mp h with h | h
    · have := pow_pos (abs_pos.mpr (sub_ne_zero.mpr h)) 2
      rw [sq_abs] at this; positivity
    · have := pow_pos (abs_pos.mpr (sub_ne_zero.mpr h)) 2
      rw [sq_abs] at this; positivity
  rw [hf]
  exact ⟨fun h => nonneg_of_mul_nonneg_left h hq, fun h => mul_nonneg h hq.le⟩

/-- The integer test of a sign is right. -/
theorem Cubic.nonneg_iff (s : Nat) (x : Cubic) : x.nonneg s = true ↔ 0 ≤ x.value s := by
  have hA3 := rpow_third_pow (x := (s : ℝ) / 25600) (by positivity)
  unfold Cubic.value Cubic.nonneg
  set A : ℝ := ((s : ℝ) / 25600) ^ ((1 : ℝ) / 3)
  have hs : (s : ℝ) = 25600 * A ^ 3 := by rw [hA3]; ring
  have cubes : ∀ a b : Int, (Config.svOne : Int) * a ^ 3 = s * b ^ 3 ↔ (a : ℝ) = b * A := by
    intro a b
    rw [← Int.cast_inj (α := ℝ), Config.svOne]
    push_cast
    rw [hs, ← (Odd.strictMono_pow (n := 3) (by decide)).injective.eq_iff (a := (a : ℝ)), mul_pow]
    constructor <;> intro h <;> linarith
  have heq : x.termsEqual s = true ↔ (x.c0 : ℝ) = x.c1 * A ∧ (x.c1 : ℝ) = x.c2 * A := by
    simp only [Cubic.termsEqual, Bool.and_eq_true, decide_eq_true_eq, cubes]
  have hnorm : ((x.norm s : Int) : ℝ) = 25600 ^ 2 *
      ((x.c0 : ℝ) ^ 3 + (x.c1 * A) ^ 3 + (x.c2 * A ^ 2) ^ 3 - 3 * x.c0 * (x.c1 * A) * (x.c2 * A ^ 2)) := by
    rw [Cubic.norm, Config.svOne]
    push_cast
    rw [hs]; ring
  split
  · rename_i h
    obtain ⟨h1, h2⟩ := heq.mp h
    have : (x.c0 : ℝ) + x.c1 * A + x.c2 * A ^ 2 = 3 * x.c0 := by rw [h1, h2]; ring
    rw [decide_eq_true_iff, this, ← Int.cast_nonneg_iff (R := ℝ)]
    constructor <;> intro h <;> linarith
  · rename_i h
    rw [decide_eq_true_iff, ← Int.cast_nonneg_iff (R := ℝ), hnorm, mul_nonneg_iff_of_pos_left (by positivity)]
    by_cases hA : A = 0
    · rw [hA]
      simp only [mul_zero, ne_eq, OfNat.ofNat_ne_zero, not_false_eq_true, zero_pow, add_zero, sub_zero]
      exact Odd.pow_nonneg_iff (by decide)
    · apply norm_sign
      rintro ⟨h1, h2⟩
      exact h (heq.mpr ⟨h1, mul_right_cancel₀ hA (by rw [h2]; ring)⟩)

/-- The integer test of the white channel is the comparison `k ≤ X + 1/2` of R124 with the real X of R123. -/
theorem refWhiteAtLeast_iff {g : Gamma} (hq : 0 < g.den) (s v k : Nat) (hk : 0 < k) (hs : s ≤ 25600) :
    refWhiteAtLeast g s v k = true ↔
      (k : ℝ) ≤ ((v : ℝ) / 25600) ^ ((g.num : ℝ) / g.den) * (1 - ((s : ℝ) / 25600) ^ ((1 : ℝ) / 3)) * 255 + 1 / 2 := by
  have hV : (0 : ℝ) ≤ (v : ℝ) / 25600 := by positivity
  have hS1 : (s : ℝ) / 25600 ≤ 1 := by rw [div_le_one (by norm_num)]; exact_mod_cast hs
  have hBq := rpow_ratio_pow hV g.num hq
  have hp := oneLessRootPow_value s g.den
  have hA1 : ((s : ℝ) / 25600) ^ ((1 : ℝ) / 3) ≤ 1 := Real.rpow_le_one (by positivity) hS1 (by norm_num)
  have hval : (refWhiteExcess g s v k).value s =
      510 ^ g.den * (v : ℝ) ^ g.num * (oneLessRootPow s g.den).value s - (2 * (k : ℝ) - 1) ^ g.den * 25600 ^ (g.num + g.den) := by
    unfold refWhiteExcess Cubic.value
    simp only [Config.svOne]
    push_cast
    ring
  rw [refWhiteAtLeast, Cubic.nonneg_iff, hval, hp]
  set B : ℝ := ((v : ℝ) / 25600) ^ ((g.num : ℝ) / g.den)
  set A : ℝ := ((s : ℝ) / 25600) ^ ((1 : ℝ) / 3)
  have hB0 : 0 ≤ B := Real.rpow_nonneg hV _
  have hk1 : (1 : ℝ) ≤ k := by exact_mod_cast hk
  have h1 : ((k : ℝ) ≤ B * (1 - A) * 255 + 1 / 2) ↔ 2 * (k : ℝ) - 1 ≤ 510 * (B * (1 - A)) := by
    constructor <;> intro h <;> linarith
  have hv : (v : ℝ) ^ g.num = B ^ g.den * 25600 ^ g.num := by rw [hBq, div_pow]; field_simp
  have h2 : 510 ^ g.den * (v : ℝ) ^ g.num * (25600 * (1 - A)) ^ g.den - (2 * (k : ℝ) - 1) ^ g.den * 25600 ^ (g.num + g.den) =
      ((510 * (B * (1 - A))) ^ g.den - (2 * (k : ℝ) - 1) ^ g.den) * 25600 ^ (g.num + g.den) := by
    rw [hv, mul_pow, mul_pow 510, mul_pow B, pow_add]; ring
  rw [h1, h2, mul_nonneg_iff_of_pos_right (by positivity), sub_nonneg,
    pow_le_pow_iff_left₀ (by linarith) (by have := sub_nonneg.mpr hA1; positivity) hq.ne']

/-! ### mix -/

/-- With `num = 0` the added term is 0 (R136). -/
theorem mixComponent_zero (a b : Int) {den : Nat} (h : 0 < den) : mixComponent a b 0 den = a := by
  unfold mixComponent
  rw [Int.fdiv_eq_ediv_of_nonneg _ (by omega)]
  have : (2 * (b - a) * (0 : Nat) + (den : Int)) / (2 * den) = 0 := Int.ediv_eq_zero_of_lt (by simp) (by simp; omega)
  omega

/-- With `num = den` it is the whole distance (R136). -/
theorem mixComponent_full (a b : Int) {den : Nat} (h : 0 < den) : mixComponent a b den den = b := by
  unfold mixComponent
  rw [Int.fdiv_eq_ediv_of_nonneg _ (by omega)]
  have e : 2 * (b - a) * (den : Int) + den = den + (2 * den) * (b - a) := by ring
  rw [e, Int.add_mul_ediv_left _ _ (by omega)]
  have : (den : Int) / (2 * den) = 0 := Int.ediv_eq_zero_of_lt (by omega) (by omega)
  omega

/-- Within half a unit of the exact line (R136), without division. -/
theorem mixComponent_bounds (a b : Int) (num : Nat) {den : Nat} (h : 0 < den) :
    2 * (b - a) * num - den < 2 * den * (mixComponent a b num den - a) ∧
      2 * den * (mixComponent a b num den - a) ≤ 2 * (b - a) * num + den := by
  unfold mixComponent
  rw [Int.fdiv_eq_ediv_of_nonneg _ (by omega)]
  have h1 := Int.mul_ediv_add_emod (2 * (b - a) * num + den) (2 * den)
  have h2 := Int.emod_nonneg (2 * (b - a) * num + den) (show (2 * (den : Int)) ≠ 0 by omega)
  have h3 := Int.emod_lt_of_pos (2 * (b - a) * num + den) (show (0 : Int) < 2 * den by omega)
  constructor <;> linarith

/-- Between the two ends (R136). -/
theorem mixComponent_between (a b : Int) {num den : Nat} (h : 0 < den) (hn : num ≤ den) :
    min a b ≤ mixComponent a b num den ∧ mixComponent a b num den ≤ max a b := by
  obtain ⟨h1, h2⟩ := mixComponent_bounds a b num h
  set m := mixComponent a b num den
  have hd : (0 : Int) < den := by exact_mod_cast h
  have hn' : (num : Int) ≤ den := by exact_mod_cast hn
  have hn0 : (0 : Int) ≤ num := by positivity
  rcases le_total a b with hab | hab
  · rw [min_eq_left hab, max_eq_right hab]
    constructor
    · have : 0 ≤ 2 * (b - a) * num := by have := sub_nonneg.mpr hab; positivity
      nlinarith
    · have : 2 * (b - a) * num ≤ 2 * (b - a) * den := by nlinarith
      nlinarith
  · rw [min_eq_right hab, max_eq_left hab]
    constructor
    · have : 2 * (b - a) * den ≤ 2 * (b - a) * num := by nlinarith
      nlinarith
    · have : 2 * (b - a) * num ≤ 0 := by nlinarith
      nlinarith

end Sys2Proof.Machine
end

