-- ==== Sys2Proof/Laws/Addressing.lean ====
section
/-! SUPPORT. Strips and Areas: what CONFIGURE installs, what `logicalToPhysical` resolves to on contiguous strips, and what
resolving a whole list of logical indices does. -/

namespace Sys2Proof.Machine

/-! ### The Strip table -/

@[simp] theorem placeStrips_length (off : Nat) (ds : List StripDesc) : (placeStrips off ds).length = ds.length := by
  induction ds generalizing off with
  | nil => rfl
  | cons d ds ih => simp [placeStrips, ih]

theorem totalLength_cons (d : StripDesc) (ds : List StripDesc) :
    totalLength (d :: ds) = d.length.toNat + totalLength ds := by simp [totalLength]

/-- The strips CONFIGURE installs are contiguous (R151). -/
theorem placeStrips_contiguous (off : Nat) (ds : List StripDesc) (h : off + totalLength ds < 65536) :
    stripsContiguous off (placeStrips off ds) (off + totalLength ds) := by
  induction ds generalizing off with
  | nil => simp [placeStrips, stripsContiguous, totalLength]
  | cons d ds ih =>
    rw [totalLength_cons] at *
    refine ⟨?_, ?_⟩
    · show (BitVec.ofNat 16 off).toNat = off
      simp [BitVec.toNat_ofNat]; omega
    · have := ih (off + d.length.toNat) (by omega)
      rwa [Nat.add_assoc] at this

/-- The k-th strip CONFIGURE installs: its descriptor, at the sum of the lengths before it (R150, R151). -/
theorem placeStrips_getElem? (off : Nat) (ds : List StripDesc) (k : Nat) :
    (placeStrips off ds)[k]? = ds[k]?.map fun d =>
      { pin := d.pin, offset := BitVec.ofNat 16 (off + totalLength (ds.take k)), length := d.length, reversed := d.reversed,
        lastShown := 0 } := by
  induction ds generalizing off k with
  | nil => simp [placeStrips]
  | cons d ds ih =>
    cases k with
    | zero => simp [placeStrips, totalLength]
    | succ k => simp [placeStrips, ih, totalLength_cons, Nat.add_assoc]

/-- On contiguous strips every strip lies between the first offset and the total. -/
theorem stripsContiguous_bounds {off total : Nat} {rs : List Strip} (h : stripsContiguous off rs total) :
    off ≤ total ∧ ∀ r ∈ rs, off ≤ r.offset.toNat ∧ r.offset.toNat + r.length.toNat ≤ total := by
  induction rs generalizing off with
  | nil => exact ⟨Nat.le_of_eq h, by simp⟩
  | cons r rs ih =>
    obtain ⟨h1, h2⟩ := h
    obtain ⟨h3, h4⟩ := ih h2
    refine ⟨by omega, ?_⟩
    intro r' hr
    rcases List.mem_cons.mp hr with rfl | hr
    · omega
    · have := h4 r' hr; omega

/-- Timestamps play no part in the geometry. -/
theorem stripsContiguous_geometry {rs rs' : List Strip} (h : stripGeometry rs = stripGeometry rs') (off total : Nat) :
    stripsContiguous off rs total ↔ stripsContiguous off rs' total := by
  induction rs generalizing off rs' with
  | nil => cases rs' with
    | nil => rfl
    | cons => simp [stripGeometry] at h
  | cons r rs ih =>
    cases rs' with
    | nil => simp [stripGeometry] at h
    | cons r' rs' =>
      simp only [stripGeometry, List.map_cons, List.cons.injEq, Strip.mk.injEq] at h
      obtain ⟨⟨_, h2, h3, _, _⟩, h6⟩ := h
      simp only [stripsContiguous, h2, h3, ih h6]

/-! ### logicalToPhysical -/

theorem Strip.resolve_bounds {r : Strip} {li : Nat} (h : r.owns li = true) :
    r.offset.toNat ≤ r.resolve li ∧ r.resolve li < r.offset.toNat + r.length.toNat := by
  simp only [Strip.owns, Bool.and_eq_true, decide_eq_true_eq] at h
  unfold Strip.resolve
  split <;> omega

theorem Strip.owns_resolve {r : Strip} {li : Nat} (h : r.owns li = true) : r.owns (r.resolve li) = true := by
  have := Strip.resolve_bounds h
  simp [Strip.owns, this]

theorem Strip.resolve_resolve {r : Strip} {li : Nat} (h : r.owns li = true) : r.resolve (r.resolve li) = li := by
  simp only [Strip.owns, Bool.and_eq_true, decide_eq_true_eq] at h
  unfold Strip.resolve
  split <;> omega

/-- On contiguous strips an index at or above the total is uncovered (R155). -/
theorem resolveIndex_none {off total : Nat} {rs : List Strip} (h : stripsContiguous off rs total) {li : Nat}
    (hl : total ≤ li) : resolveIndex rs li = none := by
  induction rs generalizing off with
  | nil => rfl
  | cons r rs ih =>
    have hb := stripsContiguous_bounds h
    have := hb.2 r (by simp)
    have ho : r.owns li = false := by simp [Strip.owns]; omega
    simp [resolveIndex, ho, ih h.2]

/-- On contiguous strips an index in range is owned by exactly one strip, and resolves inside it (R154). -/
theorem resolveIndex_some {off total : Nat} {rs : List Strip} (h : stripsContiguous off rs total) {li : Nat}
    (h1 : off ≤ li) (h2 : li < total) :
    ∃ r ∈ rs, r.owns li = true ∧ resolveIndex rs li = some (BitVec.ofNat 16 (r.resolve li)) := by
  induction rs generalizing off with
  | nil => simp only [stripsContiguous] at h; omega
  | cons r rs ih =>
    obtain ⟨h3, h4⟩ := h
    by_cases ho : r.owns li = true
    · exact ⟨r, by simp, ho, by simp [resolveIndex, ho]⟩
    · have : off + r.length.toNat ≤ li := by
        simp [Strip.owns] at ho; omega
      obtain ⟨r', hr', ho', he'⟩ := ih h4 this
      exact ⟨r', by simp [hr'], ho', by simp [resolveIndex, ho, he']⟩

/-- On contiguous strips the owner of an index decides what it resolves to. -/
theorem resolveIndex_of_owns {off total : Nat} {rs : List Strip} (h : stripsContiguous off rs total) {r : Strip}
    (hr : r ∈ rs) {li : Nat} (ho : r.owns li = true) : resolveIndex rs li = some (BitVec.ofNat 16 (r.resolve li)) := by
  induction rs generalizing off with
  | nil => simp at hr
  | cons r' rs ih =>
    obtain ⟨h3, h4⟩ := h
    rcases List.mem_cons.mp hr with rfl | hr
    · simp [resolveIndex, ho]
    · have hb := (stripsContiguous_bounds h4).2 r hr
      have ho' := ho
      simp only [Strip.owns, Bool.and_eq_true, decide_eq_true_eq] at ho'
      have : r'.owns li = false := by simp [Strip.owns]; omega
      simp [resolveIndex, this, ih h4 hr]

/-! ### Resolving a list of indices -/

theorem State.flag_flag (s : State) (b : StatusBit) : (s.flag b).flag b = s.flag b := by
  simp [State.flag, BitVec.or_assoc]

/-- Resolving a list: each index on its own, an uncovered one to 0, and `UNMAPPED_INDEX` exactly when there is one
(R154, R155). -/
theorem resolveAll_eq (lis : List Nat) (s : State) :
    resolveAll lis s = (lis.map fun li => (resolveIndex s.strips li).getD 0#16,
      if ∃ li ∈ lis, resolveIndex s.strips li = none then s.flag .unmappedIndex else s) := by
  induction lis generalizing s with
  | nil => simp [resolveAll]
  | cons li lis ih =>
    unfold resolveAll logicalToPhysical
    cases h : resolveIndex s.strips li with
    | some p => simp [ih, h]
    | none => simp [ih, h, State.flag_flag]

theorem sectionIndices_length (ws : List Section) : (sectionIndices ws).length = sectionTotal ws := by
  simp [sectionIndices, sectionTotal, List.length_flatMap]

/-- What building the map of a DEFINE_AREA leaves: the same state, or the state with one of its two flags set. -/
theorem buildMap_state (ws : List Section) (s : State) :
    (buildMap ws s).2 = s ∨ (buildMap ws s).2 = s.flag .mapAllocFail ∨ (buildMap ws s).2 = s.flag .unmappedIndex := by
  unfold buildMap
  split
  · exact .inr (.inl rfl)
  · rw [resolveAll_eq]
    simp only
    split
    · exact .inr (.inr rfl)
    · exact .inl rfl

theorem buildMap_length (ws : List Section) (s : State) : (buildMap ws s).1.length ≤ s.build.maxMapLen := by
  unfold buildMap
  split
  · simp
  · rw [resolveAll_eq]
    simp only [List.length_map, sectionIndices_length]
    omega

end Sys2Proof.Machine
end

