-- ==== Sys2Proof/Laws/Transmitter.lean ====
section
/-! SUPPORT. The transmitter: what one frame and one show do, said once. -/

namespace Sys2Proof.Machine

/-! ### Reading a strip's pixels -/

/-- Below `NPIX` every pixel can be read. -/
theorem readPixels_ok {s : State} {is : List Nat} (h : ∀ i ∈ is, i < s.npix.toNat) :
    readPixels s is = .ok (is.map s.pixbuf.read) := by
  induction is with
  | nil => rfl
  | cons i is ih =>
    have hi : s.pixel? i = some (s.pixbuf.read i) := by simp [State.pixel?, h i (by simp)]
    simp [readPixels, hi, ih fun j hj => h j (by simp [hj])]

/-- A read that succeeds gives the words of the buffer. -/
theorem readPixels_eq {s : State} {is : List Nat} {ps : List Pixel} (h : readPixels s is = .ok ps) :
    ps = is.map s.pixbuf.read := by
  induction is generalizing ps with
  | nil => cases h; rfl
  | cons i is ih =>
    unfold readPixels at h
    split at h
    · cases h
    · rename_i p hp
      split at h
      · rename_i ps' hps
        cases h
        unfold State.pixel? at hp
        split at hp
        · cases hp; simp [ih hps]
        · cases hp
      · cases h

/-- Reading depends on `NPIX` and the buffer alone. -/
theorem readPixels_congr {s t : State} (h1 : t.npix = s.npix) (h2 : t.pixbuf = s.pixbuf) (is : List Nat) :
    readPixels t is = readPixels s is := by
  induction is with
  | nil => rfl
  | cons i is ih => simp [readPixels, State.pixel?, h1, h2, ih]

/-- The pixels a strip owns, as they go out (R62, R241). -/
def stripPixels (s : State) (r : Strip) : List Pixel := r.indices.map s.pixbuf.read

theorem Strip.indices_lt {r : Strip} {i : Nat} (h : i ∈ r.indices) : i < r.offset.toNat + r.length.toNat := by
  simp only [Strip.indices, List.mem_map, List.mem_range] at h
  obtain ⟨j, hj, rfl⟩ := h
  omega

/-! ### One frame -/

/-- A frame answers exactly this next state, when the strip lies below `NPIX` (R241). -/
theorem transmit_next {s : State} {k : Nat} {r : Strip} (h : r.offset.toNat + r.length.toNat ≤ s.npix.toNat) :
    transmit s k r = .next (((s.openFrame k r).emit (framePulses s.build.wireOrder r.pin (stripPixels s r))).closeFrame k) := by
  unfold transmit
  rw [readPixels_ok fun i hi => Nat.lt_of_lt_of_le (Strip.indices_lt hi) h]
  rfl

/-- Inversion of a frame. -/
theorem transmit_cases {s t : State} {k : Nat} {r : Strip} (h : transmit s k r = .next t) :
    t = ((s.openFrame k r).emit (framePulses s.build.wireOrder r.pin (stripPixels s r))).closeFrame k := by
  unfold transmit at h
  split at h
  · cases h
  · rename_i ps hps
    cases h
    rw [readPixels_eq hps]
    rfl

/-- Inversion of one turn of a show: nothing for an empty strip, else one frame (R241, R249). -/
theorem showStrip_cases {s t : State} {k : Nat} (h : showStrip s k = .next t) :
    t = s ∨ ∃ r, s.strips[k]? = some r ∧ r.length ≠ 0#16 ∧
      t = ((s.openFrame k r).emit (framePulses s.build.wireOrder r.pin (stripPixels s r))).closeFrame k := by
  unfold showStrip at h
  split at h
  · cases h; exact .inl rfl
  · rename_i r hr
    split at h
    · cases h; exact .inl rfl
    · rename_i hl
      exact .inr ⟨r, hr, hl, transmit_cases h⟩

/-! ### One show -/

theorem stripGeometry_modify (rs : List Strip) (k n : Nat) :
    stripGeometry (rs.modify k fun r => { r with lastShown := n }) = stripGeometry rs := by
  induction rs generalizing k with
  | nil => cases k <;> rfl
  | cons r rs ih =>
    cases k with
    | zero => rfl
    | succ k => simpa [stripGeometry] using ih k

/-- What every turn of a show leaves unchanged: every field but the timestamps, the clock and the wire. -/
structure ShowFrame (s t : State) : Prop where
  build    : t.build = s.build
  geometry : stripGeometry t.strips = stripGeometry s.strips
  npix     : t.npix = s.npix
  pixbuf   : t.pixbuf = s.pixbuf
  areas    : t.areas = s.areas
  tick     : t.tick = s.tick
  ctrl     : t.ctrl = s.ctrl
  status   : t.status = s.status
  irq      : s.irqDisable = false → t.irqDisable = false
  now      : s.now ≤ t.now
  rsp      : t.rsp = s.rsp
  cmd      : t.cmd = s.cmd
  waiting  : t.waitingTicks = s.waitingTicks

theorem ShowFrame.refl (s : State) : ShowFrame s s :=
  ⟨rfl, rfl, rfl, rfl, rfl, rfl, rfl, rfl, id, Nat.le_refl _, rfl, rfl, rfl⟩

theorem ShowFrame.trans {s t u : State} (h1 : ShowFrame s t) (h2 : ShowFrame t u) : ShowFrame s u :=
  ⟨h2.build.trans h1.build, h2.geometry.trans h1.geometry, h2.npix.trans h1.npix, h2.pixbuf.trans h1.pixbuf, h2.areas.trans h1.areas,
    h2.tick.trans h1.tick, h2.ctrl.trans h1.ctrl, h2.status.trans h1.status, fun h => h2.irq (h1.irq h),
    Nat.le_trans h1.now h2.now, h2.rsp.trans h1.rsp, h2.cmd.trans h1.cmd,
    h2.waiting.trans h1.waiting⟩

/-- The clock after a frame is no earlier than before it. -/
theorem frame_now (s : State) (k : Nat) (r : Strip) (es : List WireEvent) :
    s.now ≤ (((s.openFrame k r).emit es).closeFrame k).now := by
  rw [State.closeFrame_now, State.emit_now, State.openFrame_now]
  exact Nat.le_trans (Nat.le_trans (Nat.le_add_right _ _) (Nat.le_max_left _ _)) (Nat.le_add_right _ _)

theorem frame_showFrame (s : State) (k : Nat) (r : Strip) (es : List WireEvent) :
    ShowFrame s (((s.openFrame k r).emit es).closeFrame k) where
  build := by rw [State.closeFrame_build, State.emit_build, State.openFrame_build]
  geometry := by
    rw [State.closeFrame_strips, stripGeometry_modify, State.emit_strips, State.openFrame_strips]
  npix := by rw [State.closeFrame_npix, State.emit_npix, State.openFrame_npix]
  pixbuf := by rw [State.closeFrame_pixbuf, State.emit_pixbuf, State.openFrame_pixbuf]
  areas := by rw [State.closeFrame_areas, State.emit_areas, State.openFrame_areas]
  tick := by rw [State.closeFrame_tick, State.emit_tick, State.openFrame_tick]
  ctrl := by rw [State.closeFrame_ctrl, State.emit_ctrl, State.openFrame_ctrl]
  status := by rw [State.closeFrame_status, State.emit_status, State.openFrame_status]
  irq := fun _ => State.closeFrame_irqDisable _ _
  now := frame_now s k r es
  rsp := by rw [State.closeFrame_rsp, State.emit_rsp, State.openFrame_rsp]
  cmd := by rw [State.closeFrame_cmd, State.emit_cmd, State.openFrame_cmd]
  waiting := by rw [State.closeFrame_waitingTicks, State.emit_waitingTicks, State.openFrame_waitingTicks]

theorem showStrip_frame {s t : State} {k : Nat} (h : showStrip s k = .next t) : ShowFrame s t := by
  rcases showStrip_cases h with rfl | ⟨r, -, -, rfl⟩
  · exact ShowFrame.refl _
  · exact frame_showFrame _ _ _ _

theorem showFrom_frame {ks : List Nat} {s t : State} (h : showFrom ks s = .next t) : ShowFrame s t := by
  induction ks generalizing s with
  | nil => cases h; exact ShowFrame.refl _
  | cons k ks ih =>
    obtain ⟨u, h1, h2⟩ := andThen_eq_next.mp h
    exact (showStrip_frame h1).trans (ih h2)

theorem showAll_frame {s t : State} (h : showAll s = .next t) : ShowFrame s t := showFrom_frame h

/-- A timestamp written by a show is at most `NOW` after it, when those before were (R33, R246). -/
theorem showStrip_shown {s t : State} {k : Nat} (h : showStrip s k = .next t) (hs : ∀ r ∈ s.strips, r.lastShown ≤ s.now) :
    ∀ r ∈ t.strips, r.lastShown ≤ t.now := by
  rcases showStrip_cases h with rfl | ⟨r, -, -, rfl⟩
  · exact hs
  · intro r' hr'
    simp only [State.closeFrame_strips, State.closeFrame_now, State.emit_strips, State.emit_now, State.emit_clockReads,
      State.openFrame_strips, State.openFrame_now, State.openFrame_clockReads] at hr' ⊢
    obtain ⟨i, hi, rfl⟩ := List.mem_iff_getElem.mp hr'
    rw [List.getElem_modify]
    split
    · exact Nat.le_refl _
    · have := hs _ (List.getElem_mem (by simpa using hi)); omega

theorem showFrom_shown {ks : List Nat} {s t : State} (h : showFrom ks s = .next t)
    (hs : ∀ r ∈ s.strips, r.lastShown ≤ s.now) : ∀ r ∈ t.strips, r.lastShown ≤ t.now := by
  induction ks generalizing s with
  | nil => cases h; exact hs
  | cons k ks ih =>
    obtain ⟨u, h1, h2⟩ := andThen_eq_next.mp h
    exact ih h2 (showStrip_shown h1 hs)

/-- A show completes when every strip lies below `NPIX` (R241). -/
theorem showFrom_next (ks : List Nat) {s : State} {total : Nat} (h : stripsContiguous 0 s.strips total)
    (ht : total ≤ s.npix.toNat) : ∃ t, showFrom ks s = .next t := by
  induction ks generalizing s with
  | nil => exact ⟨s, rfl⟩
  | cons k ks ih =>
    have h1 : ∃ u, showStrip s k = .next u := by
      unfold showStrip
      split
      · exact ⟨s, rfl⟩
      · rename_i r hr
        split
        · exact ⟨s, rfl⟩
        · have hb := (stripsContiguous_bounds h).2 r (List.mem_of_getElem? hr)
          exact ⟨_, transmit_next (by omega)⟩
    obtain ⟨u, hu⟩ := h1
    have hf := showStrip_frame hu
    obtain ⟨t, htt⟩ := ih ((stripsContiguous_geometry hf.geometry _ _).mpr h) (by rw [hf.npix]; exact ht)
    exact ⟨t, andThen_eq_next.mpr ⟨u, hu, htt⟩⟩

theorem showAll_next {s : State} (h : stripsContiguous 0 s.strips s.npix.toNat) : ∃ t, showAll s = .next t :=
  showFrom_next _ h (Nat.le_refl _)

/-! ### Pulses -/

theorem byteBits_length (b : BitVec 8) : (byteBits b).length = 8 := rfl

theorem pixelBits_length (order : List Channel) (p : Pixel) : (pixelBits order p).length = 8 * order.length := by
  induction order with
  | nil => rfl
  | cons c order ih =>
    simp only [pixelBits, List.flatMap_cons, List.length_append, byteBits_length, List.length_cons] at *
    omega

/-- Every pixel is 32 pulses, when the order names four channels (R244, R247). -/
theorem framePulses_length {order : List Channel} (ho : order.length = 4) (pin : BitVec 8) (ps : List Pixel) :
    (framePulses order pin ps).length = 32 * ps.length := by
  induction ps with
  | nil => rfl
  | cons p ps ih =>
    simp only [framePulses, List.flatMap_cons, List.length_append, List.length_map, pixelBits_length, List.length_cons] at *
    omega

theorem framePulses_isPulse {order : List Channel} {pin : BitVec 8} {ps : List Pixel} {e : WireEvent}
    (h : e ∈ framePulses order pin ps) : e.isPulse = true := by
  simp only [framePulses, List.mem_flatMap, List.mem_map] at h
  obtain ⟨p, -, b, -, rfl⟩ := h
  rfl

theorem pulsesOf_framePulses (order : List Channel) (pin : BitVec 8) (ps : List Pixel) :
    pulsesOf (framePulses order pin ps) = framePulses order pin ps :=
  List.filter_eq_self.mpr fun _ h => framePulses_isPulse h

theorem pulsesOf_append (xs ys : List WireEvent) : pulsesOf (xs ++ ys) = pulsesOf xs ++ pulsesOf ys := List.filter_append ..

theorem framesOf_append (xs ys : List WireEvent) : framesOf (xs ++ ys) = framesOf xs ++ framesOf ys := by
  induction xs with
  | nil => rfl
  | cons x xs ih => cases x <;> simp [framesOf, ih]

theorem framesOf_framePulses (order : List Channel) (pin : BitVec 8) (ps : List Pixel) :
    framesOf (framePulses order pin ps) = [] := by
  have : ∀ es : List WireEvent, (∀ e ∈ es, e.isPulse = true) → framesOf es = [] := by
    intro es
    induction es with
    | nil => simp [framesOf]
    | cons e es ih =>
      intro h
      cases e with
      | emitBit => exact ih fun e he => h e (by simp [he])
      | frameStart => have := h _ List.mem_cons_self; cases this
      | frameEnd => have := h _ List.mem_cons_self; cases this
  exact this _ fun e he => framePulses_isPulse he

theorem wireCycles_append (xs ys : List WireEvent) : wireCycles (xs ++ ys) = wireCycles xs + wireCycles ys := by
  induction xs with
  | nil => simp [wireCycles]
  | cons x xs ih => cases x <;> simp [wireCycles, ih, Nat.add_assoc]

/-- The three facts the spec gives about the open timings (R248). -/
theorem pulse_timing : 0 < Config.t0hCyc ∧ 0 < Config.t1hCyc ∧ 0 < Config.tlCyc ∧ Config.t0hCyc ≠ Config.t1hCyc := by
  unfold Config.t0hCyc Config.t1hCyc Config.tlCyc
  split <;> omega

end Sys2Proof.Machine
end

