-- ==== Sys2Proof/Laws/Channels.lean ====
section
/-! SUPPORT. The channels of a converted pixel: the interpolation at and between samples, one channel byte of `toPixel` under
either strategy, and the rounded value the search of the reference strategy finds. -/

namespace Sys2Proof.Machine

theorem lutInterp_sample {table : Nat → Nat} (i : Nat) (h : i ≤ 200) : lutInterp table (128 * i) = table i := by
  unfold lutInterp
  simp only [Nat.mul_div_cancel_left i (show 0 < 128 by omega), Nat.mul_mod_right]
  split
  · have : i = 200 := by omega
    rw [this]
  · simp

theorem lutInterp_mono {table : Nat → Nat} (hs : ∀ i, i < 200 → table i ≤ table (i + 1)) {x y : Nat}
    (h : x ≤ y) (hy : y ≤ 25600) : lutInterp table x ≤ lutInterp table y := by
  by_cases hxy : x / 128 = y / 128
  · unfold lutInterp
    rw [hxy]
    simp only
    split
    · exact Nat.le_refl _
    · have : x % 128 ≤ y % 128 := by omega
      have := Nat.mul_le_mul_left (table (y / 128 + 1) - table (y / 128)) this
      omega
  · have hlt : x / 128 < y / 128 := by omega
    have h1 := lutInterp_between hs (x := x) (by omega)
    by_cases hy2 : 200 ≤ y / 128
    · rw [lutInterp_top hy2]
      exact Nat.le_trans h1.2 (table_mono hs (by omega) (by omega))
    · have h2 := lutInterp_between hs (x := y) (by omega)
      exact Nat.le_trans h1.2 (Nat.le_trans (table_mono hs (by omega) (by omega)) h2.1)

theorem inRange_norm {c : Color} (h : inRange c) : isNone c = false ∧ wrapHue c.h = c.h.toNat ∧ clampSv c.s = c.s.toNat ∧
    clampSv c.v = c.v.toNat := by
  obtain ⟨h1, h2, h3⟩ := h
  refine ⟨?_, Nat.mod_eq_of_lt h1, ?_, ?_⟩
  · simp only [isNone, decide_eq_false_iff_not, not_lt, Config.svOne] at *
    simp only [BitVec.toInt_eq_toNat_cond]; split <;> omega
  · have := clampSv_ofNat h2; rwa [BitVec.ofNat_toNat, BitVec.setWidth_eq] at this
  · have := clampSv_ofNat h3; rwa [BitVec.ofNat_toNat, BitVec.setWidth_eq] at this

theorem channelByte_packPixel (w r g b : Nat) (x : Channel) : channelByte (packPixel w r g b) x =
    match x with
    | .white => BitVec.ofNat 8 w
    | .red => BitVec.ofNat 8 r
    | .green => BitVec.ofNat 8 g
    | .blue => BitVec.ofNat 8 b := by
  unfold packPixel
  cases x <;> simp only [channelByte] <;> ext i hi <;> simp only [BitVec.getElem_extractLsb', BitVec.getLsbD_append]
  · rw [if_neg (by omega), if_neg (by omega), if_neg (by omega), ← BitVec.getLsbD_eq_getElem]; congr 1; omega
  · rw [if_neg (by omega), if_neg (by omega), if_pos (by omega), ← BitVec.getLsbD_eq_getElem]; congr 1; omega
  · rw [if_neg (by omega), if_pos (by omega), ← BitVec.getLsbD_eq_getElem]; congr 1; omega
  · rw [if_pos (by omega), ← BitVec.getLsbD_eq_getElem]; congr 1; omega

theorem channelByte_toPixel (conv : Conversion) {c : Color} (h : inRange c) (x : Channel) : channelByte (toPixel conv c) x =
    BitVec.ofNat 8 (channelValue conv x c.h.toNat c.s.toNat c.v.toNat) := by
  obtain ⟨h0, h1, h2, h3⟩ := inRange_norm h
  unfold toPixel
  rw [h0, h1, h2, h3]
  simp only [Bool.false_eq_true, if_false, channelByte_packPixel]
  cases x <;> rfl

theorem fastChannel_le {g : Gamma} (hq : 0 < g.den) (x : Channel) (h s v : Nat) : fastChannel g x h s v ≤ 255 := by
  have hb : lutInterp (gammaLut g) v ≤ 65536 := lutInterp_le hq v
  have hs : lutInterp satLut s ≤ 65536 := lutInterp_le (by decide) s
  have h1 : ∀ y, fastColor (lutInterp (gammaLut g) v) (lutInterp satLut s) (hueWeight y h) ≤ 255 := by
    intro y
    have hw : hueWeight y h ≤ 15360 := hueWeight_le y h
    unfold fastColor colorDivisor
    have : lutInterp (gammaLut g) v * lutInterp satLut s * 255 * hueWeight y h ≤ 65536 * 65536 * 255 * 15360 := by gcongr
    simp only [Config.lobe]; omega
  cases x
  · unfold fastChannel fastWhite
    have : lutInterp (gammaLut g) v * (Config.qOne - lutInterp satLut s) * 255 ≤ 65536 * 65536 * 255 := by
      gcongr; simp [Config.qOne]
    simp only; omega
  · exact h1 _
  · exact h1 _
  · exact h1 _

theorem byte_toNat {n : Nat} (h : n ≤ 255) : (BitVec.ofNat 8 n).toNat = n := by simp; omega

theorem channelByte_fast {g : Gamma} (hq : 0 < g.den) {c : Color} (h : inRange c) (x : Channel) :
    (channelByte (toPixel ⟨.fast, g⟩ c) x).toNat = fastChannel g x c.h.toNat c.s.toNat c.v.toNat := by
  rw [channelByte_toPixel _ h, byte_toNat]; rfl
  exact fastChannel_le hq _ _ _ _

theorem pixel_ext {p q : Pixel} (h : ∀ x, channelByte p x = channelByte q x) : p = q := by
  have h1 := h .white; have h2 := h .red; have h3 := h .green; have h4 := h .blue
  simp only [channelByte] at *
  ext i hi
  have g : ∀ (a b : Word) (o : Nat), a.extractLsb' o 8 = b.extractLsb' o 8 → ∀ j, j < 8 → a.getLsbD (o+j) =
      b.getLsbD (o+j) := by
    intro a b o e j hj
    have := congrArg (fun z => z.getLsbD j) e
    simpa [hj] using this
  rw [← BitVec.getLsbD_eq_getElem, ← BitVec.getLsbD_eq_getElem]
  by_cases c1 : i < 8
  · have := g _ _ _ h4 i c1; simpa using this
  · by_cases c2 : i < 16
    · have := g _ _ _ h3 (i-8) (by omega); rwa [show 8 + (i-8) = i by omega] at this
    · by_cases c3 : i < 24
      · have := g _ _ _ h2 (i-16) (by omega); rwa [show 16 + (i-16) = i by omega] at this
      · have := g _ _ _ h1 (i-24) (by omega); rwa [show 24 + (i-24) = i by omega] at this

theorem greatest_floor {test : Nat → Bool} {X : ℝ} (h0 : 0 ≤ X) (h1 : X ≤ 255) (ht : ∀ k : Nat, 0 < k →
    (test k = true ↔ (k : ℝ) ≤ X + 1/2)) :
   ((greatest test 8 0 : Nat) : ℤ) = ⌊X + 1/2⌋ ∧ greatest test 8 0 ≤ 255 := by
  have mono : ∀ i j, 0 < i → i ≤ j → test j = true → test i = true := by
    intro i j hi hij hj
    rw [ht i hi]; rw [ht j (by omega)] at hj
    have : (i : ℝ) ≤ j := by exact_mod_cast hij
    linarith
  obtain ⟨g1, g2, g3, g4⟩ := greatest_spec mono 8 0
  generalize greatest test 8 0 = g at *
  have g2 : g < 256 := by simpa using g2
  refine ⟨?_, by omega⟩
  symm
  rw [Int.floor_eq_iff]
  constructor
  · by_cases hg : g = 0
    · subst hg; push_cast; linarith
    · have := (ht g (by omega)).mp (g3 g (by omega) (by omega))
      exact_mod_cast this
  · by_cases hg : g = 255
    · subst hg; push_cast; linarith
    · have := g4 (g+1) (by omega) (by omega)
      have h2 : ¬ ((g + 1 : ℕ) : ℝ) ≤ X + 1/2 := by rw [← ht _ (by omega), this]; simp
      push_cast at h2 ⊢; linarith

theorem fraction_le_one (n d : Nat) (h : n ≤ d) (hd : 0 < d) : (0:ℝ) ≤ (n:ℝ)/d ∧ (n:ℝ)/d ≤ 1 := by
  have : (0:ℝ) < d := by exact_mod_cast hd
  have h2 : (n:ℝ) ≤ d := by exact_mod_cast h
  exact ⟨by positivity, by rw [div_le_one this]; exact h2⟩

end Sys2Proof.Machine
end

