-- ==== Sys2Proof/Laws/Accuracy.lean ====
section
/-! SUPPORT. The printed tables are the computed ones, and how far their interpolation lies from the power laws they sample for
`GAMMA` = 11/5 (the bounds behind R135): every raw input of a segment is checked in integers, segment by segment. -/

namespace Sys2Proof.Machine

/-- `ok` holds at the first `n` points of a segment that starts at input `x` with entry `a` and rises by `d`. -/
def segmentOk (ok : Nat → Nat → Bool) (x a d : Nat) : Nat → Bool
  | 0 => true
  | n + 1 => ok (x + n) (a + (d * n + 64) / 128) && segmentOk ok x a d n

/-- `ok` holds on every segment of a table whose first entry is the sample at input `x`. -/
def segmentsOk (ok : Nat → Nat → Bool) : Nat → List Nat → Bool
  | x, a :: b :: rest => segmentOk ok x a (b - a) 128 && segmentsOk ok (x + 128) (b :: rest)
  | _, _ => true

/-- `t/65536` is within 196/65536 of the cube root of `x/25600`. -/
def satNear (x t : Nat) : Bool :=
  Nat.ble ((t - 196) ^ 3 * 25600) (x * 65536 ^ 3) && Nat.ble (x * 65536 ^ 3) ((t + 196) ^ 3 * 25600)

/-- `t/65536` is within 32/65536 of `(x/25600)^(11/5)`. -/
def gammaNear (x t : Nat) : Bool :=
  Nat.ble ((t - 32) ^ 5 * 25600 ^ 11) (x ^ 11 * 65536 ^ 5) && Nat.ble (x ^ 11 * 65536 ^ 5) ((t + 32) ^ 5 * 25600 ^ 11)

theorem segmentOk_spec {ok : Nat → Nat → Bool} {x a d n : Nat} (h : segmentOk ok x a d n = true) {f : Nat} (hf : f < n) :
    ok (x + f) (a + (d * f + 64) / 128) = true := by
  induction n with
  | zero => omega
  | succ n ih =>
    rw [segmentOk, Bool.and_eq_true] at h
    by_cases e : f = n
    · rw [e]; exact h.1
    · exact ih h.2 (by omega)

theorem segmentsOk_spec {ok : Nat → Nat → Bool} {x : Nat} {table : List Nat} (h : segmentsOk ok x table = true) {i : Nat}
    (hi : i + 1 < table.length) {f : Nat} (hf : f < 128) :
    ok (x + 128 * i + f) (table.getD i 0 + ((table.getD (i + 1) 0 - table.getD i 0) * f + 64) / 128) = true := by
  induction table generalizing x i with
  | nil => simp at hi
  | cons a table ih =>
    cases table with
    | nil => simp at hi
    | cons b rest =>
      rw [segmentsOk, Bool.and_eq_true] at h
      cases i with
      | zero => simpa using segmentOk_spec h.1 hf
      | succ i =>
        have := ih h.2 (i := i) (by simpa using hi)
        rw [show x + 128 * (i + 1) = x + 128 + 128 * i by omega]
        simpa using this

/-- Within a segment the interpolation is the rounded line. -/
theorem lutInterp_segment (table : Nat → Nat) {i f : Nat} (hi : i < 200) (hf : f < 128) :
    lutInterp table (128 * i + f) = table i + ((table (i + 1) - table i) * f + 64) / 128 := by
  unfold lutInterp
  simp only [show (128 * i + f) / 128 = i by omega, show (128 * i + f) % 128 = f by omega, if_neg (show ¬ 200 ≤ i by omega)]

/-! ### The printed tables -/

/-- `GAMMA_LUT` for `GAMMA` = 11/5 is the table R128 prints. -/
theorem gammaLut_printed : (List.range 201).map (gammaLut ⟨11, 5⟩) = printedGammaLut := by decide +kernel

/-- `SAT_LUT` is the table R129 prints. -/
theorem satLut_printed : (List.range 201).map satLut = printedSatLut := by decide +kernel

theorem gammaLut_entry {i : Nat} (h : i ≤ 200) : gammaLut ⟨11, 5⟩ i = lutEntry printedGammaLut i := by
  rw [← gammaLut_printed, lutEntry, List.getD_eq_getElem?_getD, List.getElem?_map, List.getElem?_range (by omega),
    Option.map_some, Option.getD_some]

theorem satLut_entry {i : Nat} (h : i ≤ 200) : satLut i = lutEntry printedSatLut i := by
  rw [← satLut_printed, lutEntry, List.getD_eq_getElem?_getD, List.getElem?_map, List.getElem?_range (by omega),
    Option.map_some, Option.getD_some]

theorem satTail_length : (printedSatLut.drop 1).length = 200 := by decide +kernel

theorem printedGammaLut_length : printedGammaLut.length = 201 := by decide +kernel

theorem satLut_near : segmentsOk satNear 128 (printedSatLut.drop 1) = true := by decide +kernel

theorem gammaLut_near : segmentsOk gammaNear 0 printedGammaLut = true := by decide +kernel

/-! ### Bounds -/

theorem lutInterp_sat_near (s : Nat) (h : s = 0 ∨ 128 ≤ s) (h2 : s ≤ 25600) : |((lutInterp satLut s : ℕ) : ℝ)/65536 -
    ((s:ℝ)/25600)^((1:ℝ)/3)| ≤ 196/65536 := by
  rcases h with rfl | h
  · have : lutInterp satLut 0 = 0 := by decide +kernel
    rw [this]; norm_num
  · rcases Nat.lt_or_ge s 25600 with h3 | h3
    · have n := segmentsOk_spec satLut_near (i := s / 128 - 1) (by rw [satTail_length]; omega) (f := s % 128) (by omega)
      have e := lutInterp_segment satLut (i := s / 128) (f := s % 128) (by omega) (by omega)
      rw [Nat.div_add_mod, satLut_entry (by omega), satLut_entry (by omega)] at e
      have e2 : 128 + 128 * (s / 128 - 1) + s % 128 = s := by omega
      have e3 : (printedSatLut.drop 1).getD (s / 128 - 1) 0 = lutEntry printedSatLut (s / 128) := by
        rw [List.getD_eq_getElem?_getD, List.getElem?_drop, show 1 + (s / 128 - 1) = s / 128 by omega, lutEntry,
          List.getD_eq_getElem?_getD]
      have e4 : (printedSatLut.drop 1).getD (s / 128 - 1 + 1) 0 = lutEntry printedSatLut (s / 128 + 1) := by
        rw [List.getD_eq_getElem?_getD, List.getElem?_drop, show 1 + (s / 128 - 1 + 1) = s / 128 + 1 by omega, lutEntry,
          List.getD_eq_getElem?_getD]
      rw [e2, e3, e4, ← e, satNear, Bool.and_eq_true, Nat.ble_eq, Nat.ble_eq] at n
      obtain ⟨n1, n2⟩ := n
      generalize lutInterp satLut s = t at n1 n2 ⊢
      have n1' : (((t - 196 : ℕ):ℝ)/65536)^3 ≤ (s:ℝ)/25600 := by
        rw [div_pow, div_le_div_iff₀ (by norm_num) (by norm_num)]; exact_mod_cast n1
      have n2' : (s:ℝ)/25600 ≤ (((t + 196 : ℕ):ℝ)/65536)^3 := by
        rw [div_pow, div_le_div_iff₀ (by norm_num) (by norm_num)]; exact_mod_cast n2
      have hc := rpow_third_pow (x := (s:ℝ)/25600) (by positivity)
      rw [← hc] at n1' n2'
      have p0 : (0:ℝ) ≤ ((s:ℝ)/25600)^((1:ℝ)/3) := by positivity
      have m1 := (pow_le_pow_iff_left₀ (div_nonneg (Nat.cast_nonneg _) (by norm_num)) p0 (by norm_num)).mp n1'
      have m2 := (pow_le_pow_iff_left₀ p0 (div_nonneg (Nat.cast_nonneg _) (by norm_num)) (by norm_num)).mp n2'
      have : (t:ℝ) - 196 ≤ ((t - 196 : ℕ):ℝ) := by
        have : (t:ℤ) - 196 ≤ ((t-196 : ℕ) : ℤ) := by omega
        exact_mod_cast this
      push_cast at m2
      rw [abs_le]; constructor <;> linarith
    · have : s = 25600 := by omega
      subst this
      have : lutInterp satLut 25600 = 65536 := by decide +kernel
      rw [this]; norm_num

theorem lutInterp_gamma_near (v : Nat) (h2 : v ≤ 25600) : |((lutInterp (gammaLut ⟨11, 5⟩) v : ℕ) : ℝ)/65536 -
    ((v:ℝ)/25600)^(((11:ℕ):ℝ)/(5:ℕ))| ≤ 32/65536 := by
  rcases Nat.lt_or_ge v 25600 with h3 | h3
  · have n := segmentsOk_spec gammaLut_near (i := v / 128) (by rw [printedGammaLut_length]; omega) (f := v % 128) (by omega)
    have e := lutInterp_segment (gammaLut ⟨11, 5⟩) (i := v / 128) (f := v % 128) (by omega) (by omega)
    rw [Nat.div_add_mod, gammaLut_entry (by omega), gammaLut_entry (by omega)] at e
    rw [show 0 + 128 * (v / 128) + v % 128 = v by omega] at n
    change gammaNear v (lutEntry printedGammaLut (v / 128) +
      ((lutEntry printedGammaLut (v / 128 + 1) - lutEntry printedGammaLut (v / 128)) * (v % 128) + 64) / 128) = true at n
    rw [← e, gammaNear, Bool.and_eq_true, Nat.ble_eq, Nat.ble_eq] at n
    obtain ⟨n1, n2⟩ := n
    generalize lutInterp (gammaLut ⟨11, 5⟩) v = t at n1 n2 ⊢
    have n1' : (((t - 32 : ℕ):ℝ)/65536)^5 ≤ ((v:ℝ)/25600)^11 := by
      rw [div_pow, div_pow, div_le_div_iff₀ (by norm_num) (by norm_num)]; exact_mod_cast n1
    have n2' : ((v:ℝ)/25600)^11 ≤ (((t + 32 : ℕ):ℝ)/65536)^5 := by
      rw [div_pow, div_pow, div_le_div_iff₀ (by norm_num) (by norm_num)]; exact_mod_cast n2
    have hc := rpow_ratio_pow (x := (v:ℝ)/25600) (by positivity) 11 (q := 5) (by decide)
    rw [← hc] at n1' n2'
    have p0 : (0:ℝ) ≤ ((v:ℝ)/25600)^(((11:ℕ):ℝ)/(5:ℕ)) := by positivity
    have m1 := (pow_le_pow_iff_left₀ (div_nonneg (Nat.cast_nonneg _) (by norm_num)) p0 (by norm_num)).mp n1'
    have m2 := (pow_le_pow_iff_left₀ p0 (div_nonneg (Nat.cast_nonneg _) (by norm_num)) (by norm_num)).mp n2'
    have : (t:ℝ) - 32 ≤ ((t - 32 : ℕ):ℝ) := by
      have : (t:ℤ) - 32 ≤ ((t-32 : ℕ) : ℤ) := by omega
      exact_mod_cast this
    push_cast at m2
    rw [abs_le]; constructor <;> linarith
  · have : v = 25600 := by omega
    subst this
    have : lutInterp (gammaLut ⟨11, 5⟩) 25600 = 65536 := by decide +kernel
    rw [this]; norm_num

theorem floor_near (x y : ℝ) (n m : ℕ) (hn : (n:ℤ) = ⌊x + 1/2⌋) (hm : (m:ℤ) = ⌊y+1/2⌋) (h : |x - y| < 1) : n ≤ m + 1 ∧
    m ≤ n + 1 := by
  rw [abs_lt] at h
  have a1 := Int.floor_le (x+1/2); have a2 := Int.lt_floor_add_one (x+1/2)
  have b1 := Int.floor_le (y+1/2); have b2 := Int.lt_floor_add_one (y+1/2)
  rw [← hn] at a1 a2; rw [← hm] at b1 b2
  constructor
  · have : ((n:ℤ):ℝ) < (m:ℤ) + 2 := by linarith
    have : (n:ℤ) < m + 2 := by exact_mod_cast this
    omega
  · have : ((m:ℤ):ℝ) < (n:ℤ) + 2 := by linarith
    have : (m:ℤ) < n + 2 := by exact_mod_cast this
    omega

theorem fastWhite_floor (b q : ℕ) (hq : q ≤ 65536) : ((fastWhite b q : ℕ) : ℤ) = ⌊(b:ℝ)/65536 * (1 - (q:ℝ)/65536) * 255 +
    1/2⌋ := by
  symm; rw [Int.floor_eq_iff]
  unfold fastWhite Config.qOne
  have hd := Nat.div_add_mod (b * (65536 - q) * 255 + 2^31) (2^32)
  have hm := Nat.mod_lt (b * (65536 - q) * 255 + 2^31) (show 2^32 > 0 by norm_num)
  generalize hk : (b * (65536 - q) * 255 + 2^31) / 2^32 = k at *
  generalize hr : (b * (65536 - q) * 255 + 2^31) % 2^32 = r at *
  have hd' : ((2:ℝ)^32 * k + r) = b * (65536 - q) * 255 + 2^31 := by
    have := congrArg (Nat.cast : ℕ → ℝ) hd
    push_cast [Nat.cast_sub hq] at this; linarith
  have hr0 : (0:ℝ) ≤ r := Nat.cast_nonneg _
  have hr1 : (r:ℝ) < 2^32 := by exact_mod_cast hm
  have e : (b:ℝ)/65536 * (1 - (q:ℝ)/65536) * 255 + 1/2 = k + r / 2^32 := by
    field_simp; linarith
  rw [e]; push_cast
  have : (0:ℝ) ≤ r / 2^32 ∧ (r:ℝ)/2^32 < 1 := ⟨div_nonneg hr0 (by norm_num), by rw [div_lt_one (by norm_num)]; exact hr1⟩
  constructor <;> linarith

theorem fastColor_floor (b q w : ℕ) : ((fastColor b q w : ℕ) : ℤ) = ⌊(b:ℝ)/65536 * ((q:ℝ)/65536) * 255 * (w/15360) + 1/2⌋
    := by
  symm; rw [Int.floor_eq_iff]
  unfold fastColor
  have hD : colorDivisor = 65970697666560 := by decide
  rw [hD]
  have hd := Nat.div_add_mod (b * q * 255 * w + 65970697666560/2) 65970697666560
  have hm := Nat.mod_lt (b * q * 255 * w + 65970697666560/2) (show 65970697666560 > 0 by norm_num)
  generalize hk : (b * q * 255 * w + 65970697666560/2) / 65970697666560 = k at *
  generalize hr : (b * q * 255 * w + 65970697666560/2) % 65970697666560 = r at *
  have hd' : ((65970697666560:ℝ) * k + r) = b * q * 255 * w + 32985348833280 := by
    have := congrArg (Nat.cast : ℕ → ℝ) hd
    norm_num at this; linarith
  have hr0 : (0:ℝ) ≤ r := Nat.cast_nonneg _
  have hr1 : (r:ℝ) < 65970697666560 := by exact_mod_cast hm
  have e : (b:ℝ)/65536 * ((q:ℝ)/65536) * 255 * (w/15360) + 1/2 = k + r / 65970697666560 := by
    field_simp; linarith
  rw [e]; push_cast
  have : (0:ℝ) ≤ r / 65970697666560 ∧ (r:ℝ)/65970697666560 < 1 := ⟨div_nonneg hr0 (by norm_num), by rw [div_lt_one (by norm_num)]; exact hr1⟩
  constructor <;> linarith

end Sys2Proof.Machine
end

