-- ==== Sys2Proof/Laws/Effects.lean ====
section
/-! SUPPORT. The effect engine: the closed form of the tick's updates, and the ranges of the colours an Area shows. -/

namespace Sys2Proof.Machine

/-! ### The updates of a tick -/

/-- The writes of an update leave everything an update reads. -/
theorem conversion_congr {s t : State} (h : t.ctrl = s.ctrl) (hb : t.build = s.build) : t.conversion = s.conversion := by
  simp [State.conversion, State.strategy, h, hb]

/-- Writing back the Area that is there changes nothing. -/
theorem State.setArea_self {s : State} {a : Nat} {r : Area} (h : s.area? a = some r) : s.setArea a r = s := by
  obtain ⟨ha, rfl⟩ := List.getElem?_eq_some_iff.mp h
  rw [State.setArea, List.set_getElem_self]

/-- One turn of the tick, in closed form (R181, R183, R210). -/
theorem tickArea_eq (s : State) (u : Bool) (a : Nat) :
    tickArea s.tick (s, u) a =
      match s.area? a with
      | none => (s, u)
      | some r => ((s.setPixels (areaWrites s a)).setArea a (tickedArea s.tick r), u || r.eff.isSome) := by
  unfold tickArea areaWrites tickedArea
  cases hr : s.area? a with
  | none => rfl
  | some r =>
    dsimp only
    cases he : r.eff with
    | none => simp [State.setArea_self hr]
    | some e =>
      dsimp only [State.writeFrame]
      rw [Option.isSome_some, Bool.or_true]
      split
      · rfl
      · rw [State.setArea_self]
        rw [State.area?_congr (State.setPixels_areas ..), hr]

/-- Several turns of the tick over different Areas: the writes in order, the slots ticked, `updated` set when an Area had an
effect; nothing else changes. -/
theorem tickFold_eq (as : List Nat) (hn : as.Nodup) (s : State) (u : Bool) :
    let res := as.foldl (tickArea s.tick) (s, u)
    res.1 = { s.setPixels (as.flatMap (areaWrites s)) with areas := res.1.areas } ∧
      (∀ b, res.1.area? b = if b ∈ as then (s.area? b).map (tickedArea s.tick) else s.area? b) ∧
      res.2 = (u || as.any fun a => ((s.area? a).map fun r => r.eff.isSome).getD false) := by
  induction as using List.reverseRecOn with
  | nil => simp
  | append_singleton as a ih =>
    rw [List.nodup_append] at hn
    obtain ⟨hn, -, hd⟩ := hn
    have ha : a ∉ as := fun h => hd a h a (by simp) rfl
    obtain ⟨h1, h2, h3⟩ := ih hn
    simp only [List.foldl_append, List.foldl_cons, List.foldl_nil]
    set res := as.foldl (tickArea s.tick) (s, u) with hres
    have htick : res.1.tick = s.tick := by rw [h1]; simp
    have hctrl : res.1.ctrl = s.ctrl := by rw [h1]; simp
    have hbuild : res.1.build = s.build := by rw [h1]; simp
    have harea : res.1.area? a = s.area? a := by rw [h2 a, if_neg ha]
    have hw : areaWrites res.1 a = areaWrites s a := by
      unfold areaWrites
      rw [harea, conversion_congr hctrl hbuild, htick]
    have heq := tickArea_eq res.1 res.2 a
    rw [htick] at heq
    rw [show (res.1, res.2) = res from rfl] at heq
    rw [heq, harea, hw]
    cases hr : s.area? a with
    | none =>
      have hwn : areaWrites s a = [] := by simp [areaWrites, hr]
      refine ⟨?_, ?_, ?_⟩
      · simp only [List.flatMap_append, List.flatMap_cons, hwn, List.flatMap_nil, List.append_nil]
        exact h1
      · intro b
        simp only [List.mem_append, List.mem_singleton]
        rw [h2 b]
        by_cases hb : b = a
        · subst hb; simp [ha, hr]
        · simp [hb]
      · simp [h3, hr]
    | some r =>
      refine ⟨?_, ?_, ?_⟩
      · simp only [List.flatMap_append, List.flatMap_cons, List.flatMap_nil, List.append_nil, State.setPixels_append]
        rw [h1]
        have key : ∀ (t : State) (ar : List Area) (ws : List (Index × Pixel)),
            State.setPixels { t with areas := ar } ws = { t.setPixels ws with areas := ar } := by
          intro t ar ws
          induction ws generalizing t with
          | nil => rfl
          | cons w ws ih2 =>
            rw [State.setPixels_cons, State.setPixels_cons, ← ih2]
            congr 1
            unfold State.setPixel
            split <;> rfl
        rw [key]
        rfl
      · intro b
        rw [State.area?_setArea]
        rw [State.area?_congr (State.setPixels_areas ..), h2 b]
        simp only [List.mem_append, List.mem_singleton]
        by_cases hb : a = b
        · subst hb
          simp [hr, State.area?_lt (harea.trans hr)]
        · simp [hb, Ne.symm hb]
      · simp [h3, hr, Bool.or_assoc]

/-- The updates of a tick in closed form (R181). -/
theorem tickAreas_eq (s : State) :
    (tickAreas s).1 = { s.setPixels (tickWrites s) with areas := s.areas.map (tickedArea s.tick) } ∧
      (tickAreas s).2 = someActive s := by
  have h := tickFold_eq (List.range s.areas.length) List.nodup_range s false
  rw [show (List.range s.areas.length).foldl (tickArea s.tick) (s, false) = tickAreas s from rfl] at h
  generalize tickAreas s = res at h ⊢
  obtain ⟨h1, h2, h3⟩ := h
  have hareas : res.1.areas = s.areas.map (tickedArea s.tick) := by
    apply List.ext_getElem?
    intro i
    rw [List.getElem?_map]
    have := h2 i
    unfold State.area? at this
    rw [this]
    split
    · rfl
    · rename_i hi
      rw [List.getElem?_eq_none (by simpa using hi)]; rfl
  refine ⟨?_, ?_⟩
  · rw [← hareas]; exact h1
  · rw [h3]
    unfold someActive
    rw [Bool.false_or, Bool.eq_iff_iff]
    simp only [List.any_eq_true, List.mem_range, State.area?]
    constructor
    · rintro ⟨a, ha, h⟩
      rw [List.getElem?_eq_getElem ha] at h
      exact ⟨s.areas[a], List.getElem_mem ha, by simpa using h⟩
    · rintro ⟨r, hr, h⟩
      obtain ⟨i, hi, rfl⟩ := List.mem_iff_getElem.mp hr
      exact ⟨i, hi, by rw [List.getElem?_eq_getElem hi]; simpa using h⟩

/-- The state after the updates of a tick and its count, before the show (R181). -/
def State.ticked (s : State) : State :=
  { s.setPixels (tickWrites s) with areas := s.areas.map (tickedArea s.tick), tick := s.tick + 1 }

theorem advanceTick_tickAreas (s : State) : (tickAreas s).1.advanceTick = s.ticked := by
  rw [(tickAreas_eq s).1]
  simp only [State.advanceTick, State.ticked, State.setPixels_tick]

/-- TICK in closed form (R180 to R183). -/
theorem execTick_eq (s : State) :
    execTick s = if someActive s = true then showAll s.ticked else .next s.ticked := by
  unfold execTick
  rw [(tickAreas_eq s).2, advanceTick_tickAreas]

theorem execTick_cases {s t : State} (h : execTick s = .next t) :
    (someActive s = true ∧ showAll s.ticked = .next t) ∨ (someActive s = false ∧ t = s.ticked) := by
  rw [execTick_eq] at h
  cases hs : someActive s with
  | true => rw [if_pos hs] at h; exact .inl ⟨rfl, h⟩
  | false => rw [hs, if_neg (by decide)] at h; exact .inr ⟨rfl, (Host.Outcome.next.inj h).symm⟩

section TickedFields

variable (s : State)

@[simp] theorem State.ticked_build : s.ticked.build = s.build := s.setPixels_build _
@[simp] theorem State.ticked_waitingTicks : s.ticked.waitingTicks = s.waitingTicks := s.setPixels_waitingTicks _
@[simp] theorem State.ticked_tick : s.ticked.tick = s.tick + 1 := rfl
@[simp] theorem State.ticked_areas : s.ticked.areas = s.areas.map (tickedArea s.tick) := rfl
@[simp] theorem State.ticked_strips : s.ticked.strips = s.strips := s.setPixels_strips _
@[simp] theorem State.ticked_npix : s.ticked.npix = s.npix := s.setPixels_npix _
@[simp] theorem State.ticked_pixbuf : s.ticked.pixbuf = (s.setPixels (tickWrites s)).pixbuf := rfl
@[simp] theorem State.ticked_status : s.ticked.status = (s.setPixels (tickWrites s)).status := rfl
@[simp] theorem State.ticked_ctrl : s.ticked.ctrl = s.ctrl := s.setPixels_ctrl _
@[simp] theorem State.ticked_irqDisable : s.ticked.irqDisable = s.irqDisable := s.setPixels_irqDisable _
@[simp] theorem State.ticked_now : s.ticked.now = s.now := s.setPixels_now _
@[simp] theorem State.ticked_rsp : s.ticked.rsp = s.rsp := s.setPixels_rsp _
@[simp] theorem State.ticked_cmd : s.ticked.cmd = s.cmd := s.setPixels_cmd _
@[simp] theorem State.ticked_wire : s.ticked.wire = s.wire := s.setPixels_wire _
@[simp] theorem State.ticked_clockReads : s.ticked.clockReads = s.clockReads := s.setPixels_clockReads _

theorem State.area?_ticked (a : Nat) : s.ticked.area? a = (s.area? a).map (tickedArea s.tick) := by
  simp only [State.area?, State.ticked_areas, List.getElem?_map]

end TickedFields

/-- An Area after a tick keeps everything but its slot. -/
theorem tickedArea_cases (tick : Nat) (r : Area) : tickedArea tick r = r ∨ tickedArea tick r = { r with eff := none } := by
  unfold tickedArea
  split
  · exact .inl rfl
  · split
    · exact .inr rfl
    · exact .inl rfl

theorem frame_length (m : Motion) (conv : Conversion) (ec : Color) (n e : Nat) : (m.frame conv ec n e).length = n := by
  cases m <;> simp [Motion.frame]

/-! ### Colours -/

theorem inRange_black : inRange black := by decide

theorem isNone_iff (c : Color) : isNone c = true ↔ 32768 ≤ c.v.toNat := by
  unfold isNone
  rw [decide_eq_true_iff, BitVec.toInt_neg_iff]
  omega

theorem isNone_of_inRange {c : Color} (h : inRange c) : isNone c = false := by
  obtain ⟨-, -, h⟩ := h
  rw [Bool.eq_false_iff, Ne, isNone_iff]
  simp only [Config.svOne] at h
  omega

theorem isNone_noneColor : isNone noneColor = true := by decide

/-- `EffColor` of a legal base is in range. -/
theorem effColor_inRange {r : Area} (h : r.base = noneColor ∨ inRange r.base) : inRange (effColor r) := by
  unfold effColor
  rcases h with h | h
  · rw [h, isNone_noneColor]; exact inRange_black
  · rw [isNone_of_inRange h]
    simp only [Bool.false_eq_true, if_false]
    split
    · exact h
    · exact ⟨h.1, h.2.1, by simp [withVal]⟩

theorem startColor_inRange {d c : Color} (hd : inRange d) (h : c = noneColor ∨ inRange c) : inRange (startColor d c) := by
  unfold startColor
  rcases h with h | h
  · rw [h, isNone_noneColor]; exact hd
  · rw [isNone_of_inRange h]; exact h

/-- A 16-bit component narrowed from between two 16-bit components is not changed by the narrowing. -/
theorem mixComponent_narrow {a b num den : Nat} {hi : Nat} (hden : 0 < den) (hn : num ≤ den) (ha : a ≤ hi) (hb : b ≤ hi)
    (hh : hi < 65536) :
    ((BitVec.ofInt 16 (mixComponent a b num den)).toNat : Int) = mixComponent a b num den ∧
      (BitVec.ofInt 16 (mixComponent a b num den)).toNat ≤ hi := by
  obtain ⟨h1, h2⟩ := mixComponent_between (a : Int) b hden hn
  have h0 : 0 ≤ mixComponent (a : Int) b num den := le_trans (by omega) h1
  have h3 : mixComponent (a : Int) b num den ≤ hi := le_trans h2 (by omega)
  have he : ((BitVec.ofInt 16 (mixComponent (a : Int) b num den)).toNat : Int) = mixComponent (a : Int) b num den := by
    rw [BitVec.toNat_ofInt]
    have : mixComponent (a : Int) b num den % ((2 ^ 16 : Nat) : Int) = mixComponent (a : Int) b num den :=
      Int.emod_eq_of_lt h0 (by omega)
    rw [this]
    omega
  exact ⟨he, by omega⟩

theorem toInt_of_le {x : BitVec 16} (h : x.toNat ≤ Config.svOne) : x.toInt = (x.toNat : Int) := by
  simp only [Config.svOne] at h
  exact BitVec.toInt_eq_toNat_of_lt (by omega)

/-- `mix` of colours in range is in range (R136). -/
theorem mix_inRange {a b : Color} (ha : inRange a) (hb : inRange b) {num den : Nat} (hden : 0 < den) (hn : num ≤ den) :
    inRange (mix a b num den) := by
  obtain ⟨a1, a2, a3⟩ := ha
  obtain ⟨b1, b2, b3⟩ := hb
  have h1 := (mixComponent_narrow (a := a.h.toNat) (b := b.h.toNat) hden hn (hi := 46079)
    (Nat.le_of_lt_succ a1) (Nat.le_of_lt_succ b1) (by decide)).2
  have h2 := (mixComponent_narrow (a := a.s.toNat) (b := b.s.toNat) hden hn a2 b2 (by decide)).2
  have h3 := (mixComponent_narrow (a := a.v.toNat) (b := b.v.toNat) hden hn a3 b3 (by decide)).2
  refine ⟨?_, ?_, ?_⟩
  · show (BitVec.ofInt 16 (mixComponent a.h.toNat b.h.toNat num den)).toNat < Config.hueMod
    simp only [Config.hueMod] at *; omega
  · show (BitVec.ofInt 16 (mixComponent a.s.toInt b.s.toInt num den)).toNat ≤ Config.svOne
    rw [toInt_of_le a2, toInt_of_le b2]; exact h2
  · show (BitVec.ofInt 16 (mixComponent a.v.toInt b.v.toInt num den)).toNat ≤ Config.svOne
    rw [toInt_of_le a3, toInt_of_le b3]; exact h3

theorem transitionColor_inRange {a b : Color} (ha : inRange a) (hb : inRange b) (dur : Word) (e : Nat) :
    inRange (transitionColor a b dur e) := by
  unfold transitionColor
  split
  · exact hb
  · exact mix_inRange ha hb (by omega) (by omega)

/-- `CurrentColor` of a legal Area is in range. -/
theorem currentColor_inRange {r : Area} (h : ColorInv r) (tick : Nat) : inRange (currentColor tick r) := by
  unfold currentColor
  split
  · rename_i start emap c0 c1 dur he
    have := h.ends _ c0 c1 dur he rfl
    split
    · exact this.1
    · exact transitionColor_inRange this.1 this.2 _ _
  · exact effColor_inRange h.base

/-- Applying fields keeps a base colour in range (R188). -/
theorem applyFields_inRange (f : AreaFields) {r : Area} (h : inRange r.base) : inRange (applyFields f r).base := by
  obtain ⟨h1, h2, h3⟩ := h
  have hsv : ∀ x : BitVec 16, (field16 (clampSv x)).toNat ≤ Config.svOne := by
    intro x
    have := clampSv_le x
    simp only [field16, Config.svOne] at *
    rw [field16_toNat (by omega)]
    exact this
  have hh : ∀ x : BitVec 16, (field16 (wrapHue x)).toNat < Config.hueMod := by
    intro x
    have := wrapHue_lt x
    simp only [field16, Config.hueMod] at *
    rw [field16_toNat (by omega)]
    exact this
  unfold applyFields
  refine ⟨?_, ?_, ?_⟩
  · cases f.hue with
    | none => exact h1
    | some x => exact hh x
  · cases f.sat with
    | none => exact h2
    | some x => exact hsv x
  · cases f.bri with
    | none => exact h3
    | some x => exact hsv x

/-! ### Writes through a map -/

/-- The last write of a frame through a map that names no index twice. -/
theorem lastWrite_zip (l : List Index) (hnd : l.Nodup) (fr : List Pixel) (hl : fr.length = l.length) (i : Nat) (x : Index)
    (hx : l[i]? = some x) : lastWrite (l.zip fr) x.toNat = fr[i]? := by
  induction l generalizing fr i with
  | nil => simp at hx
  | cons y l ih =>
    cases fr with
    | nil => simp at hl
    | cons f fr =>
      rw [List.nodup_cons] at hnd
      have app : ∀ (w : Index × Pixel) ws j, lastWrite (w :: ws) j = (lastWrite ws j).or
          (if w.1.toNat = j then some w.2 else none) := by
        intro w ws j
        simp only [lastWrite, List.reverse_cons, List.find?_append]
        cases ws.reverse.find? fun w => w.1.toNat = j with
        | some q => rfl
        | none => by_cases h : w.1.toNat = j <;> simp [h]
      rw [List.zip_cons_cons, app]
      cases i with
      | zero =>
        simp at hx; subst hx
        have : lastWrite (l.zip fr) y.toNat = none := by
          simp only [lastWrite, Option.map_eq_none_iff, List.find?_eq_none]
          intro w hw' hc
          have h1 := (List.of_mem_zip (List.mem_reverse.mp hw')).1
          have : w.1 = y := BitVec.eq_of_toNat_eq (by simpa using hc)
          rw [this] at h1; exact hnd.1 h1
        rw [this]; simp
      | succ i =>
        have := ih hnd.2 fr (by simpa using hl) i (by simpa using hx)
        rw [this]
        have hi : i < l.length := by
          by_contra hc
          have h2 : l[i]? = some x := by simpa using hx
          rw [List.getElem?_eq_none (by omega)] at h2; cases h2
        have : fr[i]? = some (fr[i]'(by simp at hl; omega)) := List.getElem?_eq_getElem (by simp at hl; omega)
        rw [List.getElem?_cons_succ, this]; rfl

end Sys2Proof.Machine
end

