-- ==== Sys2Proof/Laws/Encoding.lean ====
section
/-! SUPPORT. The fields of an encoded header and of encoded payload words read back. -/

namespace Sys2Proof

/-! ### Header fields (R91) -/

@[simp] theorem opcodeField_header (o : BitVec 8) (a : AreaId) (g : BitVec 12) (l : BitVec 8) :
    opcodeField (header o a g l) = o := by
  unfold opcodeField header
  ext i hi
  simp only [BitVec.getElem_extractLsb', BitVec.getLsbD_append]
  rw [if_neg (by omega), if_neg (by omega), if_neg (by omega), BitVec.getLsbD_eq_getElem (by omega)]
  congr 1; omega

@[simp] theorem areaField_header (o : BitVec 8) (a : AreaId) (g : BitVec 12) (l : BitVec 8) :
    areaField (header o a g l) = a := by
  unfold areaField header
  ext i hi
  simp only [BitVec.getElem_extractLsb', BitVec.getLsbD_append]
  rw [if_neg (by omega), if_neg (by omega), if_pos (by omega), BitVec.getLsbD_eq_getElem (by omega)]
  congr 1; omega

@[simp] theorem lenField_header (o : BitVec 8) (a : AreaId) (g : BitVec 12) (l : BitVec 8) :
    lenField (header o a g l) = l := by
  unfold lenField header
  ext i hi
  simp only [BitVec.getElem_extractLsb', BitVec.getLsbD_append]
  rw [if_pos (by omega), BitVec.getLsbD_eq_getElem (by omega)]
  congr 1; omega

/-- Bit `n` of `ARG` is header bit `n + 8`. -/
theorem argBit_header (o : BitVec 8) (a : AreaId) (g : BitVec 12) (l : BitVec 8) (n : Nat) (h : n < 12) :
    (header o a g l).getLsbD (n + 8) = g.getLsbD n := by
  unfold header
  simp only [BitVec.getLsbD_append]
  rw [if_neg (by omega), if_pos (by omega)]
  congr 1

theorem regField_header (o : BitVec 8) (a : AreaId) (r l : BitVec 8) :
    regField (header o a (0#4 ++ r) l) = r := by
  unfold regField
  ext i hi
  rw [BitVec.getElem_extractLsb', show 8 + i = i + 8 from Nat.add_comm 8 i, argBit_header _ _ _ _ _ (by omega),
    BitVec.getLsbD_append, if_pos hi, BitVec.getLsbD_eq_getElem hi]

/-! ### Halves of a payload word -/

@[simp] theorem upperHalf_append (a b : BitVec 16) : upperHalf (a ++ b) = a := by
  unfold upperHalf
  ext i hi
  rw [BitVec.getElem_extractLsb', BitVec.getLsbD_append, if_neg (by omega), BitVec.getLsbD_eq_getElem (by omega)]
  congr 1; omega

@[simp] theorem lowerHalf_append (a b : BitVec 16) : lowerHalf (a ++ b) = b := by
  unfold lowerHalf
  ext i hi
  rw [BitVec.getElem_extractLsb', BitVec.getLsbD_append, if_pos (by omega), BitVec.getLsbD_eq_getElem (by omega)]
  congr 1; omega

theorem sectionOf_word (d : Section) : sectionOf (sectionWord d) = d := by
  simp [sectionOf, sectionWord]

theorem stripDescOf_word (d : StripDesc) : stripDescOf (stripDescWord d) = d := by
  obtain ⟨p, r, l⟩ := d
  have h1 : (stripDescWord ⟨p, r, l⟩).extractLsb' 24 8 = p := by
    unfold stripDescWord
    ext i hi
    simp only [BitVec.getElem_extractLsb', BitVec.getLsbD_append]
    rw [if_neg (by omega), if_neg (by omega), if_neg (by omega), BitVec.getLsbD_eq_getElem (by omega)]
    congr 1; omega
  have h2 : (stripDescWord ⟨p, r, l⟩).getLsbD 16 = r := by
    unfold stripDescWord
    simp only [BitVec.getLsbD_append]
    rw [if_neg (by omega), if_pos (by omega)]
    cases r <;> rfl
  have h3 : lowerHalf (stripDescWord ⟨p, r, l⟩) = l := by
    unfold stripDescWord lowerHalf
    ext i hi
    simp only [BitVec.getElem_extractLsb', BitVec.getLsbD_append]
    rw [if_pos (by omega), BitVec.getLsbD_eq_getElem (by omega)]
    congr 1; omega
  simp only [stripDescOf, h1, h2, h3]

theorem map_sectionOf_words (ws : List Section) : (ws.map sectionWord).map sectionOf = ws := by
  induction ws with
  | nil => rfl
  | cons d ds ih => simp only [List.map_cons, sectionOf_word, ih]

theorem map_stripDescOf_words (ds : List StripDesc) : (ds.map stripDescWord).map stripDescOf = ds := by
  induction ds with
  | nil => rfl
  | cons d ds ih => simp only [List.map_cons, stripDescOf_word, ih]

/-! ### The `ARG` fields of AREA_CMD and EFFECT -/

theorem getLsbD_bit1 (b : Bool) : (bit1 b).getLsbD 0 = b := by cases b <;> rfl

theorem areaCmdArg_bits (f : AreaFields) :
    (areaCmdArg f).getLsbD 0 = f.state.isSome ∧ (areaCmdArg f).getLsbD 1 = f.hue.isSome ∧
    (areaCmdArg f).getLsbD 2 = f.sat.isSome ∧ (areaCmdArg f).getLsbD 3 = f.bri.isSome ∧
    (areaCmdArg f).getLsbD 4 = f.trans.isSome ∧ (areaCmdArg f).getLsbD 8 = f.state.getD false := by
  simp only [areaCmdArg, BitVec.getLsbD_append]
  simp only [Nat.reduceLT, if_true, if_false, Nat.reduceSub, getLsbD_bit1, and_self]

theorem effectArg_bits (q : EffectRequest) :
    (effectArg q).getLsbD 3 = q.name.shapeBit ∧ (effectArg q).getLsbD 4 = q.duration.isSome ∧
    (effectArg q).extractLsb' 0 3 = q.name.code := by
  refine ⟨?_, ?_, ?_⟩
  · simp only [effectArg, BitVec.getLsbD_append]
    simp only [Nat.reduceLT, if_true, if_false, Nat.reduceSub, getLsbD_bit1]
  · simp only [effectArg, BitVec.getLsbD_append]
    simp only [Nat.reduceLT, if_true, if_false, Nat.reduceSub, getLsbD_bit1]
  · ext i hi
    simp only [effectArg, BitVec.getElem_extractLsb', BitVec.getLsbD_append]
    rw [if_pos (by omega), BitVec.getLsbD_eq_getElem (by omega)]
    congr 1; omega

theorem kindField_header (o : BitVec 8) (a : AreaId) (g : BitVec 12) (l : BitVec 8) :
    kindField (header o a g l) = g.extractLsb' 0 3 := by
  ext i hi
  simp only [kindField, BitVec.getElem_extractLsb']
  rw [Nat.zero_add, Nat.add_comm, argBit_header o a g l i (by omega)]

theorem effectNameOf_code (n : EffectName) (h : n.wf = true) : effectNameOf n.code n.shapeBit = n := by
  cases n with
  | rainbow => rfl
  | wave s => cases s <;> rfl
  | cylon => rfl
  | unnamed c =>
    simp only [EffectName.wf, Bool.and_eq_true, ne_eq, decide_eq_true_eq] at h
    simp only [effectNameOf, EffectName.code, h.1.1, h.1.2, h.2, if_false]

/-! ### Presence bits -/

theorem present_isSome {α : Type} (x : Option α) (w : Word) (read : Word → α) (h : ∀ v, x = some v → read w = v) :
    present x.isSome (some w) read = x := by
  cases x with
  | none => rfl
  | some v => simp [present, h v rfl]

namespace Machine

/-! ### A step on a whole packet -/

/-- When `CMD` starts with a whole packet of a command, a step runs the command. -/
theorem step_packet {s : State} {hdr : Word} {payload rest : List Word} (h : s.cmd = hdr :: (payload ++ rest))
    (hl : payload.length = (lenField hdr).toNat) {i : Instr} (hi : decodePacket hdr payload = some i) :
    step s = exec i { s with cmd := rest } := by
  simp only [step, fetch, h, decode]
  rw [if_neg (by simp; omega), ← hl]
  simp [hi, State.consume]

end Machine

end Sys2Proof
end

