-- ==== Sys2Proof/Laws/Queue.lean ====
section
/-! SUPPORT. Where the packets of `CMD` end (R90, R112), and what the host and the tick timer do to a queue that ends inside a
packet (R285, R313). -/

namespace Sys2Proof

theorem missingWords_append (n : Nat) (xs ys : List Word) :
    missingWords n (xs ++ ys) = missingWords (missingWords n xs) ys := by
  induction xs generalizing n with
  | nil => cases n <;> rfl
  | cons x xs ih => cases n <;> exact ih _

/-- Inside a packet every word counts. -/
theorem missingWords_of_le {n : Nat} {xs : List Word} (h : xs.length ≤ n) : missingWords n xs = n - xs.length := by
  induction xs generalizing n with
  | nil => cases n <;> rfl
  | cons x xs ih =>
    cases n with
    | zero => simp at h
    | succ n =>
      rw [missingWords, ih (by simpa using h)]
      simp

/-- After a whole packet the count starts again. -/
theorem missingWords_packet {hdr : Word} {payload : List Word} (h : payload.length = (lenField hdr).toNat)
    (rest : List Word) : missingWords 0 (hdr :: (payload ++ rest)) = missingWords 0 rest := by
  rw [missingWords, missingWords_append, missingWords_of_le (Nat.le_of_eq h), h, Nat.sub_self]

/-- Taking a packet from the head of a queue leaves its tail. -/
theorem missingWords_drop {hdr : Word} {more : List Word} (h : (lenField hdr).toNat ≤ more.length) :
    missingWords 0 (more.drop (lenField hdr).toNat) = missingWords 0 (hdr :: more) := by
  conv_rhs => rw [← List.take_append_drop (lenField hdr).toNat more]
  rw [missingWords_packet (by simpa using h)]

theorem decode_command_missing {ws rest : List Word} {i : Instr} (h : decode ws = .command i rest) :
    missingWords 0 rest = missingWords 0 ws := by
  unfold decode at h
  split at h
  · cases h
  · split at h
    · cases h
    · rename_i hl
      split at h <;> cases h
      exact missingWords_drop (Nat.le_of_not_lt hl)

theorem decode_reserved_missing {ws rest : List Word} {o : BitVec 8} (h : decode ws = .reservedOpcode o rest) :
    missingWords 0 rest = missingWords 0 ws := by
  unfold decode at h
  split at h
  · cases h
  · split at h
    · cases h
    · rename_i hl
      split at h <;> cases h
      exact missingWords_drop (Nat.le_of_not_lt hl)

theorem tickWords (n : Nat) : (List.replicate n (encode .tick)).flatten = List.replicate n 0x08000000#32 := by
  induction n with
  | zero => rfl
  | succ n ih => rw [List.replicate_succ, List.flatten_cons, ih]; rfl

theorem missingWords_ticks (n : Nat) : missingWords 0 (List.replicate n 0x08000000#32) = 0 := by
  induction n with
  | zero => rfl
  | succ n ih => exact ih

namespace Machine

/-- A queue whose last packet is whole takes the waiting TICK packets (R285). -/
theorem State.admitTicks_whole {s : State} (h : missingWords 0 s.cmd = 0) :
    s.admitTicks = { s with cmd := s.cmd ++ List.replicate s.waitingTicks 0x08000000#32, waitingTicks := 0 } := by
  rw [State.admitTicks, if_pos h, tickWords]

/-- Behind an unfinished packet they stay (R313). -/
theorem State.admitTicks_unfinished {s : State} (h : missingWords 0 s.cmd ≠ 0) : s.admitTicks = s := by
  rw [State.admitTicks, if_neg h]

/-- TICK packets wait only behind an unfinished packet. -/
theorem State.admitTicks_queue (s : State) : s.admitTicks.waitingTicks = 0 ∨ missingWords 0 s.admitTicks.cmd ≠ 0 := by
  by_cases h : missingWords 0 s.cmd = 0
  · rw [State.admitTicks_whole h]; exact .inl rfl
  · rw [State.admitTicks_unfinished h]; exact .inr h

theorem State.hostWrite_queue {s : State} (h : s.waitingTicks = 0 ∨ missingWords 0 s.cmd ≠ 0) (ws : List Word) :
    (s.hostWrite ws).waitingTicks = 0 ∨ missingWords 0 (s.hostWrite ws).cmd ≠ 0 := by
  induction ws generalizing s with
  | nil => exact h
  | cons w ws ih => exact ih (State.admitTicks_queue _)

/-- Two host writes are one. -/
theorem State.hostWrite_append (s : State) (ws ws' : List Word) : s.hostWrite (ws ++ ws') = (s.hostWrite ws).hostWrite ws' :=
  List.foldl_append

/-- Where no TICK packet waits, a host write only joins the queue (R37). -/
theorem State.hostWrite_noneWaiting {s : State} (h : s.waitingTicks = 0) (ws : List Word) :
    s.hostWrite ws = { s with cmd := s.cmd ++ ws } := by
  induction ws generalizing s with
  | nil => simp [State.hostWrite]
  | cons w ws ih =>
    have e : s.hostWriteWord w = { s with cmd := s.cmd ++ [w] } := by
      unfold State.hostWriteWord State.admitTicks
      split
      · simp [h]
      · rfl
    show State.hostWrite (s.hostWriteWord w) ws = _
    rw [e, ih (by exact h)]
    simp

/-- Words that do not finish the packet only join the queue. -/
theorem State.hostWrite_unfinished {s : State} {ws : List Word} (h : ws.length < missingWords 0 s.cmd) :
    s.hostWrite ws = { s with cmd := s.cmd ++ ws } := by
  induction ws generalizing s with
  | nil => simp [State.hostWrite]
  | cons w ws ih =>
    have hm : missingWords 0 (s.cmd ++ [w]) = missingWords 0 s.cmd - 1 := by
      rw [missingWords_append]; exact missingWords_of_le (by simp at h ⊢; omega)
    have hs : s.hostWriteWord w = { s with cmd := s.cmd ++ [w] } :=
      State.admitTicks_unfinished (by show missingWords 0 (s.cmd ++ [w]) ≠ 0; simp at h; omega)
    show State.hostWrite (s.hostWriteWord w) ws = _
    rw [hs, ih (by show ws.length < missingWords 0 (s.cmd ++ [w]); simp at h; omega)]
    simp

/-- The words that finish the packet let in the TICK packets behind it (R285, R313). -/
theorem State.hostWrite_finish {s : State} {ws : List Word} (hw : ws ≠ []) (h : ws.length = missingWords 0 s.cmd) :
    s.hostWrite ws =
      { s with cmd := s.cmd ++ ws ++ List.replicate s.waitingTicks 0x08000000#32, waitingTicks := 0 } := by
  obtain ⟨xs, w, rfl⟩ : ∃ xs w, ws = xs ++ [w] := ⟨_, _, (List.dropLast_append_getLast hw).symm⟩
  have h1 : s.hostWrite (xs ++ [w]) = (s.hostWrite xs).hostWriteWord w := by simp [State.hostWrite]
  have hlt : xs.length < missingWords 0 s.cmd := by simp at h; omega
  rw [h1, State.hostWrite_unfinished hlt]
  have hm : missingWords 0 ((s.cmd ++ xs) ++ [w]) = 0 := by
    rw [List.append_assoc, missingWords_append, missingWords_of_le (Nat.le_of_eq h), h, Nat.sub_self]
  rw [State.hostWriteWord, State.admitTicks_whole hm, List.append_assoc]

end Machine

end Sys2Proof
end

