-- ==== Sys2Proof/Laws/Invariant.lean ====
section
/-! SUPPORT. What each shared operation does to the invariant of the block. -/

namespace Sys2Proof.Machine

/-- A flag stays among the bits of `STATUS` that hold one (R46). -/
theorem flagBits_or_mask {x : Word} (h : x &&& ~~~flagBits = 0#32) (b : StatusBit) :
    (x ||| b.mask) &&& ~~~flagBits = 0#32 := by
  have hb : b.mask &&& ~~~flagBits = 0#32 := by cases b <;> decide
  rw [BitVec.and_comm] at *
  ext i hi
  have h1 := congrArg (fun z => z.getLsbD i) h
  have h2 := congrArg (fun z => z.getLsbD i) hb
  simp [hi] at h1 h2 ⊢
  simp_all

theorem flag_unconfigured (s : State) (b : StatusBit) (h : (s.flag b).flagged .configured = false) :
    s.flagged .configured = false := by
  rw [State.flagged_configured] at *
  simp [State.flag] at h
  exact h.1

theorem Inv.flag {s : State} (h : Inv s) (b : StatusBit) : Inv (s.flag b) where
  build := h.build
  table := h.table
  buffer := { h.buffer with configured := fun hc => h.buffer.configured (flag_unconfigured s b hc) }
  areas := h.areas
  colors := h.colors
  ports := { h.ports with status := flagBits_or_mask h.ports.status b }

/-- The invariant does not speak of `RSP`, the wire or the clock's reading count, and lets time pass. -/
theorem Inv.congr {s t : State} (h : Inv s) (e0 : t.build = s.build) (e1 : t.strips = s.strips) (e2 : t.npix = s.npix)
    (e3 : t.pixbuf = s.pixbuf) (e4 : t.areas = s.areas) (e5 : t.tick = s.tick) (e6 : t.ctrl = s.ctrl)
    (e7 : t.status = s.status) (e8 : t.irqDisable = s.irqDisable) (e9 : s.now ≤ t.now)
    (e10 : t.waitingTicks = 0 ∨ missingWords 0 t.cmd ≠ 0) : Inv t := by
  obtain ⟨h0, ht, ⟨h1, h2, h3, h4, h5, h6⟩, h7, h8, ⟨h9, h10, h11, h12, -⟩⟩ := h
  have ea := State.area?_congr e4
  refine ⟨by rw [e0]; exact h0, by rw [e0, e4]; exact ht, ⟨by rw [e1, e2]; exact h1, by rw [e0, e1]; exact h2,
    by rw [e0, e2]; exact h3, by rw [e3]; exact h4, by rw [e2, e3]; exact h5, ?_⟩, ?_, ?_,
    ⟨by rw [e6]; exact h9, by rw [e7]; exact h10, by rw [e8]; exact h11, ?_, e10⟩⟩
  · rw [State.flagged_configured] at *; rw [e7, e1]; exact h6
  · intro a r h; rw [e0, e5]; exact h7 a r (by rw [← ea]; exact h)
  · intro a r h; exact h8 a r (by rw [← ea]; exact h)
  · intro r hr; rw [e1] at hr; exact Nat.le_trans (h12 r hr) e9

/-- Taking a whole packet leaves the end of the queue where it is. -/
theorem Inv.consume {s : State} (h : Inv s) {rest : List Word} (hr : missingWords 0 rest = missingWords 0 s.cmd) :
    Inv (s.consume rest) :=
  h.congr rfl rfl rfl rfl rfl rfl rfl rfl rfl (Nat.le_refl _) (by
    show s.waitingTicks = 0 ∨ missingWords 0 rest ≠ 0
    rw [hr]; exact h.ports.queue)

theorem Inv.respond {s : State} (h : Inv s) (w : Word) : Inv (s.respond w) :=
  h.congr rfl rfl rfl rfl rfl rfl rfl rfl rfl (Nat.le_refl _) h.ports.queue

theorem Inv.setArea {s : State} (h : Inv s) (a : Nat) {r : Area} (h1 : AreaInv s.build.maxMapLen s.tick r)
    (h2 : ColorInv r) : Inv (s.setArea a r) := by
  obtain ⟨b0, ht, b, ha, hc, p⟩ := h
  refine ⟨b0, by simpa using ht, ⟨b.1, b.2, b.3, b.4, b.5, b.6⟩, ?_, ?_, ⟨p.1, p.2, p.3, p.4, p.5⟩⟩
  · intro b r' h
    rw [State.area?_setArea] at h
    split at h
    · split at h
      · cases h; exact h1
      · cases h
    · exact ha b r' h
  · intro b r' h
    rw [State.area?_setArea] at h
    split at h
    · split at h
      · cases h; exact h2
      · cases h
    · exact hc b r' h

theorem BufferInv.setPixels {s : State} (b : BufferInv s) (ws : List (Index × Pixel)) : BufferInv (s.setPixels ws) := by
  refine ⟨by simpa using b.1, by simpa using b.2, by simpa using b.3, State.setPixels_wf b.4 ws, ?_, ?_⟩
  · simpa using State.setPixels_inside b.5 ws
  · intro h
    rw [State.setPixels_strips]
    apply b.6
    rw [State.flagged_configured] at *
    rw [State.setPixels_status s ws] at h
    split at h
    · simp at h; exact h.1
    · exact h

theorem Inv.setPixels {s : State} (h : Inv s) (ws : List (Index × Pixel)) : Inv (s.setPixels ws) := by
  obtain ⟨b0, ht, b, ha, hc, p⟩ := h
  refine ⟨by simpa using b0, by simpa using ht, b.setPixels ws, ?_, ?_,
    ⟨by simpa using p.1, ?_, by simpa using p.3, by simpa using p.4, by simpa using p.5⟩⟩
  · intro a r h
    rw [State.area?_congr (State.setPixels_areas s ws)] at h
    rw [State.setPixels_tick, State.setPixels_build]; exact ha a r h
  · intro a r h
    rw [State.area?_congr (State.setPixels_areas s ws)] at h
    exact hc a r h
  · rw [State.setPixels_status s ws]
    split
    · exact flagBits_or_mask p.2 .badIndex
    · exact p.2

theorem Inv.showAll {s t : State} (h : Inv s) (ht : showAll s = .next t) : Inv t := by
  have f := showAll_frame ht
  have hsh := showFrom_shown ht h.ports.shown
  have hlen : t.strips.length = s.strips.length := by
    have := congrArg List.length f.geometry
    simpa [stripGeometry] using this
  obtain ⟨b0, htab, b, ha, hc, p⟩ := h
  refine ⟨by rw [f.build]; exact b0, by rw [f.build, f.areas]; exact htab,
    ⟨?_, by rw [hlen, f.build]; exact b.2, by rw [f.npix, f.build]; exact b.3, by rw [f.pixbuf]; exact b.4,
    by rw [f.npix, f.pixbuf]; exact b.5, ?_⟩, ?_, ?_,
    ⟨by rw [f.ctrl]; exact p.1, by rw [f.status]; exact p.2, f.irq p.3, hsh, by rw [f.waiting, f.cmd]; exact p.5⟩⟩
  · rw [f.npix]; exact (stripsContiguous_geometry f.geometry _ _).mpr b.1
  · intro h
    rw [State.flagged_configured, f.status, ← State.flagged_configured] at h
    exact List.eq_nil_of_length_eq_zero (by rw [hlen, b.6 h]; rfl)
  · intro a r h; rw [f.tick, f.build]; exact ha a r (by rw [← State.area?_congr f.areas]; exact h)
  · intro a r h; exact hc a r (by rw [← State.area?_congr f.areas]; exact h)

theorem BufferInv.ticked {s : State} (h : BufferInv s) : BufferInv s.ticked := by
  obtain ⟨b1, b2, b3, b4, b5, b6⟩ := h.setPixels (tickWrites s)
  exact ⟨b1, b2, b3, b4, b5, b6⟩

theorem Inv.ticked {s : State} (h : Inv s) : Inv s.ticked := by
  obtain ⟨b0, ht, b, ha, hc, p⟩ := h.setPixels (tickWrites s)
  refine ⟨b0, by simpa using h.table, h.buffer.ticked, ?_, ?_, ⟨p.1, p.2, p.3, p.4, p.5⟩⟩
  · intro a r' h'
    rw [State.area?_ticked] at h'
    obtain ⟨r, hr, rfl⟩ := Option.map_eq_some_iff.mp h'
    obtain ⟨a1, a2, a3, a4⟩ := h.areas _ _ hr
    rw [State.ticked_tick, State.ticked_build]
    rcases tickedArea_cases s.tick r with e | e <;> rw [e]
    · exact ⟨a1, a2, a3, fun e he => Nat.le_succ_of_le (a4 e he)⟩
    · exact ⟨a1, by simp, by simp, by simp⟩
  · intro a r' h'
    rw [State.area?_ticked] at h'
    obtain ⟨r, hr, rfl⟩ := Option.map_eq_some_iff.mp h'
    obtain ⟨c1, c2⟩ := h.colors _ _ hr
    rcases tickedArea_cases s.tick r with e | e <;> rw [e]
    · exact ⟨c1, c2⟩
    · exact ⟨c1, by simp⟩

/-- A TICK completes when the strips lie in the buffer (R181, R241). -/
theorem execTick_next {s : State} (h : BufferInv s) : ∃ t, execTick s = .next t := by
  rw [execTick_eq]
  split
  · exact showAll_next h.ticked.contiguous
  · exact ⟨_, rfl⟩

end Sys2Proof.Machine
end

