-- ==== Sys2Proof/Laws/PerInstr.lean ====
section
/-! SUPPORT. Statements made for every command, one lemma per constructor of `Instr`: the payload of a well-formed command fits
the 8-bit `LEN` (R91). -/

namespace Sys2Proof.Laws.PayloadFits

/-- The payload of a well-formed command has at most 255 words. -/
def Statement (i : Instr) : Prop := i.wf = true → i.payload.length ≤ maxPayload

theorem nop : Statement .nop := fun _ => by decide

theorem configure (strips : List StripDesc) : Statement (.configure strips) := fun h => by
  simpa [Instr.wf, Instr.payload] using h

theorem defineArea (area : AreaId) (sections : List Section) : Statement (.defineArea area sections) := fun h => by
  simpa [Instr.wf, Instr.payload] using h

theorem setPixel (write : Option PixelWrite) : Statement (.setPixel write) := fun _ => by
  cases write <;> simp [Instr.payload, maxPayload]

theorem showStrips : Statement .showStrips := fun _ => by decide

theorem areaCmd (area : AreaId) (fields : AreaFields) : Statement (.areaCmd area fields) := fun _ => by
  simp [Instr.payload, maxPayload]

theorem effect (area : AreaId) (request : Option EffectRequest) : Statement (.effect area request) := fun _ => by
  rcases request with _ | ⟨_, _, _, _ | _⟩ <;> simp [Instr.payload, maxPayload]

theorem fillArea (area : AreaId) (color : Option Color) : Statement (.fillArea area color) := fun _ => by
  cases color <;> simp [Instr.payload, maxPayload, color2Words]

theorem tick : Statement .tick := fun _ => by decide

theorem query (area : AreaId) : Statement (.query area) := fun _ => by simp [Instr.payload]

theorem convert (color : Option Color) : Statement (.convert color) := fun _ => by
  cases color <;> simp [Instr.payload, maxPayload, color2Words]

theorem rdreg (reg : BitVec 8) : Statement (.rdreg reg) := fun _ => by simp [Instr.payload]

theorem wrreg (reg : BitVec 8) (value : Option Word) : Statement (.wrreg reg value) := fun _ => by
  cases value <;> simp [Instr.payload, maxPayload]

/-- Every command. -/
theorem all (i : Instr) : Statement i := by
  cases i with
  | nop => exact nop
  | configure strips => exact configure strips
  | defineArea area sections => exact defineArea area sections
  | setPixel write => exact setPixel write
  | showStrips => exact showStrips
  | areaCmd area fields => exact areaCmd area fields
  | effect area request => exact effect area request
  | fillArea area color => exact fillArea area color
  | tick => exact tick
  | query area => exact query area
  | convert color => exact convert color
  | rdreg reg => exact rdreg reg
  | wrreg reg value => exact wrreg reg value

end Sys2Proof.Laws.PayloadFits
end

