-- ==== Sys2Proof/Laws/SineTable.lean ====
section
/-! SUPPORT. Rational bounds on the cosines the sine table samples (R218): the angle π/128 by halving a right angle, its first 64
multiples by adding it, and the comparison of each table entry with them in integers. -/

namespace Sys2Proof.Machine

/-- The scale of the bounds. -/
def boxScale : Int := 10 ^ 18

/-- Bounds on a cosine and a sine, times `boxScale`. -/
structure AngleBox where
  cosLo : Int
  cosHi : Int
  sinLo : Int
  sinHi : Int
  deriving DecidableEq, Repr

/-- A box holds an angle. -/
structure AngleBox.Holds (b : AngleBox) (x : ℝ) : Prop where
  cosLo : (b.cosLo : ℝ) ≤ 10 ^ 18 * Real.cos x
  cosHi : 10 ^ 18 * Real.cos x ≤ b.cosHi
  sinLo : (b.sinLo : ℝ) ≤ 10 ^ 18 * Real.sin x
  sinHi : 10 ^ 18 * Real.sin x ≤ b.sinHi

/-- A box whose lower bounds are not negative: an angle of the first quadrant. -/
def AngleBox.first (b : AngleBox) : Bool := 0 ≤ b.cosLo && 0 ≤ b.sinLo

/-- The sum of two angles, rounded outwards. -/
def AngleBox.add (b o : AngleBox) : AngleBox :=
  { cosLo := (b.cosLo * o.cosLo - b.sinHi * o.sinHi) / boxScale
    cosHi := (b.cosHi * o.cosHi - b.sinLo * o.sinLo) / boxScale + 1
    sinLo := (b.sinLo * o.cosLo + b.cosLo * o.sinLo) / boxScale
    sinHi := (b.sinHi * o.cosHi + b.cosHi * o.sinHi) / boxScale + 1 }

theorem boxScale_cast : ((boxScale : Int) : ℝ) = 10 ^ 18 := by norm_num [boxScale]

theorem scaled_floor {n : Int} {x : ℝ} (h : (n : ℝ) ≤ 10 ^ 18 * (10 ^ 18 * x)) : ((n / boxScale : Int) : ℝ) ≤ 10 ^ 18 * x := by
  have h1 : n / boxScale * boxScale ≤ n := Int.ediv_mul_le n (by decide)
  have h2 : ((n / boxScale : Int) : ℝ) * 10 ^ 18 ≤ n := by
    have : ((n / boxScale * boxScale : Int) : ℝ) ≤ n := by exact_mod_cast h1
    rw [Int.cast_mul, boxScale_cast] at this
    exact this
  linarith

theorem scaled_ceil {n : Int} {x : ℝ} (h : 10 ^ 18 * (10 ^ 18 * x) ≤ (n : ℝ)) :
    10 ^ 18 * x ≤ ((n / boxScale + 1 : Int) : ℝ) := by
  have h1 : n < (n / boxScale + 1) * boxScale := Int.lt_ediv_add_one_mul_self n (by decide)
  have h2 : (n : ℝ) < ((n / boxScale + 1 : Int) : ℝ) * 10 ^ 18 := by
    have : ((n : Int) : ℝ) < ((n / boxScale + 1) * boxScale : Int) := by exact_mod_cast h1
    rw [Int.cast_mul, boxScale_cast] at this
    exact this
  linarith

/-- Adding angles of the first quadrant is sound. -/
theorem AngleBox.Holds.add {b o : AngleBox} {x y : ℝ} (hb : b.Holds x) (ho : o.Holds y) (fb : b.first = true)
    (fo : o.first = true) : (b.add o).Holds (x + y) := by
  simp only [AngleBox.first, Bool.and_eq_true, decide_eq_true_eq] at fb fo
  have b1 : (0 : ℝ) ≤ b.cosLo := by exact_mod_cast fb.1
  have b2 : (0 : ℝ) ≤ b.sinLo := by exact_mod_cast fb.2
  have o1 : (0 : ℝ) ≤ o.cosLo := by exact_mod_cast fo.1
  have o2 : (0 : ℝ) ≤ o.sinLo := by exact_mod_cast fo.2
  obtain ⟨p1, p2, p3, p4⟩ := hb
  obtain ⟨q1, q2, q3, q4⟩ := ho
  constructor
  · apply scaled_floor
    rw [Real.cos_add]
    push_cast
    have h1 := mul_le_mul p1 q1 o1 (b1.trans p1)
    have h2 := mul_le_mul p4 q4 (o2.trans q3) ((b2.trans p3).trans p4)
    linarith
  · apply scaled_ceil
    rw [Real.cos_add]
    push_cast
    have h1 := mul_le_mul p2 q2 (o1.trans q1) ((b1.trans p1).trans p2)
    have h2 := mul_le_mul p3 q3 o2 (b2.trans p3)
    linarith
  · apply scaled_floor
    rw [Real.sin_add]
    push_cast
    have h1 := mul_le_mul p3 q1 o1 (b2.trans p3)
    have h2 := mul_le_mul p1 q3 o2 (b1.trans p1)
    linarith
  · apply scaled_ceil
    rw [Real.sin_add]
    push_cast
    have h1 := mul_le_mul p4 q2 (o1.trans q1) ((b2.trans p3).trans p4)
    have h2 := mul_le_mul p2 q4 (o2.trans q3) ((b1.trans p1).trans p2)
    linarith

/-- Half an angle: a lower bound of its cosine. -/
theorem cos_half_ge {y lo m : ℝ} (h : lo ≤ 10 ^ 18 * Real.cos (2 * y)) (hy : 0 ≤ Real.cos y)
    (hm : 2 * m ^ 2 ≤ 10 ^ 18 * (10 ^ 18 + lo)) : m ≤ 10 ^ 18 * Real.cos y := by
  rw [Real.cos_two_mul] at h
  exact (abs_le_of_sq_le_sq' (by nlinarith) (by positivity)).2

/-- Half an angle: an upper bound of its cosine. -/
theorem cos_half_le {y hi m : ℝ} (h : 10 ^ 18 * Real.cos (2 * y) ≤ hi) (h0 : 0 ≤ m)
    (hm : 10 ^ 18 * (10 ^ 18 + hi) ≤ 2 * m ^ 2) : 10 ^ 18 * Real.cos y ≤ m := by
  rw [Real.cos_two_mul] at h
  exact (abs_le_of_sq_le_sq' (by nlinarith) h0).2

/-- Half an angle: bounds of its sine. -/
theorem sin_half {y lo hi m k : ℝ} (h : lo ≤ 10 ^ 18 * Real.cos (2 * y)) (h' : 10 ^ 18 * Real.cos (2 * y) ≤ hi)
    (hy : 0 ≤ Real.sin y) (hm : 2 * m ^ 2 ≤ 10 ^ 18 * (10 ^ 18 - hi)) (h0 : 0 ≤ k)
    (hk : 10 ^ 18 * (10 ^ 18 - lo) ≤ 2 * k ^ 2) : m ≤ 10 ^ 18 * Real.sin y ∧ 10 ^ 18 * Real.sin y ≤ k := by
  rw [Real.cos_two_mul, Real.cos_sq'] at h h'
  exact ⟨(abs_le_of_sq_le_sq' (by nlinarith) (by positivity)).2, (abs_le_of_sq_le_sq' (by nlinarith) h0).2⟩

/-- `π/128`. -/
def oneStep : AngleBox :=
  { cosLo := 999698818696204219
    cosHi := 999698818696204221
    sinLo := 24541228522912285
    sinHi := 24541228522912296 }

/-- The cosine of an angle up to a right angle is not negative. -/
theorem cos_pi_div_nonneg {d : ℝ} (h : 2 ≤ d) : 0 ≤ Real.cos (Real.pi / d) := by
  have := Real.pi_pos
  refine Real.cos_nonneg_of_neg_pi_div_two_le_of_le ?_ ?_
  · have : 0 ≤ Real.pi / d := by positivity
    linarith
  · exact div_le_div_of_nonneg_left this.le (by norm_num) h

/-- One halving, from `π/d` to `π/(2d)`. -/
theorem cos_halving {d lo hi m k : ℝ} (hd : 2 ≤ d)
    (h : lo ≤ 10 ^ 18 * Real.cos (Real.pi / d) ∧ 10 ^ 18 * Real.cos (Real.pi / d) ≤ hi)
    (hm : 2 * m ^ 2 ≤ 10 ^ 18 * (10 ^ 18 + lo)) (h0 : 0 ≤ k) (hk : 10 ^ 18 * (10 ^ 18 + hi) ≤ 2 * k ^ 2) :
    m ≤ 10 ^ 18 * Real.cos (Real.pi / (2 * d)) ∧ 10 ^ 18 * Real.cos (Real.pi / (2 * d)) ≤ k := by
  have e : Real.pi / d = 2 * (Real.pi / (2 * d)) := by field_simp
  rw [e] at h
  exact ⟨cos_half_ge h.1 (cos_pi_div_nonneg (by linarith)) hm, cos_half_le h.2 h0 hk⟩

theorem cos_pi_div_64 : (998795456205172392 : ℝ) ≤ 10 ^ 18 * Real.cos (Real.pi / 64) ∧
    10 ^ 18 * Real.cos (Real.pi / 64) ≤ 998795456205172393 := by
  have h2 : (0 : ℝ) ≤ 10 ^ 18 * Real.cos (Real.pi / 2) ∧ 10 ^ 18 * Real.cos (Real.pi / 2) ≤ 0 := by simp
  have h4 := cos_halving (m := 707106781186547524) (k := 707106781186547525) (by norm_num) h2
    (by norm_num) (by norm_num) (by norm_num)
  have h8 := cos_halving (m := 923879532511286756) (k := 923879532511286757) (by norm_num) h4
    (by norm_num) (by norm_num) (by norm_num)
  have h16 := cos_halving (m := 980785280403230449) (k := 980785280403230450) (by norm_num) h8
    (by norm_num) (by norm_num) (by norm_num)
  have h32 := cos_halving (m := 995184726672196886) (k := 995184726672196887) (by norm_num) h16
    (by norm_num) (by norm_num) (by norm_num)
  have h64 := cos_halving (m := 998795456205172392) (k := 998795456205172393) (by norm_num) h32
    (by norm_num) (by norm_num) (by norm_num)
  norm_num at h64 ⊢
  exact h64

theorem oneStep_holds : oneStep.Holds (Real.pi / 128) := by
  have h64 := cos_pi_div_64
  have e : Real.pi / 64 = 2 * (Real.pi / 128) := by ring
  have hc := cos_halving (m := 999698818696204219) (k := 999698818696204221) (by norm_num) h64
    (by norm_num) (by norm_num) (by norm_num)
  rw [e] at h64
  have hs : 0 ≤ Real.sin (Real.pi / 128) :=
    Real.sin_nonneg_of_nonneg_of_le_pi (by positivity) (by have := Real.pi_pos; linarith)
  have hb := sin_half (m := 24541228522912285) (k := 24541228522912296) h64.1 h64.2 hs
    (by norm_num) (by norm_num) (by norm_num)
  rw [show (2 : ℝ) * 64 = 128 by norm_num] at hc
  exact ⟨by simpa [oneStep] using hc.1, by simpa [oneStep] using hc.2, by simpa [oneStep] using hb.1,
    by simpa [oneStep] using hb.2⟩

/-- `k·π/128`. -/
def angleBox : Nat → AngleBox
  | 0 => { cosLo := boxScale, cosHi := boxScale, sinLo := 0, sinHi := 0 }
  | k + 1 => (angleBox k).add oneStep

theorem angleBox_first : ∀ k : Fin 64, (angleBox k).first = true := by decide +kernel

/-- The box of every multiple of π/128 up to the right angle holds it. -/
theorem angleBox_holds {k : Nat} (hk : k ≤ 64) : (angleBox k).Holds (k * Real.pi / 128) := by
  induction k with
  | zero => simp only [angleBox]; constructor <;> simp [boxScale_cast]
  | succ k ih =>
    have e : ((k + 1 : Nat) : ℝ) * Real.pi / 128 = k * Real.pi / 128 + Real.pi / 128 := by push_cast; ring
    rw [e]
    exact (ih (by omega)).add oneStep_holds (angleBox_first ⟨k, by omega⟩) (by decide)

/-- `e` is the rounded sample `32768·(1 − c)` for every `c` in a box of a cosine. -/
def roundsTo (e : Nat) (lo hi : Int) : Bool :=
  (2 * (e : Int) - 1) * boxScale ≤ 65536 * (boxScale - hi) && 65536 * (boxScale - lo) < (2 * (e : Int) + 1) * boxScale

theorem roundsTo_floor {e : Nat} {lo hi : Int} {c : ℝ} (h : roundsTo e lo hi = true) (h1 : (lo : ℝ) ≤ 10 ^ 18 * c)
    (h2 : 10 ^ 18 * c ≤ hi) : (e : Int) = ⌊65536 * (1 - c) / 2 + 1 / 2⌋ := by
  simp only [roundsTo, Bool.and_eq_true, decide_eq_true_eq] at h
  obtain ⟨a, b⟩ := h
  have a' : (2 * (e : ℝ) - 1) * 10 ^ 18 ≤ 65536 * (10 ^ 18 - hi) := by rw [← boxScale_cast]; exact_mod_cast a
  have b' : 65536 * (10 ^ 18 - (lo : ℝ)) < (2 * (e : ℝ) + 1) * 10 ^ 18 := by rw [← boxScale_cast]; exact_mod_cast b
  symm
  rw [Int.floor_eq_iff]
  push_cast
  constructor <;> linarith

/-- The entries of the first half turn against the boxes of the first quadrant: entry `k` has the cosine of `k·π/128`, entry
`128 − k` its negative. -/
theorem sinLut_near : ∀ k : Fin 65, roundsTo (lutEntry sinLut k) (angleBox k).cosLo (angleBox k).cosHi = true ∧
    roundsTo (lutEntry sinLut (128 - k)) (-(angleBox k).cosHi) (-(angleBox k).cosLo) = true := by decide +kernel

end Sys2Proof.Machine
end

