-- ==== Sys2Proof/Laws/System.lean ====
section
/-! SUPPORT. The registers that show one bit for each Area (R51, R52). -/

namespace Sys2Proof.Machine

theorem bitmap_testBit (bs : List Bool) (k : Nat) : (bitmap bs).testBit k = (bs[k]?).getD false := by
  induction bs generalizing k with
  | nil => simp [bitmap]
  | cons b bs ih =>
    unfold bitmap
    cases k with
    | zero => cases b <;> simp [Nat.testBit_zero]
    | succ k =>
      rw [Nat.testBit_succ, show (b.toNat + 2 * bitmap bs) / 2 = bitmap bs by have := b.toNat_lt; omega, ih]
      simp

theorem bitmap_lt (bs : List Bool) : bitmap bs < 2 ^ bs.length := by
  induction bs with
  | nil => simp [bitmap]
  | cons b bs ih => unfold bitmap; rw [List.length_cons, Nat.pow_succ]; cases b <;> simp <;> omega

/-- Bit `a` of a register with one bit for each Area (R51, R52), in a table of at most 32 Areas. -/
theorem readReg_bit {s : State} (hl : s.areas.length ≤ 32) (f : Area → Bool) (a : Nat) :
    (BitVec.ofNat 32 (bitmap (s.areas.map f))).getLsbD a = ((s.area? a).map f).getD false := by
  rw [BitVec.getLsbD_ofNat, bitmap_testBit, List.getElem?_map]
  change _ = ((s.areas[a]?).map f).getD false
  by_cases ha : a < s.areas.length
  · simp [show a < 32 by omega]
  · simp [List.getElem?_eq_none (Nat.le_of_not_lt ha)]

end Sys2Proof.Machine
end

