-- ==== Sys2Proof/Laws/Timeless.lean ====
section
/-! SUPPORT. `State.timeless`, the part of a state that does not depend on the clock, and what each shared operation does to
it (R197). -/

namespace Sys2Proof.Machine

theorem stripGeometry_idem (rs : List Strip) : stripGeometry (stripGeometry rs) = stripGeometry rs := by
  simp [stripGeometry]
theorem pulsesOf_idem (es : List WireEvent) : pulsesOf (pulsesOf es) = pulsesOf es := by simp [pulsesOf]
theorem State.timeless_idem (s : State) : s.timeless.timeless = s.timeless := by simp [State.timeless, stripGeometry_idem,
    pulsesOf_idem]

theorem resolveIndex_geometry (rs : List Strip) (li : Nat) : resolveIndex (stripGeometry rs) li = resolveIndex rs li := by
  induction rs with
  | nil => rfl
  | cons r rs ih =>
    simp only [stripGeometry, List.map_cons, resolveIndex] at ih ⊢
    rw [ih]; rfl

theorem State.timeless_setPixels (ws : List (Index × Pixel)) (s : State) : (s.setPixels ws).timeless = s.timeless.setPixels
    ws := by
  induction ws generalizing s with
  | nil => rfl
  | cons w ws ih =>
    rw [State.setPixels_cons, State.setPixels_cons, ih]
    congr 1
    unfold State.setPixel
    split
    · rename_i h; rw [if_pos (by exact h)]; rfl
    · rename_i h; rw [if_neg (by exact h)]; rfl

theorem State.timeless_conversion (s : State) : s.timeless.conversion = s.conversion := rfl

theorem State.timeless_frame (s : State) (k : Nat) (r : Strip) (es : List WireEvent) (he : ∀ e ∈ es, e.isPulse = true) :
   (((s.openFrame k r).emit es).closeFrame k).timeless = { s.timeless with irqDisable := false, wire := pulsesOf s.wire ++
       es } := by
  have e : pulsesOf es = es := List.filter_eq_self.mpr he
  apply State.ext
  case strips => simp [State.timeless, stripGeometry_modify]
  case wire =>
    simp only [State.timeless, State.closeFrame_wire, State.emit_wire, State.openFrame_wire, pulsesOf_append, e]
    simp [pulsesOf, WireEvent.isPulse]
  all_goals simp [State.timeless]

theorem readPixels_timeless (s : State) (is : List Nat) : readPixels s.timeless is = readPixels s is := readPixels_congr
    (s := s) (t := s.timeless) rfl rfl is

theorem State.timeless_strip (s : State) (k : Nat) : s.timeless.strips[k]? = (s.strips[k]?).map fun r =>
    { r with lastShown := 0 } := by
  simp [State.timeless, stripGeometry]

theorem showStrip_timeless (s : State) (k : Nat) : timelessOutcome (showStrip s k) =
    timelessOutcome (showStrip s.timeless k) := by
  unfold showStrip
  rw [State.timeless_strip]
  cases h : s.strips[k]? with
  | none => simp [timelessOutcome, State.timeless_idem]
  | some r =>
    simp only [Option.map_some]
    split
    · simp [timelessOutcome, State.timeless_idem]
    · unfold transmit
      rw [readPixels_timeless]
      have : Strip.indices { r with lastShown := 0 } = r.indices := rfl
      rw [this]
      split
      · rfl
      · simp only [timelessOutcome]
        rw [State.timeless_frame _ _ _ _ (fun e he => framePulses_isPulse he), State.timeless_frame _ _ _ _
            (fun e he => framePulses_isPulse he), State.timeless_idem]
        simp [State.timeless, pulsesOf_idem]

theorem andThen_timeless {o o' : Host.Outcome State Fault Refusal} {f} (h : timelessOutcome o = timelessOutcome o')
    (hf : ∀ s s' : State, s.timeless = s'.timeless → timelessOutcome (f s) = timelessOutcome (f s')) :
   timelessOutcome (andThen o f) = timelessOutcome (andThen o' f) := by
  cases o <;> cases o' <;> simp [timelessOutcome, andThen] at h ⊢
  · exact hf _ _ h
  · exact h
  · exact h

theorem showFrom_timeless (ks : List Nat) (s s' : State) (h : s.timeless = s'.timeless) : timelessOutcome (showFrom ks s) =
    timelessOutcome (showFrom ks s') := by
  induction ks generalizing s s' with
  | nil => simp [showFrom, timelessOutcome, h]
  | cons k ks ih =>
    simp only [showFrom]
    apply andThen_timeless
    · rw [showStrip_timeless s, showStrip_timeless s', h]
    · exact ih

theorem showAll_timeless (s s' : State) (h : s.timeless = s'.timeless) : timelessOutcome (showAll s) =
    timelessOutcome (showAll s') := by
  unfold showAll
  have : s.strips.length = s'.strips.length := by
    have := congrArg (fun x => x.strips.length) h
    simpa [State.timeless, stripGeometry] using this
  rw [this]; exact showFrom_timeless _ _ _ h

theorem tickWrites_timeless (s : State) : tickWrites s.timeless = tickWrites s := rfl
theorem State.timeless_ticked (s : State) : s.ticked.timeless = s.timeless.ticked := by
  unfold State.ticked
  rw [tickWrites_timeless, ← State.timeless_setPixels]
  rfl

theorem logicalToPhysical_timeless (li : Nat) (s : State) : logicalToPhysical s.timeless li =
    ((logicalToPhysical s li).1, (logicalToPhysical s li).2.timeless) := by
  unfold logicalToPhysical
  have : resolveIndex s.timeless.strips li = resolveIndex s.strips li := resolveIndex_geometry _ _
  rw [this]
  split <;> rfl
theorem resolveAll_timeless (lis : List Nat) (s : State) : resolveAll lis s.timeless =
    ((resolveAll lis s).1, (resolveAll lis s).2.timeless) := by
  induction lis generalizing s with
  | nil => rfl
  | cons li lis ih =>
    unfold resolveAll
    rw [logicalToPhysical_timeless]; simp only [ih]
theorem buildMap_timeless (ws) (s : State) : buildMap ws s.timeless = ((buildMap ws s).1, (buildMap ws s).2.timeless) := by
  unfold buildMap
  rw [show s.timeless.build = s.build from rfl]
  split
  · rfl
  · exact resolveAll_timeless _ _

theorem stripGeometry_placeStrips (n : Nat) (ds : List StripDesc) : stripGeometry (placeStrips n ds) = placeStrips n ds := by
  induction ds generalizing n with
  | nil => rfl
  | cons d ds ih =>
    have := ih (n + d.length.toNat)
    simp only [stripGeometry, placeStrips, List.map_cons] at this ⊢
    rw [this]

end Sys2Proof.Machine
end

