-- ==== Sys2Proof/Laws/Trace.lean ====
section
/-! SUPPORT. What a show puts on the wire, said once: its frames, its pulses, the times of its frames, and the
strips it leaves alone, and what a reset leaves there.  `sentStrips` and `shownPulses` of the statements are `isSent` and `sentBy` over all strips. -/

namespace Sys2Proof.Machine

/-- What strip `k` sends in a show that starts in `s`. -/
def sentBy (s : State) (k : Nat) : List WireEvent :=
  match s.strips[k]? with
  | none => []
  | some r => framePulses s.build.wireOrder r.pin (stripPixels s r)
/-- Whether strip `k` is sent: it has pixels (R249). -/
def isSent (s : State) (k : Nat) : Bool := decide ((s.strips[k]?.map fun r => r.length.toNat).getD 0 ≠ 0)

theorem isSent_geometry {s t : State} (h : stripGeometry t.strips = stripGeometry s.strips) (k : Nat) : isSent t k =
    isSent s k := by
  have := congrArg (fun l => (l[k]?).map fun r => r.length.toNat) h
  simp [stripGeometry, Function.comp_def] at this
  simp only [isSent, this]
theorem sentBy_geometry {s t : State} (h : stripGeometry t.strips = stripGeometry s.strips) (hp : t.pixbuf = s.pixbuf)
    (hb : t.build = s.build) (k : Nat) : sentBy t k = sentBy s k := by
  have := congrArg (fun l => (l[k]?).map fun r => (r.pin, r.length, r.offset)) h
  simp [stripGeometry, Function.comp_def] at this
  unfold sentBy
  cases h1 : t.strips[k]? <;> cases h2 : s.strips[k]? <;> simp_all
  simp [stripPixels, Strip.indices, this, hp]

/-- What the turns of the strips `ks` do from `s` to `t`: the events `new` they put on the wire. -/
structure ShowTrace (ks : List Nat) (s t : State) (new : List WireEvent) : Prop where
  wire : t.wire = s.wire ++ new
  frames : framesOf new = ks.filter (isSent s)
  pulses : pulsesOf new = ks.flatMap (sentBy s)
  start : ∀ k a, WireEvent.frameStart k a ∈ new → k ∈ ks ∧ ∃ r, s.strips[k]? = some r ∧ r.lastShown + s.build.resetUs ≤ a ∧ s.now ≤ a ∧
      a ≤ t.now
  stop : ∀ k b, WireEvent.frameEnd k b ∈ new → k ∈ framesOf new ∧ ∃ r, t.strips[k]? = some r ∧ r.lastShown = b ∧ b ≤ t.now
  whole : ∀ k ∈ framesOf new, ∃ r a b, t.strips[k]? = some r ∧ r.lastShown = b ∧ a ≤ b ∧ b ≤ t.now ∧
    WireEvent.frameStart k a :: (framePulses s.build.wireOrder r.pin (stripPixels t r) ++ [.frameEnd k b]) <:+: new
  others : ∀ k, k ∉ framesOf new → t.strips[k]? = s.strips[k]?
  still : framesOf new = [] → t.now = s.now

theorem showStrip_trace {s t : State} {k : Nat} (h : showStrip s k = .next t) : ∃ new, ShowTrace [k] s t new := by
  have emptyCase : isSent s k = false → (∀ r, s.strips[k]? = some r → r.length = 0#16) → ShowTrace [k] s s [] := by
    intro h hr
    refine ⟨by simp, by simp [framesOf, h], ?_, by simp, by simp, by simp [framesOf], by simp, fun _ => rfl⟩
    simp only [pulsesOf, List.filter_nil, List.flatMap_cons, List.flatMap_nil, List.append_nil, sentBy]
    cases hk : s.strips[k]? with
    | none => rfl
    | some r =>
      have := hr r hk
      simp [stripPixels, Strip.indices, this, framePulses]
  unfold showStrip at h
  split at h
  · rename_i hn
    cases h
    exact ⟨[], emptyCase (by simp [isSent, hn]) (by simp [hn])⟩
  · rename_i r hr
    split at h
    · rename_i hl; cases h
      refine ⟨[], emptyCase (by simp [isSent, hr, hl]) (by intro r' h'; rw [hr] at h'; cases h'; exact hl)⟩
    · rename_i hl
      have ht := transmit_cases h
      have hne : isSent s k = true := by
        simp only [isSent, hr, Option.map_some, Option.getD_some, decide_eq_true_eq]
        intro hc; exact hl (BitVec.eq_of_toNat_eq hc)
      subst ht
      have hw : (((s.openFrame k r).emit (framePulses s.build.wireOrder r.pin (stripPixels s r))).closeFrame k).wire = s.wire ++
          (.frameStart k (max (s.now + Config.elapsedUs s.clockReads) (r.lastShown + s.build.resetUs)) :: framePulses s.build.wireOrder r.pin
              (stripPixels s r) ++ [.frameEnd k (((s.openFrame k r).emit (framePulses s.build.wireOrder r.pin (stripPixels s r))).closeFrame
                  k).now]) := by
        simp [State.closeFrame, State.openFrame, State.emit, State.readClock, State.stampStrip, State.holdUntil]
      have hnow : (((s.openFrame k r).emit (framePulses s.build.wireOrder r.pin (stripPixels s r))).closeFrame k).now =
          (max (s.now + Config.elapsedUs s.clockReads) (r.lastShown + s.build.resetUs)) + Config.elapsedUs (s.clockReads + 1) := by
        simp [State.closeFrame, State.openFrame, State.emit, State.readClock, State.stampStrip, State.holdUntil]
      have hst : (((s.openFrame k r).emit (framePulses s.build.wireOrder r.pin (stripPixels s r))).closeFrame k).strips =
          s.strips.modify k (fun q => { q with lastShown
              := (((s.openFrame k r).emit (framePulses s.build.wireOrder r.pin (stripPixels s r))).closeFrame k).now }) := by
        simp [State.closeFrame, State.openFrame, State.emit, State.readClock, State.stampStrip, State.holdUntil]
      generalize hT : ((s.openFrame k r).emit (framePulses s.build.wireOrder r.pin (stripPixels s r))).closeFrame k = T at *
      have nf : ∀ (e : WireEvent), e ∈ framePulses s.build.wireOrder r.pin (stripPixels s r) → e.isPulse = true := fun e he =>
          framePulses_isPulse he
      have hfr : framesOf (.frameStart k (max (s.now + Config.elapsedUs s.clockReads) (r.lastShown + s.build.resetUs)) ::
          framePulses s.build.wireOrder r.pin (stripPixels s r) ++ [.frameEnd k T.now]) = [k] := by
        rw [List.cons_append, framesOf, framesOf_append, framesOf_framePulses]; simp [framesOf]
      have hself : T.strips[k]? = some { r with lastShown := T.now } := by
        rw [hst, List.getElem?_modify_eq, hr]; rfl
      refine ⟨_, hw, ?_, ?_, ?_, ?_, ?_, ?_, fun hf => ?_⟩
      · rw [hfr]; simp [hne]
      · rw [List.cons_append]
        have : ∀ (e : WireEvent) es, e.isPulse = false → pulsesOf (e :: es) = pulsesOf es := by intro e es h; simp
            [pulsesOf, h]
        rw [this _ _ rfl, pulsesOf_append, pulsesOf_framePulses, this _ _ rfl]
        simp [pulsesOf, sentBy, hr]
      · intro k' a hm
        simp only [List.cons_append, List.mem_cons, List.mem_append, List.not_mem_nil, or_false] at hm
        rcases hm with hm | hm | hm
        · cases hm; refine ⟨by simp, r, hr, by omega, by omega, by omega⟩
        · exact absurd (nf _ hm) (by simp [WireEvent.isPulse])
        · cases hm
      · intro k' a hm
        simp only [List.cons_append, List.mem_cons, List.mem_append, List.not_mem_nil, or_false] at hm
        rcases hm with hm | hm | hm
        · cases hm
        · exact absurd (nf _ hm) (by simp [WireEvent.isPulse])
        · cases hm
          exact ⟨by rw [hfr]; simp, _, hself, rfl, Nat.le_refl _⟩
      · intro k' hk'
        rw [hfr, List.mem_singleton] at hk'
        subst hk'
        refine ⟨_, max (s.now + Config.elapsedUs s.clockReads) (r.lastShown + s.build.resetUs), T.now, hself, rfl,
          by rw [hnow]; exact Nat.le_add_right _ _, Nat.le_refl _, ?_⟩
        have hp : stripPixels T { r with lastShown := T.now } = stripPixels s r := by
          rw [← hT]; rfl
        rw [hp]
        exact List.infix_rfl
      · intro k' hk'
        rw [hfr, List.mem_singleton] at hk'
        rw [hst, List.getElem?_modify_ne]
        exact fun h => hk' h.symm
      · rw [hfr] at hf; cases hf

theorem showFrom_trace {ks : List Nat} (hn : ks.Nodup) {s t : State} (h : showFrom ks s = .next t) :
    ∃ new, ShowTrace ks s t new := by
  induction ks generalizing s with
  | nil => cases h; exact ⟨[], by simp, rfl, rfl, by simp, by simp, by simp [framesOf], by simp, fun _ => rfl⟩
  | cons k ks ih =>
    obtain ⟨u, h1, h2⟩ := andThen_eq_next.mp h
    obtain ⟨n1, t1⟩ := showStrip_trace h1
    rw [List.nodup_cons] at hn
    obtain ⟨n2, t2⟩ := ih hn.2 h2
    have f1 := showStrip_frame h1
    have f2 := showFrom_frame h2
    have fr1 : ∀ k', k' ∈ framesOf n1 → k' = k := by
      intro k' hk'; rw [t1.frames] at hk'; simp at hk'; exact hk'.1
    have fr2 : ∀ k', k' ∈ framesOf n2 → k' ∈ ks := by
      intro k' hk'; rw [t2.frames] at hk'; exact (List.mem_filter.mp hk').1
    have keep : ∀ {k'}, k' ∈ framesOf n1 → t.strips[k']? = u.strips[k']? := fun hk' =>
      t2.others _ fun hc => hn.1 (fr1 _ hk' ▸ fr2 _ hc)
    refine ⟨n1 ++ n2, by rw [t2.wire, t1.wire, List.append_assoc], ?_, ?_, ?_, ?_, ?_, ?_, fun hf => ?_⟩
    · rw [framesOf_append, t1.frames, t2.frames]
      have : ks.filter (isSent u) = ks.filter (isSent s) := by
        apply List.filter_congr; intro x _; exact isSent_geometry f1.geometry x
      rw [this]; simp [List.filter_cons]; split <;> simp
    · rw [pulsesOf_append, t1.pulses, t2.pulses]
      have : ks.flatMap (sentBy u) = ks.flatMap (sentBy s) := by
        congr 1; funext x; exact sentBy_geometry f1.geometry f1.pixbuf f1.build x
      rw [this]; simp
    · intro k' a hm
      rcases List.mem_append.mp hm with hm | hm
      · obtain ⟨h3, r, h4, h5, h6, h7⟩ := t1.start k' a hm
        refine ⟨by simp_all, r, h4, h5, h6, Nat.le_trans h7 f2.now⟩
      · obtain ⟨h3, r, h4, h5, h6, h7⟩ := t2.start k' a hm
        rw [f1.build] at h5
        refine ⟨List.mem_cons_of_mem _ h3, r, ?_, h5, Nat.le_trans f1.now h6, h7⟩
        rw [← h4]; symm; apply t1.others; intro hc; rw [fr1 _ hc] at h3; exact hn.1 h3
    · intro k' b hm
      rw [framesOf_append]
      rcases List.mem_append.mp hm with hm | hm
      · obtain ⟨h3, r, h4, h5, h6⟩ := t1.stop k' b hm
        exact ⟨List.mem_append_left _ h3, r, by rw [keep h3, h4], h5, Nat.le_trans h6 f2.now⟩
      · obtain ⟨h3, r, h4, h5, h6⟩ := t2.stop k' b hm
        exact ⟨List.mem_append_right _ h3, r, h4, h5, h6⟩
    · intro k' hk'
      rw [framesOf_append] at hk'
      rcases List.mem_append.mp hk' with hm | hm
      · obtain ⟨r, a, b, h3, h4, h5, h6, h7⟩ := t1.whole k' hm
        have hp : stripPixels t r = stripPixels u r := by simp [stripPixels, f2.pixbuf]
        rw [← hp] at h7
        exact ⟨r, a, b, by rw [keep hm, h3], h4, h5, Nat.le_trans h6 f2.now,
          h7.trans (List.prefix_append n1 n2).isInfix⟩
      · obtain ⟨r, a, b, h3, h4, h5, h6, h7⟩ := t2.whole k' hm
        rw [f1.build] at h7
        exact ⟨r, a, b, h3, h4, h5, h6, h7.trans (List.suffix_append n1 n2).isInfix⟩
    · intro k' hk'
      rw [framesOf_append, List.mem_append] at hk'
      rw [t2.others k' (fun h => hk' (Or.inr h)), t1.others k' (fun h => hk' (Or.inl h))]
    · rw [framesOf_append, List.append_eq_nil_iff] at hf
      rw [t2.still hf.2, t1.still hf.1]

theorem showAll_trace {s t : State} (h : showAll s = .next t) : ∃ new, ShowTrace (List.range s.strips.length) s t new :=
    showFrom_trace List.nodup_range h

/-- All strips in declaration order. -/
theorem sentBy_all (s : State) : (List.range s.strips.length).flatMap (sentBy s) =
    s.strips.flatMap fun r =>
      framePulses s.build.wireOrder r.pin ((List.range r.length.toNat).map fun j => s.pixbuf.read (r.offset.toNat + j)) := by
  have : ∀ (l : List Strip) (f : Strip → List WireEvent), (List.range l.length).flatMap
      (fun k => match l[k]? with | none => [] | some r => f r) = l.flatMap f := by
    intro l f
    induction l using List.reverseRecOn with
    | nil => rfl
    | append_singleton l x ih =>
      rw [List.length_append, List.length_singleton, List.range_succ, List.flatMap_append, List.flatMap_append, ← ih]
      congr 1
      · apply List.flatMap_congr
        intro k hk
        rw [List.getElem?_append_left (by simpa using hk)]
      · simp
  have := this s.strips (fun r => framePulses s.build.wireOrder r.pin (stripPixels s r))
  rw [show (fun r : Strip => framePulses s.build.wireOrder r.pin ((List.range r.length.toNat).map fun j =>
      s.pixbuf.read (r.offset.toNat + j))) = fun r => framePulses s.build.wireOrder r.pin (stripPixels s r) from ?_]
  · exact this
  · funext r; simp [stripPixels, Strip.indices, Function.comp_def]

/-- A show leaves every pixel. -/
theorem ShowFrame.pixel? {s t : State} (h : ShowFrame s t) (j) : t.pixel? j = s.pixel? j := by simp [State.pixel?, h.npix,
    h.pixbuf]

/-- What a reset inside a step leaves (R301, U13): the state after reset, and on the wire the first events of the step. -/
theorem State.resetInStep_next {s t : State} {new : List WireEvent} (h : step s = .next t) (hw : t.wire = s.wire ++ new) (n : Nat) :
    s.resetInStep n = { State.resetOf t.build with wire := s.wire ++ new.take n, clockReads := t.clockReads } := by
  simp only [State.resetInStep, h, hw, List.take_length_add_append]
  rfl

/-- A reset after the start of a frame and `m` of its pulses leaves a frame cut short. -/
theorem take_cutFrame {e : WireEvent} {before pulses after : List WireEvent} {m : Nat} (h : m ≤ pulses.length) :
    (before ++ e :: (pulses ++ after)).take (before.length + 1 + m) = before ++ e :: pulses.take m := by
  rw [Nat.add_assoc, List.take_length_add_append, Nat.add_comm 1, List.take_succ_cons, List.take_append_of_le_length h]

end Sys2Proof.Machine
end

