-- ==== Sys2Proof/Machine/HostAdapter.lean ====
section
/-! DEFINITION. The pseudo-commands (R110) and the host adapter's unit conversions (R111).  They are outside the block; `step`
calls none of them.

R111 does not say what the host does when a converted number is too large for its field (a duration of 2^32 ticks or more, a
width of 65536 units or more, a percentage of 32768 SV units or more, for `SAT` and `BRI` are signed, R97).  DESIGN CHOICE
(assumption log 22): the field keeps the low bits. -/

namespace Sys2Proof.Machine

/-- AREA_CMD fields with nothing present. -/
def noFields : AreaFields := { state := none, hue := none, sat := none, bri := none, trans := none }

/-- `on a` and `off a` (R110). -/
def pseudoState (a : AreaId) (on : Bool) : Instr := .areaCmd a { noFields with state := some on }

/-- `color a, H, S` (R110). -/
def pseudoColor (a : AreaId) (h s : BitVec 16) : Instr := .areaCmd a { noFields with hue := some h, sat := some s }

/-- `brightness a, V` (R110). -/
def pseudoBrightness (a : AreaId) (v : BitVec 16) : Instr := .areaCmd a { noFields with bri := some v }

/-- `tick n` (R110). -/
def pseudoTicks (n : Nat) : List Instr := List.replicate n .tick

/-- `clear_status` (R110). -/
def pseudoClearStatus : Instr := .wrreg 0x02#8 (some 0x7E#32)

/-- `use_reference` (R110). -/
def pseudoUseReference : Instr := .wrreg 0x01#8 (some 1#32)

/-- `use_fast` (R110). -/
def pseudoUseFast : Instr := .wrreg 0x01#8 (some 0#32)

/-- `round(x)`, ties up (R9), of the fraction `num/den`. -/
def roundFraction (num den : Nat) : Nat := (2 * num + den) / (2 * den)

/-- `color.h` in degrees `num/den` to hue units (R111). -/
def hueOfDegrees (num den : Nat) : BitVec 16 := BitVec.ofNat 16 (roundFraction (num * 128) den % Config.hueMod)

/-- `color.s` or `brightness` in percent `num/den` to SV units (R111); the block clamps it.  From 32768 units on (128 percent) the
number does not fit the signed field (R97): the low 16 bits are sent, the model's choice (assumption log 22), so the block reads
32768 to 65535 units as negative and clamps them to 0, not to 25600. -/
def svOfPercent (num den : Nat) : BitVec 16 := BitVec.ofNat 16 (roundFraction (num * 256) den)

/-- Seconds `num/den` to ticks, at `tickHz` ticks a second: a transition, a duration or a rate (R111).  Above 32 bits the low
bits are kept, the model's choice (assumption log 22). -/
def ticksOfSeconds (tickHz num den : Nat) : Word := BitVec.ofNat 32 (roundFraction (num * tickHz) den)

/-- A Rainbow's width in degrees per pixel `num/den` to hue units (R111); a Wave's or Cylon's width is already in pixels.
Above 16 bits the low bits are kept, the model's choice (assumption log 22). -/
def rainbowWidthOfDegrees (num den : Nat) : BitVec 16 := BitVec.ofNat 16 (roundFraction (num * 128) den)

/-- KL's state notification, read back from a QUERY response (R102, R111): the hue is `hue/128` degrees, the saturation
`sat/256` percent. -/
structure Notification where
  valid      : Bool
  on         : Bool
  colorSet   : Bool
  dirty      : Bool
  effect     : BitVec 3
  brightness : Nat
  hue        : BitVec 16
  sat        : BitVec 16
  deriving DecidableEq, Repr

/-- The fields of a QUERY response (R102). -/
def notificationOf (w0 w1 : Word) : Notification :=
  { valid := w0.getLsbD 31
    on := w0.getLsbD 30
    colorSet := w0.getLsbD 29
    dirty := w0.getLsbD 28
    effect := w0.extractLsb' 24 3
    brightness := (w0.extractLsb' 0 7).toNat
    hue := upperHalf w1
    sat := lowerHalf w1 }

end Sys2Proof.Machine
end

