-- ==== Sys2Proof/Tests/Slice0.lean ====
section
/-! SUPPORT. Tests of the model against the examples and vectors the spec prints, and one theorem for each statement that
shows operands meeting its hypotheses. -/

open Sys2Proof Sys2Proof.Machine

namespace Sys2Proof.Tests

/-! ### Small states -/

/-- The state one step on the words `ws` gives. -/
def after (s : State) (ws : List Word) : Option State :=
  match step { s with cmd := ws } with
  | .next t => some t
  | .fault _ => none
  | .refused _ => none

/-- One strip of `n` pixels on pin 4. -/
def oneStrip (n : BitVec 16) : State :=
  { State.reset with strips := [⟨4#8, 0#16, n, false, 0⟩], npix := n, status := 0x01#32 }

/-- `configure (4, 3, rev) (5, 2)`, the start state of 95_test_vectors.md 2.4. -/
def fivePixels : State :=
  { State.reset with strips := [⟨4#8, 0#16, 3#16, true, 0⟩, ⟨5#8, 3#16, 2#16, false, 0⟩], npix := 5#16, status := 0x01#32 }

/-- `fivePixels` with Area 0 as `r`. -/
def withArea (r : Area) : State := fivePixels.setArea 0 r

/-- A defined Area over the logical indices 0, 1, 3 and 4, its other fields as reset leaves them. -/
def plainArea : Area := { Area.reset with defined := true, map := [2#16, 1#16, 3#16, 4#16] }

/-- `plainArea` after KL's command and one tick (R187): on, 120 degrees, saturation 1.0, value 0.5. -/
def litArea : Area := { plainArea with base := ⟨15360#16, 25600#16, 12800#16⟩, on := true, dirty := true }

/-- The Transition of 95_test_vectors.md 1.6, bound at tick 0. -/
def fade : Effect :=
  { start := 0, emap := [2#16, 1#16, 3#16, 4#16],
    motion := .transition ⟨15360#16, 25600#16, 12800#16⟩ ⟨15360#16, 25600#16, 25600#16⟩ 4#32 }

/-- `litArea` with that Transition in its slot. -/
def fadingArea : Area := { litArea with eff := some fade }

/-! ### Ill-formed terms are refused (R91, R191) -/

theorem test_wf_refuses_256_strips : (Instr.configure (List.replicate 256 ⟨4#8, false, 1#16⟩)).wf = false := by decide +kernel

theorem test_wf_refuses_256_sections : (Instr.defineArea 0#4 (List.replicate 256 ⟨0#16, 1#16⟩)).wf =
    false := by decide +kernel

theorem test_wf_refuses_named_codes :
    (Instr.effect 0#4 (some ⟨.unnamed 2#3, 0#32, 0#16, none⟩)).wf = false ∧
    (Instr.effect 0#4 (some ⟨.unnamed 3#3, 0#32, 0#16, none⟩)).wf = false ∧
    (Instr.effect 0#4 (some ⟨.unnamed 4#3, 0#32, 0#16, none⟩)).wf = false := by decide

/-! ### Words written out from the encodings of the spec (R91 to R104, examples of files 40 to 45) -/

theorem test_decode_system :
    decode [0x00000000#32] = .command .nop [] ∧
    decode [0x0B000500#32] = .command (.rdreg 0x05#8) [] ∧
    decode [0x0C000101#32, 0x00000001#32] = .command (.wrreg 0x01#8 (some 1#32)) [] := by decide

theorem test_decode_strips :
    decode [0x01000002#32, 0x04010096#32, 0x05000048#32] =
      .command (.configure [⟨4#8, true, 150#16⟩, ⟨5#8, false, 72#16⟩]) [] ∧
    decode [0x02000002#32, 0x00000095#32, 0x00950047#32] =
      .command (.defineArea 0#4 [⟨0#16, 149#16⟩, ⟨149#16, 71#16⟩]) [] := by decide

theorem test_decode_pixels :
    decode [0x03000002#32, 0x00000004#32, 0x12345678#32] = .command (.setPixel (some ⟨4#16, 0x12345678#32⟩)) [] ∧
    decode [0x07000002#32, 0x00003200#32, 0x00006400#32] =
      .command (.fillArea 0#4 (some ⟨0#16, 12800#16, 25600#16⟩)) [] ∧
    decode [0x0A000002#32, 0x3C006400#32, 0x00003200#32] = .command (.convert (some ⟨15360#16, 25600#16, 12800#16⟩)) [] ∧
    decode [0x04000000#32] = .command .showStrips [] := by decide

theorem test_decode_effects :
    decode [0x05011F03#32, 0x3C006400#32, 0x00003200#32, 0x00000000#32] =
      .command (.areaCmd 0#4 ⟨some true, some 15360#16, some 25600#16, some 12800#16, some 0#32⟩) [] ∧
    decode [0x06201B03#32, 0x0000003C#32, 0x0000000A#32, 0x0000012C#32] =
      .command (.effect 2#4 (some ⟨.wave .sinusoidal, 60#32, 10#16, some 300#32⟩)) [] ∧
    decode [0x08000000#32] = .command .tick [] ∧
    decode [0x09500000#32] = .command (.query 5#4) [] := by decide

/-- A packet with fewer words than `LEN` is not decoded (R112), a reserved opcode is skipped by `LEN` (R105). -/
theorem test_decode_rejects :
    decode [0x05011F03#32, 0x3C006400#32] = .incomplete ∧
    decode [0x0D000001#32, 0x00000007#32, 0x08000000#32] = .reservedOpcode 0x0D#8 [0x08000000#32] := by decide

/-- The bits of a packet as spec/opcode_table.json numbers them: a later word's bits count on from the first word's. -/
theorem test_table_word :
    decodeTableWord 96 0x123456780000000403000002 = some (.setPixel (some ⟨4#16, 0x12345678#32⟩)) ∧
    decodeTableWord 32 0x0D000000 = none ∧
    decodeTableWord 32 0x03000002 = some (.setPixel (some ⟨0#16, 0#32⟩)) := by decide +kernel

/-! ### One step on the vectors of 95_test_vectors.md -/

theorem test_nop : after fivePixels [0x00000000#32] = some fivePixels := by decide +kernel

/-- 2.1: row 21, and program 4's malformed packet. -/
theorem test_convert :
    (after State.reset [0x0A000002#32, 0x64004B00#32, 0x00001E00#32]).map State.rsp = some [0x0200050B#32] ∧
    (after State.reset [0x0A000000#32]).map (fun t => (t.rsp, t.status)) = some ([0#32], 0x10#32) := by decide +kernel

/-- 1.1: the colour on which the two strategies differ most. -/
theorem test_convert_reference :
    (after { State.reset with ctrl := 1#32 } [0x0A000002#32, 0x00000010#32, 0x00006400#32]).map State.rsp =
      some [0xE9160000#32] := by decide +kernel

/-- R150's example. -/
theorem test_configure :
    (after State.reset [0x01000002#32, 0x04010096#32, 0x05000048#32]).map (fun t => (t.strips, t.npix, t.status)) =
      some ([⟨4#8, 0#16, 150#16, true, 0⟩, ⟨5#8, 150#16, 72#16, false, 0⟩], 222#16, 0x01#32) := by decide +kernel

/-- R152's example: 1025 pixels do not fit. -/
theorem test_configure_too_long :
    (after State.reset [0x01000002#32, 0x040003E8#32, 0x05000019#32]).map (fun t => (t.strips, t.npix, t.status)) =
      some ([], 0#16, 0x03#32) := by decide +kernel

/-- 2.4: `MAP = [2, 1, 0, 3, 4]`. -/
theorem test_define_area :
    ((after fivePixels [0x02000001#32, 0x00000005#32]).bind fun t => (t.area? 0).map fun r => (r.map, r.defined, t.status)) =
      some ([2#16, 1#16, 0#16, 3#16, 4#16], true, 0x01#32) := by decide +kernel

/-- 2.4: logical 65535 and 65536 are uncovered, the sum is not wrapped. -/
theorem test_define_area_unmapped :
    ((after fivePixels [0x02000001#32, 0xFFFF0002#32]).bind fun t => (t.area? 0).map fun r => (r.map, t.status)) =
      some ([0#16, 0#16], 0x09#32) := by decide +kernel

/-- 2.4: bits 31:16 of the index word are ignored. -/
theorem test_set_pixel :
    (after fivePixels [0x03000002#32, 0xABCD0004#32, 0x00000001#32]).map State.pixbuf = some [(4, 1#32)] := by decide +kernel

/-- 2.4: index 5 is at `NPIX`. -/
theorem test_set_pixel_dropped :
    (after fivePixels [0x03000002#32, 0x00000005#32, 0x00000001#32]).map (fun t => (t.pixbuf, t.status)) =
      some ([], 0x41#32) := by decide +kernel

/-- 2.4: `PIXBUF[1..4] = 0x35CA0000`, `PIXBUF[0]` unchanged. -/
theorem test_fill_area :
    (after (withArea plainArea) [0x07000002#32, 0x00003200#32, 0x00006400#32]).map State.pixbuf =
      some [(1, 0x35CA0000#32), (2, 0x35CA0000#32), (3, 0x35CA0000#32), (4, 0x35CA0000#32)] := by decide +kernel

/-- 2.4: Area 1 is not defined. -/
theorem test_fill_area_undefined :
    (after (withArea plainArea) [0x07100002#32, 0x00000000#32, 0x00006400#32]).map (fun t => (t.pixbuf, t.status)) =
      some ([], 0x21#32) := by decide +kernel

/-- R187's example: what KL's command leaves in an Area at its reset values. -/
theorem test_area_cmd :
    ((after (withArea plainArea) [0x05011F03#32, 0x3C006400#32, 0x00003200#32, 0x00000000#32]).bind fun t => t.area? 0) =
      some { litArea with
        eff := some ⟨0, plainArea.map, .transition ⟨0#16, 0#16, 0#16⟩ ⟨15360#16, 25600#16, 12800#16⟩ 0#32⟩ } := by
  decide +kernel

/-- 2.5: all five presence bits and one payload word. -/
theorem test_area_cmd_one_word :
    ((after (withArea plainArea) [0x05011F01#32, 0x3C006400#32]).bind fun t => (t.area? 0).map fun r => (r.base, r.on)) =
      some (⟨15360#16, 25600#16, 25600#16⟩, true) ∧
    decode [0x05011F01#32, 0x3C006400#32] =
      .command (.areaCmd 0#4 ⟨some true, some 15360#16, some 25600#16, none, none⟩) [] := by decide +kernel

/-- 2.5: saturation clamped down, brightness clamped up to 0. -/
theorem test_area_cmd_clamps :
    ((after (withArea plainArea) [0x05010D03#32, 0x00007530#32, 0x0000FFFB#32, 0x00000000#32]).bind fun t =>
      (t.area? 0).map Area.base) = some ⟨0#16, 25600#16, 0#16⟩ := by decide +kernel

/-- R190's example on Area 0: the slot, and the phase of the new effect (R31). -/
theorem test_effect :
    ((after { withArea litArea with tick := 7 } [0x06001B03#32, 0x0000003C#32, 0x0000000A#32, 0x0000012C#32]).bind fun t =>
      (t.area? 0).map fun r => (r.eff, r.phase t.tick)) =
      some (some ⟨7, plainArea.map, .wave 60#32 10#16 .sinusoidal (some 300#32)⟩, .bound) := by decide +kernel

/-- R191: code 1 is not an effect name. -/
theorem test_effect_unnamed :
    (after (withArea fadingArea) [0x06000102#32, 0x0000003C#32, 0x0000000A#32]).map (fun t => (t.areas, t.status)) =
      some ((withArea fadingArea).areas, 0x11#32) := by decide +kernel

/-- 1.6: elapsed 1 writes `0x00005B00`, and the fade goes on. -/
theorem test_tick :
    (after { withArea fadingArea with tick := 1 } [0x08000000#32]).map
        (fun t => (t.pixel? 1, t.pixel? 0, t.tick, t.area? 0)) =
      some (some 0x00005B00#32, some 0#32, 2, some fadingArea) := by decide +kernel

/-- 1.6: elapsed 4 writes `0x0000FF00` and clears the slot. -/
theorem test_tick_completes :
    (after { withArea fadingArea with tick := 4 } [0x08000000#32]).map (fun t => (t.pixel? 4, t.area? 0)) =
      some (some 0x0000FF00#32, some litArea) := by decide +kernel

/-- R198's example. -/
theorem test_query :
    (after (withArea litArea) [0x09000000#32]).map (fun t => (t.rsp, t.area? 0)) =
      some ([0xF0000032#32, 0x3C006400#32], some { litArea with dirty := false }) := by decide +kernel

/-- 2.5: an undefined Area answers two zero words. -/
theorem test_query_undefined :
    (after fivePixels [0x09500000#32]).map (fun t => (t.rsp, t.status)) = some ([0#32, 0#32], 0x21#32) := by decide +kernel

/-- R261's examples. -/
theorem test_rdreg :
    (after { State.reset with npix := 222#16 } [0x0B000500#32]).map State.rsp = some [0x000000DE#32] ∧
    (after State.reset [0x0B000000#32]).map State.rsp = some [0x4B4C5001#32] := by decide +kernel

/-- R52: bit 0 of `ACTIVE`, and R51: bit 0 of `AREAS_DEFINED`. -/
theorem test_rdreg_areas :
    (after (withArea fadingArea) [0x0B000800#32]).map State.rsp = some [1#32] ∧
    (after (withArea plainArea) [0x0B000800#32]).map State.rsp = some [0#32] ∧
    (after (withArea plainArea) [0x0B000700#32]).map State.rsp = some [1#32] := by decide +kernel

/-- R262's examples. -/
theorem test_wrreg :
    (after State.reset [0x0C000101#32, 0x00000001#32]).map State.ctrl = some 1#32 ∧
    (after { State.reset with status := 0x7F#32 } [0x0C000201#32, 0x0000007E#32]).map State.status = some 0x01#32 := by
  decide +kernel

/-- R263: `NPIX` is read-only. -/
theorem test_wrreg_read_only :
    (after fivePixels [0x0C000501#32, 0x00000001#32]).map (fun t => (t.npix, t.status)) = some (5#16, 0x11#32) := by
  decide +kernel

/-- R250's example: one frame, 64 pulses on pin 4, the first byte `0x37` most significant bit first. -/
theorem test_show :
    ∃ t, step { oneStrip 2#16 with pixbuf := [(0, 0x00003700#32)], cmd := [0x04000000#32] } = .next t ∧
      framesOf t.wire = [0] ∧ (pulsesOf t.wire).length = 64 ∧
      (pulsesOf t.wire).take 8 = [false, false, true, true, false, true, true, true].map (pulse 4#8) ∧
      (pulsesOf t.wire).drop 8 = (List.replicate 56 false).map (pulse 4#8) := ⟨_, rfl, rfl, rfl, rfl, rfl⟩

/-- R249: a strip of no length is skipped, the next one is sent. -/
theorem test_show_skips_empty :
    ∃ t, step { State.reset with
        strips := [⟨4#8, 0#16, 0#16, false, 0⟩, ⟨5#8, 0#16, 3#16, false, 0⟩], npix := 3#16, cmd := [0x04000000#32] } =
            .next t ∧
      framesOf t.wire = [1] ∧ (t.strips[0]?.map Strip.lastShown) = some 0 ∧ t.irqDisable = false := ⟨_, rfl, rfl, rfl, rfl⟩

/-- `withFetchWord` puts the packet where the next step takes it. -/
theorem test_fetch_word :
    step (State.reset.withFetchWord 32 0x08000000) = exec .tick State.reset := rfl

/-! ### Functions of the colour engine and of the effect kinds -/

/-- The conversions of the default build. -/
def fast : Conversion := ⟨.fast, Build.default.gamma⟩
def reference : Conversion := ⟨.reference, Build.default.gamma⟩

/-- 2.1. -/
theorem test_to_pixel :
    toPixel fast ⟨12345#16, 6789#16, 23456#16⟩ = 0x4B1B6D00#32 ∧ toPixel reference ⟨12345#16, 6789#16, 23456#16⟩ =
        0x4B1B6D00#32 ∧
    toPixel fast ⟨7680#16, 25600#16, 25600#16⟩ = 0x00808000#32 ∧ toPixel reference ⟨7680#16, 25600#16, 25600#16⟩ =
        0x00808000#32 := by
  decide +kernel

/-- `GAMMA` = 12/5 (R6): half a value gives 0.5^2.4 · 255 = 48.3, by hand from R123. -/
theorem test_to_pixel_other_gamma :
    toPixel ⟨.fast, ⟨12, 5⟩⟩ ⟨15360#16, 25600#16, 12800#16⟩ = 0x00003000#32 ∧
    toPixel ⟨.reference, ⟨12, 5⟩⟩ ⟨15360#16, 25600#16, 12800#16⟩ = 0x00003000#32 ∧
    toPixel ⟨.reference, ⟨12, 5⟩⟩ ⟨15360#16, 0#16, 12800#16⟩ = 0x30000000#32 := by decide +kernel

/-- R6, R159, R153: a build of two Areas and one strip refuses Area 2 and a CONFIGURE of two strips. -/
theorem test_other_build :
    (after (State.resetOf { Build.default with maxAreas := 2 }) [0x02200000#32]).map State.status = some 0x20#32 ∧
    ((after (State.resetOf { Build.default with maxAreas := 2 }) [0x02100000#32]).map fun t => (t.status, t.areas.length)) =
      some (0x00#32, 2) ∧
    (after (State.resetOf { Build.default with maxStrips := 1 }) [0x01000002#32, 0x04010096#32, 0x05000048#32]).map
      State.status = some 0x10#32 := by decide +kernel

/-- R285, R313: a TICK packet behind half a SET_PIXEL neither completes it nor runs; it follows the rest. -/
theorem test_tick_behind_half_a_packet :
    (after fivePixels [0x03000002#32, 5#32]).map (fun t => (t.timerTick.cmd, t.timerTick.waitingTicks)) =
      some ([0x03000002#32, 5#32], 1) ∧
    ((({ fivePixels with cmd := [0x03000002#32, 4#32] }).timerTick).hostWrite [7#32]).cmd =
      [0x03000002#32, 4#32, 7#32, 0x08000000#32] := by decide +kernel

/-- `oneStrip` of one pixel, reset inside its SHOW when `n` of the 34 events of that SHOW are on the wire. -/
def resetInShow (n : Nat) : State := State.resetInStep { oneStrip 1#16 with cmd := [0x04000000#32] } n

/-- R301, U13: a reset at the third event leaves a frame two pulses long, begun and not ended, and the block as after reset; before
the first it leaves nothing, at the last the whole frame. -/
theorem test_reset_inside_a_frame :
    (framesOf (resetInShow 3).wire = [0] ∧ (pulsesOf (resetInShow 3).wire).length = 2 ∧ (resetInShow 3).wire.length = 3) ∧
    ((resetInShow 3).strips = [] ∧ (resetInShow 3).cmd = [] ∧ (resetInShow 3).irqDisable = false ∧ (resetInShow 3).status = 0#32) ∧
    [0, 33, 34].map (fun n => ((pulsesOf (resetInShow n).wire).length, (resetInShow n).wire.length)) =
      [(0, 0), (32, 33), (32, 34)] := by decide +kernel

/-- R136's examples. -/
theorem test_mix :
    mix ⟨15360#16, 25600#16, 12800#16⟩ black 1 3 = ⟨10240#16, 17067#16, 8533#16⟩ ∧
    mix black ⟨BitVec.ofInt 16 10, 1#16, 3#16⟩ 1 2 = ⟨5#16, 1#16, 2#16⟩ ∧
    mix ⟨44800#16, 25600#16, 25600#16⟩ ⟨1280#16, 25600#16, 25600#16⟩ 1 2 = ⟨23040#16, 25600#16, 25600#16⟩ := by decide

/-- R199's examples. -/
theorem test_brightness : [12800#16, 127#16, 128#16, 25600#16].map brightness = [50, 0, 1, 100] := by decide

/-- 2.6, `phase16`. -/
theorem test_phase16 :
    [phase16 1 16, phase16 15 16, phase16 16 16, phase16 2 3, phase16 5 0, phase16 100 90] =
      [4096, 61440, 0, 43690, 0, 7281] := by decide

/-- R214's example at e = 1. -/
theorem test_rainbow_frame :
    (Motion.rainbow 90#32 1536#16 none).frame fast ⟨0#16, 0#16, 25600#16⟩ 4 1 =
      [0x00F70900#32, 0x00DD2200#32, 0x00C43C00#32, 0x00AA5500#32] := by decide +kernel

/-- R216's example at e = 2. -/
theorem test_wave_frame :
    (Motion.wave 16#32 8#16 .triangular none).frame fast ⟨25600#16, 25600#16, 25600#16⟩ 8 2 =
      [0x00000408#32, 0x00000000#32, 0x00000408#32, 0x00001225#32, 0x00002D5A#32, 0x000055AA#32, 0x00002D5A#32,
        0x00001225#32] := by decide +kernel

/-- 2.6, `effect 0, cylon, rate=6, width=3` at e = 1. -/
theorem test_cylon_frame :
    (Motion.cylon 6#32 3#16 none).frame fast ⟨25600#16, 25600#16, 25600#16⟩ 4 1 =
      [0x0000080F#32, 0x000055A9#32, 0x0000070F#32, 0x00000000#32] := by decide +kernel

/-- 30_encoding.md R111: 120 degrees, 100 percent, 3 seconds at 30 ticks. -/
theorem test_host_units :
    hueOfDegrees 120 1 = 15360#16 ∧ svOfPercent 100 1 = 25600#16 ∧ ticksOfSeconds Build.default.tickHz 3 1 = 90#32 ∧
    encode (pseudoState 0#4 true) = [0x05010103#32, 0#32, 0#32, 0#32] ∧
    notificationOf 0xF0000032#32 0x3C006400#32 =
      { valid := true, on := true, colorSet := true, dirty := true, effect := 0#3, brightness := 50, hue := 15360#16,
        sat := 25600#16 } := by decide

/-! ### Operands that meet the hypotheses of each statement

One theorem a statement, named after it; a clause with a range has a witness at each of its ends. -/

/-- What `exec` gives is a next state. -/
def completes (i : Instr) (s : State) : Prop := ∃ t, exec i s = .next t

/-- A state in the middle of its work: five pixels, one fading Area, tick 1. -/
def busy : State := { withArea fadingArea with tick := 1, cmd := [0x08000000#32] }

theorem busy_area {a : Nat} {r : Area} (h : busy.area? a = some r) : r = fadingArea ∨ r = Area.reset := by
  have ha : a < 10 := State.area?_lt h
  interval_cases a
  · exact Or.inl (Option.some.inj (h.symm.trans (by decide +kernel : busy.area? 0 = some fadingArea)))
  all_goals exact Or.inr (Option.some.inj (h.symm.trans (by decide +kernel)))

theorem busy_idle {a : Nat} {r : Area} (ha : a ≠ 0) (h : busy.area? a = some r) : r.eff = none := by
  have hl : a < 10 := State.area?_lt h
  have e : busy.area? a = fivePixels.area? a := by
    show State.area? (withArea fadingArea) a = _
    exact State.area?_setArea_ne (Ne.symm ha) _
  rw [e] at h
  interval_cases a <;> · cases h; rfl

theorem default_ok : Build.default.Ok where
  areas := by decide
  strips := by decide
  pixels := by decide
  gamma := by decide
  order := List.Perm.refl _
  default := by decide

theorem buffer_five : BufferInv fivePixels :=
  { contiguous := ⟨rfl, rfl, rfl⟩, fewStrips := by decide, fits := by decide, canonical := by decide, inside := by decide,
    configured := by decide }

theorem buffer_busy : BufferInv busy :=
  { contiguous := ⟨rfl, rfl, rfl⟩, fewStrips := by decide, fits := by decide, canonical := by decide, inside := by decide,
    configured := by decide }

theorem inv_busy : Inv busy where
  build := default_ok
  table := rfl
  buffer := buffer_busy
  areas a r h := by
    rcases busy_area h with rfl | rfl
    · exact ⟨by decide, fun e he => by cases he; decide, fun e he => by cases he; rfl, fun e he => by cases he; decide⟩
    · exact ⟨by decide, fun e he => (by cases he), fun e he => (by cases he), fun e he => (by cases he)⟩
  colors a r h := by
    rcases busy_area h with rfl | rfl
    · exact ⟨Or.inr (by decide), fun e c0 c1 dur he hm => by cases he; cases hm; decide⟩
    · exact ⟨Or.inl rfl, fun e c0 c1 dur he hm => (by cases he)⟩
  ports := ⟨by decide, by decide, rfl, by decide, Or.inl rfl⟩

/-- The state after the step of `busy`, which a tick and a show make up. -/
theorem busy_steps : ∃ t, step busy = .next t := by
  obtain ⟨t, ht⟩ := showAll_next (s := (tickAreas (busy.consume [])).1.advanceTick)
    (by rw [advanceTick_tickAreas]; simp only [State.ticked_strips, State.ticked_npix]; exact ⟨rfl, rfl, rfl⟩)
  refine ⟨t, ?_⟩
  have h : step busy = exec .tick (busy.consume []) := rfl
  rw [h]
  simp only [exec, execTick]
  rw [if_pos (by decide +kernel)]
  exact ht

/-- An AREA_CMD field list with only the state. -/
def onOnly : AreaFields := { state := some true, hue := none, sat := none, bri := none, trans := none }

/-- `n` descriptors of one pixel each, and one of the rest. -/
def strips (n : Nat) (rest : BitVec 16) : List StripDesc := ⟨4#8, false, rest⟩ :: List.replicate n ⟨4#8, false, 1#16⟩

theorem test_meets_DecodeGivesBackEveryEncodedCommand :
    (Instr.effect 2#4 (some ⟨.wave .sinusoidal, 60#32, 10#16, some 300#32⟩)).wf = true ∧
    (Instr.configure (List.replicate 255 ⟨4#8, true, 1#16⟩)).wf = true := by decide +kernel

theorem test_meets_NextHeaderIsLenWordsOn :
    ((lenField 0x0C000001#32).toNat ≤ [5#32].length ∧ (opcodeField 0x0C000001#32).toNat ≤ 0x0C) ∧
    ((lenField 0x0D000001#32).toNat ≤ [5#32].length ∧ 0x0C < (opcodeField 0x0D000001#32).toNat) := by decide

/-- A SET_PIXEL with other bits in its header, in its index word and in a surplus word; a NOP with a word it does not read; an
AREA_CMD with no presence bit, its `ON_VAL` and its first word changed; an AREA_CMD with `P_SAT` alone, its hue changed; and a
RAINBOW without `HAS_DUR`, its `SHAPE` and its third word changed. -/
theorem test_meets_UnusedBitsAndWordsAreIgnored :
    (0x03ABCD03#32 &&& usedHeaderBits 0x03ABCD03#32 = 0x03000003#32 &&& usedHeaderBits 0x03ABCD03#32 ∧
      (∀ k, ([0xABCD0004#32, 7#32, 8#32][k]?.map fun w => w &&& usedPayloadBits 0x03ABCD03#32 k) =
        ([0x00000004#32, 7#32, 9#32][k]?.map fun w => w &&& usedPayloadBits 0x03ABCD03#32 k))) ∧
    (∀ k, ([5#32][k]?.map fun w => w &&& usedPayloadBits 0x00000001#32 k) =
      ([6#32][k]?.map fun w => w &&& usedPayloadBits 0x00000001#32 k)) ∧
    (0x05010001#32 &&& usedHeaderBits 0x05010001#32 = 0x05000001#32 &&& usedHeaderBits 0x05010001#32 ∧
      (∀ k, ([5#32][k]?.map fun w => w &&& usedPayloadBits 0x05010001#32 k) =
        ([6#32][k]?.map fun w => w &&& usedPayloadBits 0x05010001#32 k))) ∧
    (∀ k, ([0x12346400#32][k]?.map fun w => w &&& usedPayloadBits 0x05000401#32 k) =
      ([0x56786400#32][k]?.map fun w => w &&& usedPayloadBits 0x05000401#32 k)) ∧
    (0x06000A03#32 &&& usedHeaderBits 0x06000A03#32 = 0x06000203#32 &&& usedHeaderBits 0x06000A03#32 ∧
      (∀ k, ([5#32, 6#32, 7#32][k]?.map fun w => w &&& usedPayloadBits 0x06000A03#32 k) =
        ([5#32, 6#32, 8#32][k]?.map fun w => w &&& usedPayloadBits 0x06000A03#32 k))) ∧
    (List.replicate 255 0#32).length ≤ 255 := by
  refine ⟨⟨by decide, fun k => ?_⟩, fun k => ?_, ⟨by decide, fun k => ?_⟩, fun k => ?_, ⟨by decide, fun k => ?_⟩,
    Nat.le_of_eq List.length_replicate⟩
  all_goals
    match k with
    | 0 => rfl
    | 1 => rfl
    | 2 => rfl
    | k + 3 => rfl

/-- Short packets of each opcode; AREA_CMD with all five presence bits and 0 to 3 words; EFFECT with each name, with no name, and
with and without its third word. -/
theorem test_meets_ShortPacketsDoNothingButFlag :
    ([9#32].length = (lenField 0x03000001#32).toNat ∧ opcodeField 0x03000001#32 = 0x03#8 ∧ [9#32].length < 2) ∧
    ([9#32].length = (lenField 0x06000201#32).toNat ∧ opcodeField 0x06000201#32 = 0x06#8) ∧
    (([] : List Word).length = (lenField 0x07000000#32).toNat ∧ opcodeField 0x07000000#32 = 0x07#8) ∧
    (([] : List Word).length = (lenField 0x0C000100#32).toNat ∧ opcodeField 0x0C000100#32 = 0x0C#8) ∧
    ([9#32].length = (lenField 0x0A000001#32).toNat ∧ opcodeField 0x0A000001#32 = 0x0A#8) ∧
    ((List.replicate 0 9#32).length = (lenField 0x05011F00#32).toNat ∧ opcodeField 0x05011F00#32 = 0x05#8) ∧
    ((List.replicate 1 9#32).length = (lenField 0x05011F01#32).toNat ∧ opcodeField 0x05011F01#32 = 0x05#8) ∧
    ((List.replicate 2 9#32).length = (lenField 0x05011F02#32).toNat ∧ opcodeField 0x05011F02#32 = 0x05#8) ∧
    ((List.replicate 3 9#32).length = (lenField 0x05011F03#32).toNat ∧ opcodeField 0x05011F03#32 = 0x05#8) ∧
    ([9#32, 9#32].length = (lenField 0x06001202#32).toNat ∧ opcodeField 0x06001202#32 = 0x06#8 ∧
      (0x06001202#32).extractLsb' 8 3 = 2#3) ∧
    ([9#32, 9#32, 9#32].length = (lenField 0x06001303#32).toNat ∧ opcodeField 0x06001303#32 = 0x06#8 ∧
      (0x06001303#32).extractLsb' 8 3 = 3#3) ∧
    (0x06001402#32).extractLsb' 8 3 = 4#3 ∧
    ((0x06001702#32).extractLsb' 8 3 ≠ 2#3 ∧ (0x06001702#32).extractLsb' 8 3 ≠ 3#3 ∧ (0x06001702#32).extractLsb' 8 3 ≠ 4#3) := by
  decide

theorem test_meets_StepRunsTheDecodedCommand : decode busy.cmd = .command .tick [] := by decide

theorem test_meets_ReservedOpcodeIsSkippedByLen :
    0x0D ≤ (opcodeField 0x0D000000#32).toNat ∧ 0x0D ≤ (opcodeField 0xFF000001#32).toNat ∧
    (lenField 0xFF000001#32).toNat ≤ [5#32].length := by decide

theorem test_meets_HalfAPacketHoldsTheBlock :
    [9#32].length < (lenField 0x03000002#32).toNat ∧ [9#32].length + [7#32].length = (lenField 0x03000002#32).toNat ∧
    [7#32] ≠ [] := by decide

theorem test_meets_InvariantHoldsAfterReset : ∃ b : Build, b.Ok := ⟨_, default_ok⟩

theorem test_meets_EveryStepKeepsTheInvariant : ∃ b s t, (Inv s ∧ s.build = b) ∧ step s = .next t :=
  ⟨_, busy, busy_steps.choose, ⟨inv_busy, rfl⟩, busy_steps.choose_spec⟩

theorem test_meets_NoErrorStopsTheBlock : ∃ s, Inv s := ⟨busy, inv_busy⟩

/-- `busy` with a response, half a SET_PIXEL behind its TICK, and two TICK packets behind that. -/
def halfPacket : State :=
  { busy with cmd := [0x08000000#32, 0x03000002#32, 5#32], waitingTicks := 2, rsp := [7#32] }

/-- `busy` with a SHOW in place of its TICK. -/
def showing : State := { busy with cmd := [0x04000000#32] }

/-- A queue of whole packets, one that ends inside a packet, and a SHOW that puts a frame on the wire. -/
theorem test_meets_EnvironmentKeepsTheInvariant :
    (Inv busy ∧ busy.rsp = [] ∧ wholePackets [(0x08000000#32, [])] ∧ busy.cmd = packetWords [(0x08000000#32, [])]) ∧
    (Inv halfPacket ∧ halfPacket.rsp = 7#32 :: [] ∧ wholePackets [(0x08000000#32, [])] ∧
      halfPacket.cmd = packetWords [(0x08000000#32, [])] ++ 0x03000002#32 :: [5#32] ∧
      [5#32].length < (lenField 0x03000002#32).toNat ∧ [5#32].length + ([] : List Word).length < (lenField 0x03000002#32).toNat ∧
      [5#32].length + [6#32].length = (lenField 0x03000002#32).toNat) ∧
    (Inv showing ∧ ∃ t a first more, step showing = .next t ∧
      t.wire = showing.wire ++ ([] ++ .frameStart 0 a :: ([first] ++ more)) ∧ [0, 1].all (· ≤ [first].length)) := by
  have hw : wholePackets [(0x08000000#32, [])] := fun p hp => by rw [List.mem_singleton.mp hp]; rfl
  exact ⟨⟨inv_busy, rfl, hw, rfl⟩, ⟨inv_busy.congr rfl rfl rfl rfl rfl rfl rfl rfl rfl (Nat.le_refl _) (Or.inr (by decide)),
    rfl, hw, rfl, by decide⟩,
    inv_busy.congr rfl rfl rfl rfl rfl rfl rfl rfl rfl (Nat.le_refl _) (Or.inl rfl), _, _, _, _, rfl, rfl, rfl⟩

theorem test_meets_OnlyTickCommandsAdvanceTheTickCounter : ∃ t, step busy = .next t := busy_steps

theorem test_meets_OnlyRespondingCommandsAppendToRsp :
    completes (.query 0#4) busy ∧ completes (.convert none) busy ∧ completes (.rdreg 9#8) busy ∧ completes .nop busy :=
  ⟨⟨_, rfl⟩, ⟨_, rfl⟩, ⟨_, rfl⟩, ⟨_, rfl⟩⟩

theorem test_meets_StatusBitsOnlyClearByWriteOne :
    ∃ s t, exec (.wrreg 2#8 (some 0x40#32)) s = .next t ∧ s.status.getLsbD 6 = true ∧ t.status.getLsbD 6 = false ∧
      ∃ u, exec (.wrreg 1#8 (some 1#32)) s = .next u ∧ u.ctrl ≠ s.ctrl :=
  ⟨{ State.reset with status := 0x40#32 }, _, rfl, by decide, by decide, _, rfl, by decide⟩

/-- One clause each: `BASE`, `MAP`, the slot, `DIRTY` set and `DIRTY` cleared. -/
theorem test_meets_AreaFieldsHaveTheirWriters :
    (∃ t r', exec (.areaCmd 0#4 onOnly) (withArea plainArea) = .next t ∧ t.area? 0 = some r' ∧ r'.base ≠ plainArea.base ∧
      r'.eff ≠ plainArea.eff ∧ r'.dirty ≠ plainArea.dirty) ∧
    (∃ t r', exec (.defineArea 0#4 []) (withArea plainArea) = .next t ∧ t.area? 0 = some r' ∧ r'.map ≠ plainArea.map) ∧
    (∃ t r', exec (.query 0#4) (withArea litArea) = .next t ∧ t.area? 0 = some r' ∧ r'.dirty ≠ litArea.dirty) :=
  ⟨⟨_, _, rfl, rfl, by decide, by decide, by decide⟩, ⟨_, _, rfl, rfl, by decide⟩, ⟨_, _, rfl, rfl, by decide⟩⟩

theorem test_meets_OnlyPixelCommandsChangePixels :
    ∃ t, exec (.setPixel (some ⟨4#16, 7#32⟩)) fivePixels = .next t ∧ t.pixel? 4 ≠ fivePixels.pixel? 4 :=
  ⟨_, rfl, by decide⟩

theorem test_meets_BadCmdHasExactlyItsCauses :
    (∃ s t, step s = .next t ∧ s.status.getLsbD 4 = false ∧ t.status.getLsbD 4 = true ∧
      decode s.cmd = .command (.rdreg 9#8) []) ∧
    ∃ s t, step s = .next t ∧ s.status.getLsbD 4 = false ∧ decode s.cmd = .reservedOpcode 0x0D#8 [] :=
  ⟨⟨{ State.reset with cmd := [0x0B000900#32] }, _, rfl, by decide, by decide, by decide⟩,
    ⟨{ State.reset with cmd := [0x0D000000#32] }, _, rfl, by decide, by decide⟩⟩

theorem test_meets_ClockDoesNotMatter :
    ∃ s s' : State, s ≠ s' ∧ s.timeless = s'.timeless := ⟨busy, { busy with now := 7 }, by decide +kernel, rfl⟩

theorem test_meets_NopIsConsumedAndChangesNothing :
    opcodeField 0x00ABCD01#32 = 0x00#8 ∧ (lenField 0x00ABCD01#32).toNat ≤ [5#32].length := by decide

theorem test_meets_RdregAnswersTheRegister :
    (8 < (9#8).toNat ∧ 8 < (255#8).toNat) ∧ opcodeField 0x0B000800#32 = 0x0B#8 ∧
    (lenField 0x0B000800#32).toNat ≤ ([] : List Word).length := by decide

theorem test_meets_WrregWritesCtrlAndClearsStatus :
    ((0#8 ≠ 0x01#8 ∧ 0#8 ≠ 0x02#8) ∧ (3#8 ≠ 0x01#8 ∧ 3#8 ≠ 0x02#8)) ∧
    (opcodeField 0x0C000101#32 = 0x0C#8 ∧ [1#32].length = (lenField 0x0C000101#32).toNat) ∧
    (opcodeField 0x0C000100#32 = 0x0C#8 ∧ ([] : List Word).length = (lenField 0x0C000100#32).toNat) := by decide

/-- The four cases at their boundaries: 17 and 16 strips, 1025 and 1024 pixels. -/
theorem test_meets_ConfigureFollowsTheDescriptors :
    fivePixels.status.getLsbD 0 = true ∧ State.reset.status.getLsbD 0 = false ∧ Build.default.maxStrips < (strips 16 1#16).length ∧
    ((strips 15 1010#16).length ≤ State.reset.build.maxStrips ∧ State.reset.build.maxPixels < ((strips 15 1010#16).map fun d => d.length.toNat).sum) ∧
    ((strips 15 1009#16).length ≤ State.reset.build.maxStrips ∧
      ((strips 15 1009#16).map fun d => d.length.toNat).sum ≤ State.reset.build.maxPixels ∧
      State.reset.build.maxPixels ≤ 65535) := by decide

theorem test_meets_StripTableIsWrittenOnce :
    (Build.default.maxStrips < (strips 16 1#16).length ∧ opcodeField 0x01000011#32 = 0x01#8 ∧ Build.default.maxStrips < (lenField 0x01000011#32).toNat ∧
      (lenField 0x01000011#32).toNat ≤ (List.replicate 17 0#32).length) ∧
    ((∀ ds, Instr.tick ≠ .configure ds) ∧ ∃ t, exec .tick (busy.consume []) = .next t) :=
  ⟨by decide, fun _ h => (by cases h), busy_steps⟩

/-- Both strips at both of their ends, and the first index past them. -/
theorem test_meets_LogicalIndexResolvesInsideItsStrip :
    stripsContiguous 0 fivePixels.strips fivePixels.npix.toNat ∧
    (∃ r0 r1, fivePixels.strips = [r0, r1] ∧ r0.reversed = true ∧ r1.reversed = false ∧
      (r0.offset.toNat ≤ 0 ∧ 2 < r0.offset.toNat + r0.length.toNat) ∧
      (r1.offset.toNat ≤ 3 ∧ 4 < r1.offset.toNat + r1.length.toNat)) ∧
    4 < fivePixels.npix.toNat ∧ fivePixels.npix.toNat ≤ 5 :=
  ⟨⟨rfl, rfl, rfl⟩, ⟨_, _, rfl, rfl, rfl, by decide, by decide⟩, by decide, by decide⟩

theorem test_meets_AreaRegistersHaveOneBitPerArea : fivePixels.areas.length ≤ 16 := by decide

theorem test_meets_DefineAreaBuildsTheIndexMap :
    (fivePixels.areas.length = fivePixels.build.maxAreas ∧ fivePixels.build.maxAreas ≤ (10#4).toNat ∧
      (9#4).toNat < fivePixels.build.maxAreas) ∧ (∃ r, fivePixels.area? (9#4).toNat = some r) ∧
    fivePixels.build.maxMapLen < (([⟨0#16, 1024#16⟩, ⟨0#16, 1#16⟩] : List Section).map fun w => w.length.toNat).sum ∧
    (([⟨0#16, 1023#16⟩, ⟨0#16, 1#16⟩] : List Section).map fun w => w.length.toNat).sum ≤ fivePixels.build.maxMapLen :=
  ⟨by decide, ⟨_, rfl⟩, by decide, by decide⟩

theorem test_meets_SetPixelWritesOnePixel :
    fivePixels.pixbuf.wf ∧ fivePixels.npix.toNat ≤ (5#16).toNat ∧ (4#16).toNat < fivePixels.npix.toNat := by decide

theorem test_meets_FillAreaPaintsTheCurrentMap :
    (withArea plainArea).definedArea? 1#4 = none ∧ (withArea plainArea).area? (0#4).toNat = some plainArea ∧
    plainArea.defined = true ∧ (withArea plainArea).pixbuf.wf := by decide +kernel

theorem test_meets_UndefinedAreaOnlySetsBadArea :
    (fivePixels.areas.length = fivePixels.build.maxAreas ∧ fivePixels.build.maxAreas ≤ (10#4).toNat) ∧
    ∃ r, fivePixels.area? (9#4).toNat = some r ∧ r.defined = false := ⟨by decide, _, rfl, rfl⟩

theorem test_meets_ConvertAnswersThePixel :
    (opcodeField 0x0A000001#32 = 0x0A#8 ∧ [9#32].length = (lenField 0x0A000001#32).toNat ∧ [9#32].length < 2) ∧
    (opcodeField 0x0A000003#32 = 0x0A#8 ∧ [9#32, 9#32, 9#32].length = (lenField 0x0A000003#32).toNat) := by decide

theorem test_meets_ToPixelNormalisesItsColour :
    (BitVec.ofInt 16 (-1)).toInt < 0 ∧ 0 ≤ (0#16 : BitVec 16).toInt := by decide

theorem test_meets_HueWeightsSumToOneLobe : 46079 < 46080 := by decide

/-- The two ends of the range of `GAMMA`. -/
theorem test_meets_TablesHoldTheirPowerLaws :
    (0 < (⟨11, 5⟩ : Gamma).num ∧ 0 < (⟨11, 5⟩ : Gamma).den) ∧ (0 < (⟨12, 5⟩ : Gamma).num ∧ 0 < (⟨12, 5⟩ : Gamma).den) ∧
    1 ≤ 1 ∧ 200 ≤ 200 := by decide

theorem test_meets_InterpolationIsMonotonic :
    (0 < (⟨12, 5⟩ : Gamma).num ∧ 0 < (⟨12, 5⟩ : Gamma).den) ∧
    (gammaLut ⟨12, 5⟩ ∈ [gammaLut ⟨12, 5⟩, satLut] ∧ satLut ∈ [gammaLut ⟨12, 5⟩, satLut]) ∧ 199 < 200 ∧ 127 < 128 ∧
    25599 ≤ 25600 :=
  ⟨by decide, ⟨List.mem_cons_self .., List.mem_cons_of_mem _ (List.mem_cons_self ..)⟩, by decide⟩

/-- The largest colour in range, and the corners `v = 0`, `s = 0`, `s = 25600`. -/
theorem test_meets_FastStrategyRoundsEachChannelOnce :
    (0 < (⟨12, 5⟩ : Gamma).num ∧ 0 < (⟨12, 5⟩ : Gamma).den) ∧
    inRange ⟨46079#16, 25600#16, 25600#16⟩ ∧ inRange ⟨0#16, 0#16, 0#16⟩ := by decide

theorem test_meets_ReferenceStrategyIsTheRealPowerLaw :
    (0 < (⟨12, 5⟩ : Gamma).num ∧ 0 < (⟨12, 5⟩ : Gamma).den) ∧
    inRange ⟨46079#16, 25600#16, 25600#16⟩ ∧ inRange ⟨0#16, 0#16, 0#16⟩ := by decide

theorem test_meets_StrategiesAgreeWithinOneCount :
    inRange ⟨0#16, 128#16, 25600#16⟩ ∧ 128 ≤ (128#16).toNat ∧ inRange ⟨0#16, 0#16, 25600#16⟩ ∧ (0#16).toNat = 0 := by decide

theorem test_meets_MixIsTheRoundedLine :
    componentsOf.length = 3 ∧ 0 < 1 ∧ 1 ≤ 1 ∧ inRange ⟨46079#16, 0#16, 25600#16⟩ ∧ inRange black := by decide

theorem test_meets_AreaCmdRetargetsAndBindsATransition :
    (withArea fadingArea).area? (0#4).toNat = some fadingArea ∧ fadingArea.defined = true ∧ onOnly.state ≠ none := by
  decide +kernel

/-- 2.5: `P_BRI` alone with one payload word, and `P_TRANS` alone. -/
theorem test_meets_AreaCmdWithoutStateFieldChangesNothing :
    (withArea fadingArea).area? (areaField 0x05000801#32).toNat = some fadingArea ∧ fadingArea.defined = true ∧
    ([0#32].length = (lenField 0x05000801#32).toNat ∧ opcodeField 0x05000801#32 = 0x05#8 ∧ (0x05000801#32).getLsbD 8 = false ∧
      (0x05000801#32).getLsbD 9 = false ∧ (0x05000801#32).getLsbD 10 = false ∧ [0#32].length < 2) ∧
    ((0x05001003#32).getLsbD 8 = false ∧ (0x05001003#32).getLsbD 9 = false ∧ (0x05001003#32).getLsbD 10 = false ∧
      (0x05001003#32).getLsbD 11 = false) := by decide +kernel

theorem test_meets_EffColorFollowsBaseAndOn :
    Area.reset.base.v.toInt < 0 ∧ (0 ≤ litArea.base.v.toInt ∧ litArea.on = true) ∧
    (0 ≤ { litArea with on := false }.base.v.toInt ∧ { litArea with on := false }.on = false) := by decide

theorem test_meets_CurrentColorIsTheLatestFrame :
    (fadingArea.eff = some fade ∧ fade.start ≤ 0) ∧ litArea.kind ≠ 1 ∧
    { litArea with eff := some ⟨0, [], .rainbow 1#32 1#16 none⟩ }.kind ≠ 1 := by decide

theorem test_meets_EffectBindsTheNamedEffect :
    (withArea litArea).area? (0#4).toNat = some litArea ∧ litArea.defined = true ∧
    (∃ q : EffectRequest, q.name = .unnamed 7#3) ∧ (∃ q : EffectRequest, q.name = .rainbow) ∧
    (∃ q : EffectRequest, q.name = .wave .triangular) ∧ ∃ q : EffectRequest, q.name = .cylon :=
  ⟨by decide +kernel, rfl, ⟨⟨_, 0#32, 0#16, none⟩, rfl⟩, ⟨⟨_, 0#32, 0#16, none⟩, rfl⟩, ⟨⟨_, 0#32, 0#16, none⟩, rfl⟩,
    ⟨⟨_, 0#32, 0#16, none⟩, rfl⟩⟩

theorem test_meets_QueryReportsTheTargetState :
    ((withArea plainArea).area? (0#4).toNat = some plainArea ∧ plainArea.base = ⟨0#16, 0#16, BitVec.ofInt 16 (-25600)⟩) ∧
    ((withArea litArea).area? (0#4).toNat = some litArea ∧ inRange litArea.base) := by decide +kernel

theorem test_meets_PhaseIsPeriodic : 0 < 1 := by decide

/-- Elapsed 3 and 4 of a duration of 4, and a duration of 0. -/
theorem test_meets_TransitionFadesFromFromToTo :
    0 < 1 ∧ (0#32).toNat = 0 ∧ (4#32).toNat ≤ 4 ∧ (0 < (4#32).toNat ∧ 3 < (4#32).toNat) ∧
    inRange ⟨15360#16, 25600#16, 12800#16⟩ ∧ inRange ⟨15360#16, 25600#16, 25600#16⟩ := by decide

theorem test_meets_RainbowTurnsWithTimeAndPosition :
    3 < 4 ∧ (0#32).toNat ≤ 1 ∧ (1#32).toNat ≤ 1 ∧ (0#16).toNat = 0 ∧ (46080#16).toNat = 46080 := by decide

theorem test_meets_WaveTravelsAlongTheArea :
    inRange ⟨46079#16, 25600#16, 25600#16⟩ ∧ 7 < 8 ∧ (1#16).toNat ≤ 1 ∧ (0#16).toNat ≤ 1 ∧ (0#32).toNat = 0 := by decide

theorem test_meets_SineTableHasItsFixedPoints : 0 ≤ 255 ∧ (1 ≤ 1 ∧ 1 ≤ 255) ∧ (1 ≤ 255 ∧ 255 ≤ 255) := by decide

/-- Inside the band (e = 0, i = 0), at its edge and with no band. -/
theorem test_meets_CylonSweepsABand :
    inRange ⟨25600#16, 25600#16, 25600#16⟩ ∧ 0 < 4 ∧ cylonCentre 4 6 0 = 0 ∧
    ((0 : ℤ) * 256 - 0).natAbs < (3#16).toNat * 128 ∧ (2#16).toNat * 128 ≤ ((1 : ℤ) * 256 - 0).natAbs ∧
    (0#16).toNat * 128 = 0 := by decide

theorem test_meets_IdleTickOnlyCounts : ∃ s : State, ∀ a r, s.area? a = some r → r.eff = none := by
  refine ⟨fivePixels, fun a r h => ?_⟩
  have ha : a < 10 := State.area?_lt h
  interval_cases a <;> · cases h; rfl

theorem test_meets_TickUpdatesEveryActiveAreaAndShowsOnce :
    (BufferInv busy ∧ busy.irqDisable = false ∧ someActive busy = true) ∧
    (BufferInv fivePixels ∧ fivePixels.irqDisable = false ∧ someActive fivePixels = false) :=
  ⟨⟨buffer_busy, rfl, by decide +kernel⟩, ⟨buffer_five, rfl, by decide +kernel⟩⟩

theorem test_meets_UpdateWritesEveryMappedPosition :
    BufferInv busy ∧ busy.area? 0 = some fadingArea ∧ fadingArea.eff = some fade ∧ fade.emap.Nodup ∧
    (∀ b r', b ≠ 0 → busy.area? b = some r' → r'.eff = none) ∧ (fade.emap[3]? = some 4#16 ∧ (4#16).toNat < busy.npix.toNat) ∧
    (∀ x ∈ fade.emap, x.toNat ≠ 0) := by
  refine ⟨buffer_busy, by decide +kernel, rfl, by decide, fun b r' hb h => ?_, ?_, by simp [fade]⟩
  · exact busy_idle hb h
  · exact ⟨rfl, (by decide : 4 < 5)⟩

theorem test_meets_ShowSendsEveryStripInOrder : BufferInv fivePixels ∧ fivePixels.irqDisable = false := ⟨buffer_five, rfl⟩

/-- A SHOW of the one strip, a TICK that shows both strips of `busy`, and a command that shows nothing. -/
theorem test_meets_ShowKeepsTheResetGap :
    (∃ t new, exec .showStrips (oneStrip 1#16) = .next t ∧ t.wire = (oneStrip 1#16).wire ++ new ∧
      (∃ a, .frameStart 0 a ∈ new) ∧ (∃ b, .frameEnd 0 b ∈ new) ∧ 0 ∈ framesOf new ∧ 1 ∉ framesOf new) ∧
    (∃ t, exec .tick (busy.consume []) = .next t) ∧ (∀ ds, Instr.showStrips ≠ .configure ds) ∧
    ∃ t, exec .nop busy = .next t ∧ t.wire = busy.wire ++ [] ∧ framesOf [] = [] :=
  ⟨⟨_, _, rfl, rfl, ⟨_, List.mem_cons_self ..⟩, ⟨_, List.mem_of_getElem? (i := 33) rfl⟩, by
    rw [show framesOf _ = [0] from rfl]; decide⟩, busy_steps, fun _ h => (by cases h), _, rfl, rfl, rfl⟩

theorem test_meets_FrameIsOneCriticalSection :
    ∃ r, fivePixels.strips[1]? = some r ∧ r.offset.toNat + r.length.toNat ≤ fivePixels.npix.toNat ∧
      r.lastShown + fivePixels.build.resetUs ≤ { fivePixels with now := 80 }.now := ⟨_, rfl, by decide, by decide⟩

theorem test_meets_WireOrderIsGreenRedBlueWhite :
    ([7#32, 9#32] : List Pixel)[1]? = some 9#32 ∧ 31 < 32 ∧ Build.default.wireOrder.length = 4 ∧
    Build.default.wireOrder[3]? = some .white ∧ 7 < 8 := by decide

theorem test_meets_FrameDurationIsBounded : Build.default.wireOrder.length = 4 := rfl

end Sys2Proof.Tests
end

section
/-! SUPPORT. Steps and commands by inversion: if a step or a command answers a next state, which one it is.  The two commands
that show have their own: `showAll_frame` and `execTick_cases`. -/

namespace Sys2Proof.Machine

/-- Inversion of a step: a command ran, or a reserved packet was skipped (R105), or no whole packet was there (R112). -/
theorem step_cases {s t : State} (h : step s = .next t) :
    (∃ i rest, decode s.cmd = .command i rest ∧ exec i (s.consume rest) = .next t) ∨
    (∃ opcode rest, decode s.cmd = .reservedOpcode opcode rest ∧ t = (s.consume rest).flag .badCmd) ∨
    (decode s.cmd = .incomplete ∧ t = s) := by
  unfold step fetch at h
  cases hd : decode s.cmd with
  | command i rest => rw [hd] at h; exact .inl ⟨i, rest, rfl, h⟩
  | reservedOpcode opcode rest => rw [hd] at h; cases h; exact .inr (.inl ⟨opcode, rest, rfl, rfl⟩)
  | incomplete => rw [hd] at h; cases h; exact .inr (.inr ⟨rfl, rfl⟩)

/-! ### Addressing -/

/-- CONFIGURE: refused, degraded or installed (R150, R152, R153). -/
theorem execConfigure_cases {ds : List StripDesc} {s t : State} (h : execConfigure ds s = .next t) :
    ((s.flagged .configured = true ∨ s.build.maxStrips < ds.length) ∧ t = s.flag .badCmd) ∨
    (s.flagged .configured = false ∧ ds.length ≤ s.build.maxStrips ∧ s.build.maxPixels < totalLength ds ∧
      t = (s.flag .configured).degradeBuffer) ∨
    (s.flagged .configured = false ∧ ds.length ≤ s.build.maxStrips ∧ totalLength ds ≤ s.build.maxPixels ∧
      t = (s.flag .configured).installStrips ds) := by
  unfold execConfigure at h
  split at h
  · next hc => cases h; exact .inl ⟨.inl hc, rfl⟩
  next hc =>
    have hc := Bool.eq_false_iff.mpr hc
    split at h
    · next hn => cases h; exact .inl ⟨.inr hn, rfl⟩
    next hn =>
      split at h
      · next hp => cases h; exact .inr (.inl ⟨hc, Nat.le_of_not_lt hn, hp, rfl⟩)
      · next hp => cases h; exact .inr (.inr ⟨hc, Nat.le_of_not_lt hn, Nat.le_of_not_lt hp, rfl⟩)

/-- DEFINE_AREA: an id outside the table, or the map built and installed (R156 to R159). -/
theorem execDefineArea_cases {a : AreaId} {ws : List Section} {s t : State} (h : execDefineArea a ws s = .next t) :
    (s.area? a.toNat = none ∧ t = s.flag .badArea) ∨
    ∃ r, s.area? a.toNat = some r ∧
      t = (buildMap ws s).2.setArea a.toNat { r with map := (buildMap ws s).1, defined := true } := by
  unfold execDefineArea at h
  split at h
  · next ha => cases h; exact .inl ⟨ha, rfl⟩
  · next r ha => cases h; exact .inr ⟨r, ha, rfl⟩

/-- SET_PIXEL: a short packet, or one write (R160). -/
theorem execSetPixel_cases {write : Option PixelWrite} {s t : State} (h : execSetPixel write s = .next t) :
    (write = none ∧ t = s.flag .badCmd) ∨ ∃ w, write = some w ∧ t = s.setPixel w.index w.pixel := by
  cases write with
  | none => cases h; exact .inl ⟨rfl, rfl⟩
  | some w => cases h; exact .inr ⟨w, rfl, rfl⟩

/-- FILL_AREA: a short packet, no such Area, or the fill of its map (R166). -/
theorem execFillArea_cases {a : AreaId} {color : Option Color} {s t : State} (h : execFillArea a color s = .next t) :
    (color = none ∧ t = s.flag .badCmd) ∨
    (color ≠ none ∧ s.definedArea? a = none ∧ t = s.flag .badArea) ∨
    ∃ c r, color = some c ∧ s.definedArea? a = some r ∧
      t = s.setPixels (r.map.map fun i => (i, toPixel s.conversion c)) := by
  unfold execFillArea at h
  split at h
  · cases h; exact .inl ⟨rfl, rfl⟩
  next c =>
    split at h
    · next ha => cases h; exact .inr (.inl ⟨nofun, ha, rfl⟩)
    · next r ha => cases h; exact .inr (.inr ⟨c, r, rfl, ha, rfl⟩)

/-! ### The effect engine -/

/-- AREA_CMD: no such Area, no state field, or the retargeted Area (R187, R189). -/
theorem execAreaCmd_cases {a : AreaId} {f : AreaFields} {s t : State} (h : execAreaCmd a f s = .next t) :
    (s.definedArea? a = none ∧ t = s.flag .badArea) ∨
    (∃ r, s.definedArea? a = some r ∧ AreaFields.empty f = true ∧ t = s) ∨
    ∃ r, s.definedArea? a = some r ∧ AreaFields.empty f = false ∧
      t = s.setArea a.toNat (commandArea s.build.defaultColor s.tick f r) := by
  unfold execAreaCmd at h
  split at h
  · next ha => cases h; exact .inl ⟨ha, rfl⟩
  next r ha =>
    split at h
    · next he => cases h; exact .inr (.inl ⟨r, ha, he, rfl⟩)
    · next he => cases h; exact .inr (.inr ⟨r, ha, Bool.eq_false_iff.mpr he, rfl⟩)

/-- EFFECT: a short packet, no such Area, a code that is no name, or the named effect bound (R190, R191). -/
theorem execEffect_cases {a : AreaId} {request : Option EffectRequest} {s t : State}
    (h : execEffect a request s = .next t) :
    (request = none ∧ t = s.flag .badCmd) ∨
    (request ≠ none ∧ s.definedArea? a = none ∧ t = s.flag .badArea) ∨
    (∃ q r, request = some q ∧ s.definedArea? a = some r ∧ requestedMotion q = none ∧ t = s.flag .badCmd) ∨
    ∃ q r m, request = some q ∧ s.definedArea? a = some r ∧ requestedMotion q = some m ∧
      t = s.setArea a.toNat (bindEffect s.tick r m) := by
  unfold execEffect at h
  split at h
  · cases h; exact .inl ⟨rfl, rfl⟩
  next q =>
    split at h
    · next ha => cases h; exact .inr (.inl ⟨nofun, ha, rfl⟩)
    next r ha =>
      split at h
      · next hm => cases h; exact .inr (.inr (.inl ⟨q, r, rfl, ha, hm, rfl⟩))
      · next m hm => cases h; exact .inr (.inr (.inr ⟨q, r, m, rfl, ha, hm, rfl⟩))

/-- QUERY: no such Area, or its two words (R103, R198). -/
theorem execQuery_cases {a : AreaId} {s t : State} (h : execQuery a s = .next t) :
    (s.definedArea? a = none ∧ t = ((s.flag .badArea).respond 0#32).respond 0#32) ∨
    ∃ r, s.definedArea? a = some r ∧
      t = ((s.respond (queryWord0 r)).respond (queryWord1 r)).setArea a.toNat { r with dirty := false } := by
  unfold execQuery at h
  split at h
  · next ha => cases h; exact .inl ⟨ha, rfl⟩
  · next r ha => cases h; exact .inr ⟨r, ha, rfl⟩

/-! ### Colours and registers -/

/-- CONVERT: a short packet, or the pixel of its colour (R103, R139). -/
theorem execConvert_cases {color : Option Color} {s t : State} (h : execConvert color s = .next t) :
    (color = none ∧ t = (s.flag .badCmd).respond 0#32) ∨
    ∃ c, color = some c ∧ t = s.respond (toPixel s.conversion c) := by
  cases color with
  | none => cases h; exact .inl ⟨rfl, rfl⟩
  | some c => cases h; exact .inr ⟨c, rfl, rfl⟩

/-- RDREG: a reserved number, or the register's value (R261, R263). -/
theorem execRdreg_cases {reg : BitVec 8} {s t : State} (h : execRdreg reg s = .next t) :
    (Reg.ofNumber reg = none ∧ t = (s.flag .badCmd).respond 0#32) ∨
    ∃ r, Reg.ofNumber reg = some r ∧ t = s.respond (s.readReg r) := by
  unfold execRdreg at h
  split at h
  · next r hr => cases h; exact .inr ⟨r, hr, rfl⟩
  · next hr => cases h; exact .inl ⟨hr, rfl⟩

/-- A write to any register but `CTRL` and `STATUS` flags `BAD_CMD` (R262). -/
theorem State.writeReg_readOnly (s : State) (x : Word) {r : Reg} (h1 : r ≠ .ctrl) (h2 : r ≠ .status) :
    s.writeReg x r = s.flag .badCmd := by
  cases r with
  | ctrl => exact absurd rfl h1
  | status => exact absurd rfl h2
  | _ => rfl

/-- WRREG: `CTRL` written, `STATUS` cleared, or `BAD_CMD` for every other number and for a short packet (R262, R263). -/
theorem execWrreg_cases {reg : BitVec 8} {value : Option Word} {s t : State} (h : execWrreg reg value s = .next t) :
    (∃ x, value = some x ∧ Reg.ofNumber reg = some .ctrl ∧ t = s.writeCtrl x) ∨
    (∃ x, value = some x ∧ Reg.ofNumber reg = some .status ∧ t = s.clearStatus x) ∨
    ((value = none ∨ (Reg.ofNumber reg ≠ some .ctrl ∧ Reg.ofNumber reg ≠ some .status)) ∧ t = s.flag .badCmd) := by
  unfold execWrreg at h
  split at h
  · cases h; exact .inr (.inr ⟨.inl rfl, rfl⟩)
  next x =>
    split at h
    · next r hr =>
      cases h
      rw [hr]
      by_cases h1 : r = .ctrl
      · subst h1; exact .inl ⟨x, rfl, rfl, rfl⟩
      by_cases h2 : r = .status
      · subst h2; exact .inr (.inl ⟨x, rfl, rfl, rfl⟩)
      exact .inr (.inr ⟨.inr ⟨by simpa using h1, by simpa using h2⟩, s.writeReg_readOnly x h1 h2⟩)
    · next hr => cases h; rw [hr]; exact .inr (.inr ⟨.inr ⟨nofun, nofun⟩, rfl⟩)

end Sys2Proof.Machine
end

section
/-! SUPPORT. `TICK` and `RSP` over a command and over a step, and the registers with one bit for each Area: the statements
`OnlyTickCommandsAdvanceTheTickCounter`, `OnlyRespondingCommandsAppendToRsp` and `AreaRegistersHaveOneBitPerArea`. -/

namespace Sys2Proof.Machine

@[simp] theorem buildMap_tick (ws : List Section) (s : State) : (buildMap ws s).2.tick = s.tick := by
  rcases buildMap_state ws s with e | e | e <;> rw [e] <;> simp

@[simp] theorem buildMap_rsp (ws : List Section) (s : State) : (buildMap ws s).2.rsp = s.rsp := by
  rcases buildMap_state ws s with e | e | e <;> rw [e] <;> simp

/-! ### TICK and RSP -/

/-- TICK adds 1 to `TICK`, whether or not it shows (R32, R181). -/
theorem execTick_tick {s t : State} (h : execTick s = .next t) : t.tick = s.tick + 1 := by
  rcases execTick_cases h with ⟨-, hs⟩ | ⟨-, rfl⟩
  · rw [(showAll_frame hs).tick, State.ticked_tick]
  · exact State.ticked_tick s

/-- TICK answers nothing (R36). -/
theorem execTick_rsp {s t : State} (h : execTick s = .next t) : t.rsp = s.rsp := by
  rcases execTick_cases h with ⟨-, hs⟩ | ⟨-, rfl⟩
  · rw [(showAll_frame hs).rsp, State.ticked_rsp]
  · exact State.ticked_rsp s

/-- A command other than TICK that answers no words leaves `TICK` and `RSP` (R32, R36). -/
theorem exec_tick_rsp_of_silent {i : Instr} {s t : State} (hi : i ≠ .tick) (hr : responseWords i = 0)
    (h : exec i s = .next t) : t.tick = s.tick ∧ t.rsp = s.rsp := by
  cases i with
  | nop => cases h; exact ⟨rfl, rfl⟩
  | configure ds => rcases execConfigure_cases h with ⟨-, rfl⟩ | ⟨-, -, -, rfl⟩ | ⟨-, -, -, rfl⟩ <;> simp
  | defineArea a ws => rcases execDefineArea_cases h with ⟨-, rfl⟩ | ⟨r, -, rfl⟩ <;> simp
  | setPixel w => rcases execSetPixel_cases h with ⟨-, rfl⟩ | ⟨w, -, rfl⟩ <;> simp
  | showStrips => exact ⟨(showAll_frame h).tick, (showAll_frame h).rsp⟩
  | areaCmd a f => rcases execAreaCmd_cases h with ⟨-, rfl⟩ | ⟨r, -, -, rfl⟩ | ⟨r, -, -, rfl⟩ <;> simp
  | effect a q =>
    rcases execEffect_cases h with ⟨-, rfl⟩ | ⟨-, -, rfl⟩ | ⟨q, r, -, -, -, rfl⟩ | ⟨q, r, m, -, -, -, rfl⟩ <;> simp
  | fillArea a c => rcases execFillArea_cases h with ⟨-, rfl⟩ | ⟨-, -, rfl⟩ | ⟨c, r, -, -, rfl⟩ <;> simp
  | tick => exact absurd rfl hi
  | query a => cases hr
  | convert c => cases hr
  | rdreg reg => cases hr
  | wrreg reg x => rcases execWrreg_cases h with ⟨x, -, -, rfl⟩ | ⟨x, -, -, rfl⟩ | ⟨-, rfl⟩ <;> simp

/-- A command that answers appends its number of words to `RSP` (R36, R104) and leaves `TICK` (R32). -/
theorem exec_tick_rsp_of_answering {i : Instr} {s t : State} (hr : responseWords i ≠ 0) (h : exec i s = .next t) :
    t.tick = s.tick ∧ ∃ ws, t.rsp = s.rsp ++ ws ∧ ws.length = responseWords i := by
  cases i with
  | query a =>
    rcases execQuery_cases h with ⟨-, rfl⟩ | ⟨r, -, rfl⟩
    · exact ⟨by simp, [0#32, 0#32], by simp, rfl⟩
    · exact ⟨by simp, [queryWord0 r, queryWord1 r], by simp, rfl⟩
  | convert c => rcases execConvert_cases h with ⟨-, rfl⟩ | ⟨c, -, rfl⟩ <;> exact ⟨rfl, [_], State.respond_rsp _ _, rfl⟩
  | rdreg reg => rcases execRdreg_cases h with ⟨-, rfl⟩ | ⟨r, -, rfl⟩ <;> exact ⟨rfl, [_], State.respond_rsp _ _, rfl⟩
  | _ => exact absurd rfl hr

/-- Every command but TICK leaves `TICK` (R32). -/
theorem exec_tick_of_ne {i : Instr} {s t : State} (hi : i ≠ .tick) (h : exec i s = .next t) : t.tick = s.tick := by
  by_cases hr : responseWords i = 0
  · exact (exec_tick_rsp_of_silent hi hr h).1
  · exact (exec_tick_rsp_of_answering hr h).1

/-- Every command keeps the words in `RSP` and appends its number of them (R36, R104). -/
theorem exec_rsp {i : Instr} {s t : State} (h : exec i s = .next t) :
    ∃ ws, t.rsp = s.rsp ++ ws ∧ ws.length = responseWords i := by
  by_cases hr : responseWords i = 0
  · have e : t.rsp = s.rsp := by
      by_cases hi : i = .tick
      · subst hi; exact execTick_rsp h
      · exact (exec_tick_rsp_of_silent hi hr h).2
    exact ⟨[], by rw [e, List.append_nil], hr.symm⟩
  · exact (exec_tick_rsp_of_answering hr h).2

/-- Settles O14: a step that runs a TICK adds 1; a step that runs another command, skips a reserved packet or waits adds
nothing. -/
theorem onlyTickCommandsAdvanceTheTickCounter : Obligations.OnlyTickCommandsAdvanceTheTickCounter := by
  refine ⟨rfl, fun s t h => ?_⟩
  rcases step_cases h with ⟨i, rest, hd, hx⟩ | ⟨opcode, rest, hd, rfl⟩ | ⟨hd, rfl⟩ <;> rw [hd]
  · by_cases hi : i = .tick
    · subst hi; exact execTick_tick (s := s.consume rest) hx
    · split
      · next e => cases e; exact absurd rfl hi
      · exact exec_tick_of_ne (s := s.consume rest) hi hx
  · simp
  · simp

/-- Settles O15: silent and answering commands by `exec_rsp`. -/
theorem onlyRespondingCommandsAppendToRsp : Obligations.OnlyRespondingCommandsAppendToRsp :=
  ⟨rfl, fun _ _ _ h => exec_rsp h⟩

/-! ### AREAS_DEFINED and ACTIVE -/

theorem Motion.kind_ne_zero (m : Motion) : m.kind ≠ 0 := by
  cases m <;> simp [Motion.kind]

/-- `KIND` is 0 exactly in an empty slot (R30). -/
theorem Area.decide_kind_ne_zero (r : Area) : decide (r.kind ≠ 0) = r.eff.isSome := by
  unfold Area.kind
  cases r.eff with
  | none => rfl
  | some e => simp [e.motion.kind_ne_zero]

/-- A write to a read-only register does nothing but set `BAD_CMD` (R262). -/
theorem exec_wrreg_readOnly {reg : BitVec 8} {r : Reg} (hr : Reg.ofNumber reg = some r) (h1 : r ≠ .ctrl)
    (h2 : r ≠ .status) (x : Word) (s : State) : exec (.wrreg reg (some x)) s = .next (s.flag .badCmd) := by
  rw [← s.writeReg_readOnly x h1 h2]
  show execWrreg reg (some x) s = _
  rw [execWrreg, hr]

theorem bitmap_replicate_false (n : Nat) : bitmap (List.replicate n false) = 0 := by
  induction n with
  | zero => rfl
  | succ n ih => rw [List.replicate_succ, bitmap, ih]; rfl

/-- A register with one bit for each Area reads 0 after reset where an Area after reset has a 0 (R53). -/
theorem bitmap_resetOf (b : Build) {f : Area → Bool} (hf : f Area.reset = false) :
    bitmap ((State.resetOf b).areas.map f) = 0 := by
  rw [State.resetOf, List.map_replicate, hf, bitmap_replicate_false]

/-- Settles O23: the bits by `readReg_bit`, the writes by `exec_wrreg_readOnly`, the reset values by `bitmap_resetOf`. -/
theorem areaRegistersHaveOneBitPerArea : Obligations.AreaRegistersHaveOneBitPerArea := by
  refine ⟨fun s a hl => ⟨readReg_bit (by omega) Area.defined a, ?_⟩, fun s x => ?_, fun s x => ?_, fun b => ⟨?_, ?_⟩⟩
  · rw [funext Area.decide_kind_ne_zero]
    exact readReg_bit (by omega) (fun r => r.eff.isSome) a
  · exact exec_wrreg_readOnly (r := .areasDefined) rfl nofun nofun x s
  · exact exec_wrreg_readOnly (r := .active) rfl nofun nofun x s
  · exact congrArg (BitVec.ofNat 32) (bitmap_resetOf b (f := Area.defined) rfl)
  · exact congrArg (BitVec.ofNat 32) (bitmap_resetOf b (f := fun r => r.eff.isSome) rfl)

end Sys2Proof.Machine
end

section
/-! SUPPORT. The packet at the head of a queue, for every opcode: the statements `NextHeaderIsLenWordsOn` and
`ReservedOpcodeIsSkippedByLen`. -/

namespace Sys2Proof

/-! ### The opcode map (R104, R105): case `h_14` of `decodePacket` is its last row, the reserved opcodes -/

/-- Exactly the opcodes above 0x0C are reserved. -/
theorem decodePacket_eq_none_iff (hdr : Word) (payload : List Word) :
    decodePacket hdr payload = none ↔ 0x0C < (opcodeField hdr).toNat := by
  unfold decodePacket
  split
  case h_14 =>
    simp only [imp_false] at *
    simp only [true_iff]
    omega
  all_goals next known => simp [known]

/-- A packet decodes to the command of its own opcode. -/
theorem decodePacket_opcode {hdr : Word} {payload : List Word} {i : Instr} (h : decodePacket hdr payload = some i) :
    i.opcode = opcodeField hdr := by
  unfold decodePacket at h
  split at h
  case h_14 => cases h
  all_goals next known => cases h; exact BitVec.eq_of_toNat_eq known.symm

/-! ### Decoded commands are well formed -/

/-- The codes that are names are decoded to the names (R98, R191). -/
theorem effectNameOf_wf (kind : BitVec 3) (shape : Bool) : (effectNameOf kind shape).wf = true := by
  unfold effectNameOf
  split
  · rfl
  split
  · rfl
  split
  · rfl
  · simp [EffectName.wf, *]

theorem effect_effectRequestOf_wf (a : AreaId) (hdr : Word) (payload : List Word) :
    (Instr.effect a (effectRequestOf hdr payload)).wf = true := by
  unfold effectRequestOf
  split
  · exact effectNameOf_wf _ _
  · rfl

/-- A payload within the range of `LEN` decodes to a well-formed command (R91). -/
theorem decodePacket_wf {hdr : Word} {payload : List Word} {i : Instr} (h : decodePacket hdr payload = some i)
    (hl : payload.length ≤ maxPayload) : i.wf = true := by
  unfold decodePacket at h
  split at h <;> cases h
  case h_2 => simpa [Instr.wf] using hl -- CONFIGURE, one STRIPDESC a word
  case h_3 => simpa [Instr.wf] using hl -- DEFINE_AREA, one SECTION a word
  case h_7 => exact effect_effectRequestOf_wf _ hdr payload
  all_goals rfl

/-! ### A whole packet at the head of a queue (R90, R108) -/

theorem lenField_le_maxPayload (hdr : Word) : (lenField hdr).toNat ≤ maxPayload := Nat.le_of_lt_succ (lenField hdr).isLt

theorem decode_command {hdr : Word} {more : List Word} {i : Instr} (hl : (lenField hdr).toNat ≤ more.length)
    (hi : decodePacket hdr (more.take (lenField hdr).toNat) = some i) :
    decode (hdr :: more) = .command i (more.drop (lenField hdr).toNat) := by
  rw [decode, if_neg (Nat.not_lt.mpr hl), hi]

theorem decode_reservedOpcode {hdr : Word} {more : List Word} (hl : (lenField hdr).toNat ≤ more.length)
    (ho : 0x0C < (opcodeField hdr).toNat) :
    decode (hdr :: more) = .reservedOpcode (opcodeField hdr) (more.drop (lenField hdr).toNat) := by
  rw [decode, if_neg (Nat.not_lt.mpr hl), (decodePacket_eq_none_iff hdr _).mpr ho]

/-- Settles O2: `decodePacket_eq_none_iff` tells known from reserved opcodes; the first `LEN` words are never more than
`maxPayload`, so a known one decodes to a well-formed command. -/
theorem nextHeaderIsLenWordsOn : Obligations.NextHeaderIsLenWordsOn := by
  intro hdr more hl
  refine ⟨fun known => ?_, decode_reservedOpcode hl⟩
  have hsome : decodePacket hdr (more.take (lenField hdr).toNat) ≠ none := fun hn =>
    Nat.not_lt.mpr known ((decodePacket_eq_none_iff hdr _).mp hn)
  obtain ⟨i, hi⟩ := Option.ne_none_iff_exists'.mp hsome
  have hp : (more.take (lenField hdr).toNat).length ≤ maxPayload :=
    (List.length_take_le _ _).trans (lenField_le_maxPayload hdr)
  exact ⟨i, decode_command hl hi, decodePacket_wf hi hp, decodePacket_opcode hi⟩

namespace Machine

/-- A reserved packet is consumed and sets `BAD_CMD` (R105). -/
theorem step_reservedOpcode {s : State} {opcode : BitVec 8} {rest : List Word}
    (h : decode s.cmd = .reservedOpcode opcode rest) : step s = .next ((s.consume rest).flag .badCmd) := by
  rw [step, fetch, h]; rfl

/-- Settles O7: the packet decodes to a reserved opcode (`decode_reservedOpcode`), and a step skips it. -/
theorem reservedOpcodeIsSkippedByLen : Obligations.ReservedOpcodeIsSkippedByLen := by
  intro s hdr more hc ho hl
  have hd : decode s.cmd = .reservedOpcode (opcodeField hdr) (more.drop (lenField hdr).toNat) := by
    rw [hc]
    exact decode_reservedOpcode hl ho
  exact step_reservedOpcode hd

end Machine

end Sys2Proof
end

section
/-! SUPPORT. The colour engine on every colour: the hue weights, normalisation, the tables against their power
laws, interpolation, and one channel byte under each strategy: the statements of 40_color_engine.md on conversion. -/

namespace Sys2Proof.Machine

/-! ### Hue weights (R122) -/

theorem absDiff_cast (a b : Nat) : (absDiff a b : ℤ) = |(a : ℤ) - b| := by
  unfold absDiff
  rcases abs_cases ((a : ℤ) - b) with ⟨e, hab⟩ | ⟨e, hab⟩
  · omega
  · omega

/-- A weight is what is left of a lobe at a hue's distance from its peak. -/
theorem hueWeight_cast (c : Channel) (h : Nat) : (hueWeight c h : ℤ) = max 0 (15360 - (lobeDistance c h : ℤ)) := by
  unfold hueWeight Config.lobe
  omega

theorem lobeDistance_red_cast {h : Nat} (hh : h < 46080) : (lobeDistance .red h : ℤ) = min (h : ℤ) (46080 - h) := by
  show ((min h (46080 - h) : Nat) : ℤ) = _
  omega

theorem lobeDistance_green_cast (h : Nat) : (lobeDistance .green h : ℤ) = |(h : ℤ) - 15360| := absDiff_cast h 15360

theorem lobeDistance_blue_cast (h : Nat) : (lobeDistance .blue h : ℤ) = |(h : ℤ) - 30720| := absDiff_cast h 30720

/-- The three weights add up to one lobe and one of them is 0: in each third of the circle one colour fades into the next. -/
theorem hueWeight_sum {h : Nat} (hh : h < 46080) :
    hueWeight .red h + hueWeight .green h + hueWeight .blue h = 15360 ∧
    (hueWeight .red h = 0 ∨ hueWeight .green h = 0 ∨ hueWeight .blue h = 0) := by
  have hr : hueWeight .red h = 15360 - min h (46080 - h) := rfl
  have hg : hueWeight .green h = 15360 - (h - 15360 + (15360 - h)) := rfl
  have hb : hueWeight .blue h = 15360 - (h - 30720 + (30720 - h)) := rfl
  rcases Nat.lt_or_ge h 15360 with h1 | h1
  · have : hueWeight .blue h = 0 := by omega
    omega
  rcases Nat.lt_or_ge h 30720 with h2 | h2
  · have : hueWeight .red h = 0 := by omega
    omega
  · have : hueWeight .green h = 0 := by omega
    omega

/-- Settles O34: the distances of `lobeDistance` over the integers, and `hueWeight_sum`. -/
theorem hueWeightsSumToOneLobe : Obligations.HueWeightsSumToOneLobe := by
  refine ⟨fun h hh => ⟨?_, ?_, ?_, hueWeight_sum hh⟩, by decide, by decide, by decide⟩
  · rw [hueWeight_cast, lobeDistance_red_cast hh]
  · rw [hueWeight_cast, lobeDistance_green_cast]
  · rw [hueWeight_cast, lobeDistance_blue_cast]

/-! ### Normalisation (R121) -/

/-- The colour a strategy works on: the hue wrapped, saturation and value clamped (R121). -/
def normalised (c : Color) : Color :=
  { h := BitVec.ofNat 16 (wrapHue c.h), s := BitVec.ofNat 16 (clampSv c.s), v := BitVec.ofNat 16 (clampSv c.v) }

theorem isNone_normalised (c : Color) : isNone (normalised c) = false := by
  have hv : clampSv c.v ≤ 25600 := clampSv_le c.v
  have ht : (normalised c).v.toNat = clampSv c.v := field16_toNat (by omega)
  rw [isNone, BitVec.toInt_eq_toNat_of_lt (by omega), decide_eq_false_iff_not]
  omega

theorem toPixel_of_isNone {conv : Conversion} {c : Color} (h : isNone c = true) : toPixel conv c = 0#32 := by
  rw [toPixel, if_pos h]

/-- A colour that is not NONE is converted as its normalised form. -/
theorem toPixel_normalised (conv : Conversion) {c : Color} (h : isNone c = false) :
    toPixel conv c = toPixel conv (normalised c) := by
  have hh : wrapHue (normalised c).h = wrapHue c.h := wrapHue_ofNat (wrapHue_lt c.h)
  have hs : clampSv (normalised c).s = clampSv c.s := clampSv_ofNat (clampSv_le c.s)
  have hv : clampSv (normalised c).v = clampSv c.v := clampSv_ofNat (clampSv_le c.v)
  simp only [toPixel, h, isNone_normalised, hh, hs, hv]

/-- Settles O33: `toPixel_of_isNone`, `toPixel_normalised`, and the rule's example under each strategy. -/
theorem toPixelNormalisesItsColour : Obligations.ToPixelNormalisesItsColour := by
  refine fun conv c => ⟨fun h => toPixel_of_isNone (decide_eq_true h), fun h => ?_, fun strategy => ?_⟩
  · exact toPixel_normalised conv (decide_eq_false (Int.not_lt.mpr h))
  · cases strategy with
    | fast => decide +kernel
    | reference => decide +kernel

/-! ### The tables (R127 to R129) -/

/-- A number whose positive lower bounds are those of a real is its floor. -/
theorem eq_floor_of_le_iff {n : Nat} {y : ℝ} (hy : 0 ≤ y) (h : ∀ k : Nat, 0 < k → (k ≤ n ↔ (k : ℝ) ≤ y)) :
    (n : ℤ) = ⌊y⌋ := by
  have hn : n = ⌊y⌋₊ := eq_of_forall_le_iff fun k => by
    rw [Nat.le_floor_iff hy]
    rcases Nat.eq_zero_or_pos k with rfl | hk
    · simpa using hy
    · exact h k hk
  rw [hn, Int.natCast_floor_eq_floor hy]

/-- A table entry is the rounded sample of its power law (R127). -/
theorem powerSample_floor {g : Gamma} (hq : 0 < g.den) {i : Nat} (hi : i ≤ 200) :
    (powerSample g i : ℤ) = ⌊65536 * ((i : ℝ) / 200) ^ ((g.num : ℝ) / g.den) + 1 / 2⌋ :=
  eq_floor_of_le_iff (by positivity) fun k hk => (le_powerSample hq hi hk).trans (sampleAtLeast_iff hq i k hk)

/-- A table entry passes the integer test of R127 and the next number does not. -/
theorem powerSample_largest {g : Gamma} (hq : 0 < g.den) {i : Nat} (hi : i ≤ 200) :
    (2 * powerSample g i - 1) ^ g.den * 200 ^ g.num ≤ 2 ^ g.den * 65536 ^ g.den * i ^ g.num ∧
    2 ^ g.den * 65536 ^ g.den * i ^ g.num < (2 * (powerSample g i + 1) - 1) ^ g.den * 200 ^ g.num := by
  constructor
  · rcases Nat.eq_zero_or_pos (powerSample g i) with h | h
    · rw [h, Nat.mul_zero, Nat.zero_sub, Nat.zero_pow hq, Nat.zero_mul]
      exact Nat.zero_le _
    · exact of_decide_eq_true ((le_powerSample hq hi h).mp (Nat.le_refl _))
  · have hfail : sampleAtLeast g i (powerSample g i + 1) ≠ true := fun ht =>
      Nat.not_succ_le_self _ ((le_powerSample hq hi (Nat.succ_pos _)).mpr ht)
    exact Nat.not_le.mp fun hle => hfail (decide_eq_true hle)

/-- Settles O35: `powerSample_floor` over the real numbers, `powerSample_largest` in integers, and the printed tables. -/
theorem tablesHoldTheirPowerLaws : Obligations.TablesHoldTheirPowerLaws := by
  refine ⟨fun g i _ hq hi => powerSample_floor hq hi, fun i hi => ?_, fun i _ hi => ?_,
    powerSample_zero (by decide) (by decide), powerSample_zero (by decide) (by decide), gammaLut_printed, satLut_printed,
    by decide +kernel, by decide +kernel⟩
  · simpa [satLut, cubeRoot] using powerSample_floor (g := cubeRoot) (by decide) hi
  · obtain ⟨hg1, hg2⟩ := powerSample_largest (g := ⟨11, 5⟩) (by decide) hi
    obtain ⟨hs1, hs2⟩ := powerSample_largest (g := cubeRoot) (by decide) hi
    simp only [cubeRoot, pow_one] at hs1 hs2
    exact ⟨hg1, hg2, hs1, hs2⟩

/-! ### Interpolation (R130) -/

/-- Between two samples the result is the rounded line, over the integers. -/
theorem lutInterp_segment_cast {table : Nat → Nat} (hs : ∀ i, i < 200 → table i ≤ table (i + 1)) {i f : Nat}
    (hi : i < 200) (hf : f < 128) :
    (lutInterp table (128 * i + f) : ℤ) = table i + (((table (i + 1) : ℤ) - table i) * f + 64) / 128 := by
  rw [lutInterp_segment table hi hf]
  push_cast [Nat.cast_sub (hs i hi)]
  rfl

/-- Settles O36: both tables are power samples, which never go down. -/
theorem interpolationIsMonotonic : Obligations.InterpolationIsMonotonic := by
  refine ⟨fun g _ hq table ht => ?_, by decide +kernel, by decide +kernel⟩
  obtain ⟨p, hp, rfl⟩ : ∃ p : Gamma, 0 < p.den ∧ table = powerSample p := by
    rcases List.mem_pair.mp ht with rfl | rfl
    · exact ⟨g, hq, rfl⟩
    · exact ⟨cubeRoot, by decide, rfl⟩
  have hs := powerSample_step hp
  exact ⟨fun i f hi hf => lutInterp_segment_cast hs hi hf, fun x _ => lutInterp_le hp x,
    fun x y hxy hy => lutInterp_mono hs hxy hy, lutInterp_sample⟩

/-- At input 0 an interpolated power law is 0. -/
theorem lutInterp_powerSample_zero {g : Gamma} (hp : 0 < g.num) (hq : 0 < g.den) : lutInterp (powerSample g) 0 = 0 :=
  (lutInterp_sample 0 (by decide)).trans (powerSample_zero hp hq)

theorem lutInterp_satLut_zero : lutInterp satLut 0 = 0 := lutInterp_powerSample_zero (by decide) (by decide)

/-- At saturation 25600 the interpolated cube root is 1.0. -/
theorem lutInterp_satLut_full : lutInterp satLut 25600 = 65536 :=
  (lutInterp_sample 200 (by decide)).trans (powerSample_top (by decide))

/-! ### The fast strategy (R131 to R134) -/

/-- Without brightness a channel is off. -/
theorem fastChannel_of_dark {g : Gamma} {v : Nat} (hb : lutInterp (gammaLut g) v = 0) (x : Channel) (h s : Nat) :
    fastChannel g x h s v = 0 := by
  cases x <;> simp [fastChannel, hb, fastWhite, fastColor, colorDivisor, Config.lobe]

/-- Without saturation a colour channel is off. -/
theorem fastColor_zero (b w : Nat) : fastColor b 0 w = 0 := by
  simp [fastColor, colorDivisor, Config.lobe]

/-- Without saturation white is the rounded brightness. -/
theorem fastWhite_zero (b : Nat) : fastWhite b 0 = (2 * b * 255 + 65536) / (2 * 65536) := by
  simp only [fastWhite, Config.qOne]
  omega

/-- With full saturation white is off. -/
theorem fastWhite_full (b : Nat) : fastWhite b 65536 = 0 := by
  simp [fastWhite, Config.qOne]

/-- The white byte under the fast strategy (R132). -/
theorem channelByte_fast_white {g : Gamma} (hq : 0 < g.den) {c : Color} (h : inRange c) :
    (channelByte (toPixel ⟨.fast, g⟩ c) .white).toNat =
      fastWhite (lutInterp (gammaLut g) c.v.toNat) (lutInterp satLut c.s.toNat) := channelByte_fast hq h .white

/-- A colour byte under the fast strategy (R133). -/
theorem channelByte_fast_color {g : Gamma} (hq : 0 < g.den) {c : Color} (h : inRange c) {x : Channel} (hx : x ≠ .white) :
    (channelByte (toPixel ⟨.fast, g⟩ c) x).toNat =
      fastColor (lutInterp (gammaLut g) c.v.toNat) (lutInterp satLut c.s.toNat) (hueWeight x c.h.toNat) := by
  rw [channelByte_fast hq h]
  cases x with
  | white => exact absurd rfl hx
  | _ => rfl

/-- `v = 0` gives the off pixel (R134). -/
theorem toPixel_fast_dark {g : Gamma} (hp : 0 < g.num) (hq : 0 < g.den) {c : Color} (h : inRange c)
    (hv : c.v.toNat = 0) : toPixel ⟨.fast, g⟩ c = 0#32 := by
  have hb : lutInterp (gammaLut g) c.v.toNat = 0 := by rw [hv]; exact lutInterp_powerSample_zero hp hq
  have hoff (x : Channel) : channelByte 0#32 x = 0#8 := by cases x <;> rfl
  refine pixel_ext fun x => BitVec.eq_of_toNat_eq ?_
  rw [channelByte_fast hq h, fastChannel_of_dark hb, hoff]
  rfl

/-- `s = 0` gives no colour (R134). -/
theorem channelByte_fast_color_unsaturated {g : Gamma} (hq : 0 < g.den) {c : Color} (h : inRange c) (hs : c.s.toNat = 0)
    {x : Channel} (hx : x ≠ .white) : channelByte (toPixel ⟨.fast, g⟩ c) x = 0#8 := by
  apply BitVec.eq_of_toNat_eq
  rw [channelByte_fast_color hq h hx, hs, lutInterp_satLut_zero, fastColor_zero]
  rfl

/-- `s = 0` gives the rounded brightness as white (R134). -/
theorem channelByte_fast_white_unsaturated {g : Gamma} (hq : 0 < g.den) {c : Color} (h : inRange c)
    (hs : c.s.toNat = 0) : (channelByte (toPixel ⟨.fast, g⟩ c) .white).toNat =
      (2 * lutInterp (gammaLut g) c.v.toNat * 255 + 65536) / (2 * 65536) := by
  rw [channelByte_fast_white hq h, hs, lutInterp_satLut_zero, fastWhite_zero]

/-- `s = 25600` gives no white (R134). -/
theorem channelByte_fast_white_saturated {g : Gamma} (hq : 0 < g.den) {c : Color} (h : inRange c)
    (hs : c.s.toNat = 25600) : channelByte (toPixel ⟨.fast, g⟩ c) .white = 0#8 := by
  apply BitVec.eq_of_toNat_eq
  rw [channelByte_fast_white hq h, hs, lutInterp_satLut_full, fastWhite_full]
  rfl

/-- Settles O37: the bytes by `channelByte_fast_white` and `channelByte_fast_color`, the corners from the two ends of the
tables. -/
theorem fastStrategyRoundsEachChannelOnce : Obligations.FastStrategyRoundsEachChannelOnce := by
  intro g c hp hq hc b q p
  refine ⟨channelByte_fast_white hq hc, channelByte_fast_color hq hc nofun, channelByte_fast_color hq hc nofun,
    channelByte_fast_color hq hc nofun, toPixel_fast_dark hp hq hc, fun hs => ?_, channelByte_fast_white_saturated hq hc⟩
  exact ⟨channelByte_fast_color_unsaturated hq hc hs nofun, channelByte_fast_color_unsaturated hq hc hs nofun,
    channelByte_fast_color_unsaturated hq hc hs nofun, channelByte_fast_white_unsaturated hq hc hs⟩

/-! ### The reference strategy (R123, R124) -/

/-- A power of a fraction of 25600 is in 0 to 1. -/
theorem rpow_fraction_mem {n : Nat} (h : n ≤ 25600) {e : ℝ} (he : 0 ≤ e) : ((n : ℝ) / 25600) ^ e ∈ Set.Icc (0 : ℝ) 1 := by
  obtain ⟨h0, h1⟩ := fraction_le_one n 25600 h (by decide)
  exact ⟨Real.rpow_nonneg h0 e, Real.rpow_le_one h0 h1 he⟩

/-- The byte the search finds is the rounded channel. -/
theorem searchedByte_floor {test : Nat → Bool} {X : ℝ} (h0 : 0 ≤ X) (h1 : X ≤ 255)
    (ht : ∀ k : Nat, 0 < k → (test k = true ↔ (k : ℝ) ≤ X + 1 / 2)) :
    ((BitVec.ofNat 8 (greatest test 8 0)).toNat : ℤ) = ⌊max 0 X + 1 / 2⌋ := by
  obtain ⟨hfloor, hle⟩ := greatest_floor h0 h1 ht
  rw [byte_toNat hle, hfloor, max_eq_right h0]

/-- The white byte under the reference strategy (R123). -/
theorem channelByte_reference_white {g : Gamma} (hq : 0 < g.den) {c : Color} (h : inRange c) :
    ((channelByte (toPixel ⟨.reference, g⟩ c) .white).toNat : ℤ) =
      ⌊max 0 (((c.v.toNat : ℝ) / 25600) ^ ((g.num : ℝ) / g.den) *
        (1 - ((c.s.toNat : ℝ) / 25600) ^ ((1 : ℝ) / 3)) * 255) + 1 / 2⌋ := by
  have ⟨_, hs, hv⟩ := h
  have hb := rpow_fraction_mem hv (e := (g.num : ℝ) / g.den) (by positivity)
  have ha := rpow_fraction_mem hs (e := (1 : ℝ) / 3) (by positivity)
  obtain ⟨h0, h1⟩ := unitInterval.mul_mem hb (Set.Icc.one_sub_mem ha)
  rw [channelByte_toPixel _ h]
  exact searchedByte_floor (by linarith) (by linarith) fun k hk => refWhiteAtLeast_iff hq _ _ k hk hs

/-- A colour byte under the reference strategy (R123). -/
theorem channelByte_reference_color {g : Gamma} (hq : 0 < g.den) {c : Color} (h : inRange c) {x : Channel}
    (hx : x ≠ .white) :
    ((channelByte (toPixel ⟨.reference, g⟩ c) x).toNat : ℤ) =
      ⌊max 0 (((c.v.toNat : ℝ) / 25600) ^ ((g.num : ℝ) / g.den) * ((c.s.toNat : ℝ) / 25600) ^ ((1 : ℝ) / 3) * 255 *
        ((hueWeight x c.h.toNat : ℝ) / 15360)) + 1 / 2⌋ := by
  have ⟨_, hs, hv⟩ := h
  have hb := rpow_fraction_mem hv (e := (g.num : ℝ) / g.den) (by positivity)
  have ha := rpow_fraction_mem hs (e := (1 : ℝ) / 3) (by positivity)
  have hw : (hueWeight x c.h.toNat : ℝ) / 15360 ∈ Set.Icc (0 : ℝ) 1 :=
    fraction_le_one _ 15360 (hueWeight_le x c.h.toNat) (by decide)
  obtain ⟨h0, h1⟩ := unitInterval.mul_mem (unitInterval.mul_mem hb ha) hw
  have hval : channelValue ⟨.reference, g⟩ x c.h.toNat c.s.toNat c.v.toNat =
      greatest (refColorAtLeast g (hueWeight x c.h.toNat) c.s.toNat c.v.toNat) 8 0 := by
    cases x with
    | white => exact absurd rfl hx
    | _ => rfl
  rw [channelByte_toPixel _ h, hval]
  exact searchedByte_floor (by linarith) (by linarith) fun k hk => refColorAtLeast_iff hq _ _ _ k hk

/-- Settles O38: each byte is found by a search whose integer test is the real comparison (`refWhiteAtLeast_iff`,
`refColorAtLeast_iff`). -/
theorem referenceStrategyIsTheRealPowerLaw : Obligations.ReferenceStrategyIsTheRealPowerLaw := by
  intro g c _ hq hc bt st p
  exact ⟨channelByte_reference_white hq hc, channelByte_reference_color hq hc nofun,
    channelByte_reference_color hq hc nofun, channelByte_reference_color hq hc nofun⟩

/-! ### CONVERT (R139) -/

/-- Opcode 0x0A is CONVERT (R104). -/
theorem decodePacket_convert {hdr : Word} (ho : opcodeField hdr = 0x0A#8) (payload : List Word) :
    decodePacket hdr payload = some (.convert (color2Of payload)) := by
  rw [decodePacket, ho]
  rfl

/-- Fewer than two payload words hold no colour (R93). -/
theorem color2Of_short {payload : List Word} (h : payload.length < 2) : color2Of payload = none := by
  match payload with
  | [] => rfl
  | [_] => rfl
  | _ :: _ :: _ => simp at h

/-- Settles O32: `execConvert` in both its cases, reached from a packet by `step_packet`. -/
theorem convertAnswersThePixel : Obligations.ConvertAnswersThePixel := by
  refine ⟨fun s c => rfl, fun s => rfl, fun s hdr payload rest hcmd hlen ho => ?_⟩
  have hstep := step_packet hcmd hlen (decodePacket_convert ho payload)
  refine ⟨fun hshort => ?_, fun w0 w1 more hp => ?_⟩
  · rw [hstep, color2Of_short hshort]
    rfl
  · rw [hstep, hp]
    rfl

end Sys2Proof.Machine
end

section
/-! SUPPORT. The Strip table over a command: the statement `StripTableIsWrittenOnce`. -/

namespace Sys2Proof.Machine

/-! ### CONFIGURE refused (R153) -/

/-- A CONFIGURE when configured, or of too many strips, does nothing but set `BAD_CMD`. -/
theorem execConfigure_refused {s : State} {ds : List StripDesc}
    (h : s.flagged .configured = true ∨ s.build.maxStrips < ds.length) :
    execConfigure ds s = .next (s.flag .badCmd) := by
  unfold execConfigure
  rcases h with hc | hn
  · rw [if_pos hc]
  · rw [if_pos hn, ite_self]

/-- Opcode 0x01 is CONFIGURE, one STRIPDESC a word (R94, R104). -/
theorem decodePacket_configure {hdr : Word} (ho : opcodeField hdr = 0x01#8) (payload : List Word) :
    decodePacket hdr payload = some (.configure (payload.map stripDescOf)) := by
  rw [decodePacket, ho]
  rfl

/-- A step on a whole CONFIGURE packet runs it on its `LEN` payload words and consumes them (R90). -/
theorem step_configure {s : State} {hdr : Word} {more : List Word} (hc : s.cmd = hdr :: more)
    (ho : opcodeField hdr = 0x01#8) (hl : (lenField hdr).toNat ≤ more.length) :
    step s = execConfigure ((more.take (lenField hdr).toNat).map stripDescOf)
      (s.consume (more.drop (lenField hdr).toNat)) :=
  step_packet (by rw [hc, List.take_append_drop]) (List.length_take_of_le hl) (decodePacket_configure ho _)

/-- A whole CONFIGURE packet that is refused is consumed and does nothing but set `BAD_CMD`. -/
theorem step_configure_refused {s : State} {hdr : Word} {more : List Word} (hc : s.cmd = hdr :: more)
    (ho : opcodeField hdr = 0x01#8) (hl : (lenField hdr).toNat ≤ more.length)
    (h : s.flagged .configured = true ∨ s.build.maxStrips < (lenField hdr).toNat) :
    step s = .next ((s.consume (more.drop (lenField hdr).toNat)).flag .badCmd) := by
  rw [step_configure hc ho hl]
  refine execConfigure_refused (h.imp_right fun hn => ?_)
  rwa [List.length_map, List.length_take_of_le hl]

/-! ### Every other command (R153) -/

/-- The Strip table but for its timestamps, and `NPIX`, are those of another state. -/
def SameStripTable (s t : State) : Prop := stripGeometry t.strips = stripGeometry s.strips ∧ t.npix = s.npix

theorem SameStripTable.of_eq {s t : State} (hs : t.strips = s.strips) (hn : t.npix = s.npix) : SameStripTable s t :=
  ⟨congrArg stripGeometry hs, hn⟩

/-- A show writes timestamps only (R246). -/
theorem showAll_sameStripTable {s t : State} (h : showAll s = .next t) : SameStripTable s t :=
  ⟨(showAll_frame h).geometry, (showAll_frame h).npix⟩

/-- A TICK writes the Strip table only in its show. -/
theorem execTick_sameStripTable {s t : State} (h : execTick s = .next t) : SameStripTable s t := by
  rcases execTick_cases h with ⟨-, hs⟩ | ⟨-, rfl⟩
  · obtain ⟨hg, hn⟩ := showAll_sameStripTable hs
    rw [State.ticked_strips] at hg
    rw [State.ticked_npix] at hn
    exact ⟨hg, hn⟩
  · exact .of_eq s.ticked_strips s.ticked_npix

@[simp] theorem buildMap_strips (ws : List Section) (s : State) : (buildMap ws s).2.strips = s.strips := by
  rcases buildMap_state ws s with e | e | e <;> rw [e] <;> simp

@[simp] theorem buildMap_npix (ws : List Section) (s : State) : (buildMap ws s).2.npix = s.npix := by
  rcases buildMap_state ws s with e | e | e <;> rw [e] <;> simp

/-- A command other than CONFIGURE, SHOW and TICK leaves the whole Strip table and `NPIX`. -/
theorem exec_strips_npix {i : Instr} {s t : State} (hc : ∀ ds, i ≠ .configure ds) (hs : i ≠ .showStrips) (ht : i ≠ .tick)
    (h : exec i s = .next t) : t.strips = s.strips ∧ t.npix = s.npix := by
  cases i with
  | nop => cases h; exact ⟨rfl, rfl⟩
  | configure ds => exact absurd rfl (hc ds)
  | defineArea a ws => rcases execDefineArea_cases h with ⟨-, rfl⟩ | ⟨r, -, rfl⟩ <;> simp
  | setPixel w => rcases execSetPixel_cases h with ⟨-, rfl⟩ | ⟨w, -, rfl⟩ <;> simp
  | showStrips => exact absurd rfl hs
  | areaCmd a f => rcases execAreaCmd_cases h with ⟨-, rfl⟩ | ⟨r, -, -, rfl⟩ | ⟨r, -, -, rfl⟩ <;> simp
  | effect a q =>
    rcases execEffect_cases h with ⟨-, rfl⟩ | ⟨-, -, rfl⟩ | ⟨q, r, -, -, -, rfl⟩ | ⟨q, r, m, -, -, -, rfl⟩ <;> simp
  | fillArea a c => rcases execFillArea_cases h with ⟨-, rfl⟩ | ⟨-, -, rfl⟩ | ⟨c, r, -, -, rfl⟩ <;> simp
  | tick => exact absurd rfl ht
  | query a => rcases execQuery_cases h with ⟨-, rfl⟩ | ⟨r, -, rfl⟩ <;> simp
  | convert c => rcases execConvert_cases h with ⟨-, rfl⟩ | ⟨c, -, rfl⟩ <;> simp
  | rdreg reg => rcases execRdreg_cases h with ⟨-, rfl⟩ | ⟨r, -, rfl⟩ <;> simp
  | wrreg reg x => rcases execWrreg_cases h with ⟨x, -, -, rfl⟩ | ⟨x, -, -, rfl⟩ | ⟨-, rfl⟩ <;> simp

/-- Every command but CONFIGURE leaves the Strip table, timestamps apart, and `NPIX`. -/
theorem exec_sameStripTable {i : Instr} {s t : State} (hc : ∀ ds, i ≠ .configure ds) (h : exec i s = .next t) :
    SameStripTable s t := by
  by_cases hs : i = .showStrips
  · subst hs; exact showAll_sameStripTable h
  by_cases ht : i = .tick
  · subst ht; exact execTick_sameStripTable h
  obtain ⟨hstrips, hnpix⟩ := exec_strips_npix hc hs ht h
  exact .of_eq hstrips hnpix

/-- Settles O26: a CONFIGURE is refused as a command and as a packet, and `exec_sameStripTable` for the other commands. -/
theorem stripTableIsWrittenOnce : Obligations.StripTableIsWrittenOnce := by
  refine ⟨fun s ds h => execConfigure_refused ?_, fun s hdr more hc ho hl h => step_configure_refused hc ho hl ?_,
    fun i s t hc h => exec_sameStripTable hc h⟩
  · rwa [State.flagged_configured]
  · rwa [State.flagged_configured]

end Sys2Proof.Machine
end

section
/-! SUPPORT. The colours of an Area and the AREA_CMD without a state field: the statements
`AreaCmdWithoutStateFieldChangesNothing`, `EffColorFollowsBaseAndOn` and `CurrentColorIsTheLatestFrame`. -/

namespace Sys2Proof.Machine

/-! ### EffColor (R185) -/

theorem effColor_of_isNone {r : Area} (h : isNone r.base = true) : effColor r = black := if_pos h

theorem effColor_of_on {r : Area} (h : isNone r.base = false) (ho : r.on = true) : effColor r = r.base := by
  rw [effColor, if_neg (ne_true_of_eq_false h), if_pos ho]

theorem effColor_of_off {r : Area} (h : isNone r.base = false) (ho : r.on = false) :
    effColor r = withVal r.base 0#16 := by
  rw [effColor, if_neg (ne_true_of_eq_false h), if_neg (ne_true_of_eq_false ho)]

theorem isNone_eq_false_of_nonneg {c : Color} (h : 0 ≤ c.v.toInt) : isNone c = false :=
  decide_eq_false (Int.not_lt.mpr h)

/-- Settles O43: one equation of `effColor` for each of the rule's three cases. -/
theorem effColorFollowsBaseAndOn : Obligations.EffColorFollowsBaseAndOn := fun _ =>
  ⟨fun hn => effColor_of_isNone (decide_eq_true hn),
    fun hv hon => effColor_of_on (isNone_eq_false_of_nonneg hv) hon,
    fun hv hoff => effColor_of_off (isNone_eq_false_of_nonneg hv) hoff⟩

/-! ### CurrentColor (R186) -/

/-- Until its first update a Transition shows `FROM`. -/
theorem currentColor_transition_bound {r : Area} {start : Nat} {emap : List Index} {c0 c1 : Color} {dur : Word}
    (h : r.eff = some ⟨start, emap, .transition c0 c1 dur⟩) : currentColor start r = c0 := by
  simp only [currentColor, h, if_true]

/-- The tick that carried number `tick` wrote the frame of elapsed `tick - start`, and left `TICK` one higher (R181). -/
theorem currentColor_transition_running {r : Area} {start : Nat} {emap : List Index} {c0 c1 : Color} {dur : Word}
    (h : r.eff = some ⟨start, emap, .transition c0 c1 dur⟩) {tick : Nat} (ht : start ≤ tick) :
    currentColor (tick + 1) r = transitionColor c0 c1 dur (tick - start) := by
  have hrun : tick + 1 ≠ start := by omega
  simp only [currentColor, h, if_neg hrun, Nat.add_sub_cancel]

/-- Kind 1 is the Transition (R30), the one kind `CurrentColor` looks into. -/
theorem currentColor_of_kind_ne {r : Area} (h : r.kind ≠ 1) (tick : Nat) : currentColor tick r = effColor r := by
  unfold currentColor
  split
  · next he => exact absurd (by rw [Area.kind, he]; rfl) h
  · rfl

/-- Settles O44: a Transition before and after its first update, and every other slot. -/
theorem currentColorIsTheLatestFrame : Obligations.CurrentColorIsTheLatestFrame := fun _ =>
  ⟨fun _ _ _ _ _ he => ⟨currentColor_transition_bound he, fun _ ht => currentColor_transition_running he ht⟩,
    fun tick hk => currentColor_of_kind_ne hk tick⟩

/-! ### AREA_CMD without a state field (R189) -/

theorem AreaFields.empty_iff (f : AreaFields) :
    AreaFields.empty f = true ↔ f.state = none ∧ f.hue = none ∧ f.sat = none ∧ f.bri = none := by
  simp only [AreaFields.empty, Bool.and_eq_true, Option.isNone_iff_eq_none, and_assoc]

theorem execAreaCmd_empty {s : State} {a : AreaId} {f : AreaFields} {r : Area} (ha : s.definedArea? a = some r)
    (he : AreaFields.empty f = true) : execAreaCmd a f s = .next s := by
  rw [execAreaCmd, ha]
  exact if_pos he

/-- Opcode 0x05 is AREA_CMD (R104). -/
theorem decodePacket_areaCmd {hdr : Word} (ho : opcodeField hdr = 0x05#8) (payload : List Word) :
    decodePacket hdr payload = some (.areaCmd (areaField hdr) (areaFieldsOf hdr payload)) := by
  rw [decodePacket, ho]
  rfl

/-- A field is absent when its presence bit is clear or `LEN` is too small for its word (R93, R97). -/
theorem present_eq_none {α : Type} {bit : Bool} {payload : List Word} {k : Nat} (read : Word → α)
    (h : bit = false ∨ payload.length < k + 1) : present bit payload[k]? read = none := by
  rcases h with rfl | hk
  · rfl
  · rw [List.getElem?_eq_none (Nat.le_of_lt_succ hk)]
    exact ite_self none

/-- Settles O42: no state field is present, in the command by its form and in the packet by `present_eq_none`; such a command
answers its own state (`execAreaCmd_empty`). -/
theorem areaCmdWithoutStateFieldChangesNothing : Obligations.AreaCmdWithoutStateFieldChangesNothing := by
  refine ⟨fun s a trans r ha hd => execAreaCmd_empty (State.definedArea?_eq_some.mpr ⟨ha, hd⟩) rfl, ?_⟩
  intro s hdr payload rest r hcmd hlen ho ha hd hstate hhue hsat hbri
  have hempty : AreaFields.empty (areaFieldsOf hdr payload) = true :=
    (AreaFields.empty_iff _).mpr
      ⟨if_neg (ne_true_of_eq_false hstate), present_eq_none _ hhue, present_eq_none _ hsat, present_eq_none _ hbri⟩
  rw [step_packet hcmd hlen (decodePacket_areaCmd ho payload)]
  exact execAreaCmd_empty (State.definedArea?_eq_some.mpr ⟨ha, hd⟩) hempty

end Sys2Proof.Machine
end

section
/-! SUPPORT. The phase of an effect (R211), one lemma per fact of `phase16`: the statement `PhaseIsPeriodic`. -/

namespace Sys2Proof.Machine

@[simp] theorem phase16_period_zero (e : Nat) : phase16 e 0 = 0 := if_pos rfl

theorem phase16_of_pos {p : Nat} (hp : 0 < p) (e : Nat) : phase16 e p = 65536 * (e % p) / p := if_neg hp.ne'

@[simp] theorem phase16_zero (p : Nat) : phase16 0 p = 0 := by simp [phase16]

@[simp] theorem phase16_add_period (e p : Nat) : phase16 (e + p) p = phase16 e p := by
  unfold phase16
  rw [Nat.add_mod_right]

/-- The remainder is below the period, so the scaled quotient is below the scale. -/
theorem phase16_lt (e p : Nat) : phase16 e p < 65536 := by
  rcases p.eq_zero_or_pos with rfl | hp
  · rw [phase16_period_zero]
    decide
  · rw [phase16_of_pos hp, Nat.div_lt_iff_lt_mul hp]
    exact Nat.mul_lt_mul_of_pos_left (Nat.mod_lt e hp) (by decide)

/-- Settles O47: the value per period, and from it the range, the repetition and the start. -/
theorem phaseIsPeriodic : Obligations.PhaseIsPeriodic := fun e p =>
  ⟨phase16_lt e p, phase16_add_period e p, phase16_period_zero e, phase16_zero p, fun hp => phase16_of_pos hp e⟩

end Sys2Proof.Machine
end

section
/-! SUPPORT. The system commands NOP, RDREG and WRREG as commands and as packets: the statements
`WrregWritesCtrlAndClearsStatus`, `RdregAnswersTheRegister` and `NopIsConsumedAndChangesNothing`. -/

namespace Sys2Proof.Machine

/-! ### Register numbers (R43) -/

/-- The number that names a register, the inverse of `Reg.ofNumber`. -/
def Reg.number : Reg → BitVec 8
  | .id => 0x00#8
  | .ctrl => 0x01#8
  | .status => 0x02#8
  | .tickLo => 0x03#8
  | .tickHi => 0x04#8
  | .npix => 0x05#8
  | .nstrips => 0x06#8
  | .areasDefined => 0x07#8
  | .active => 0x08#8

theorem Reg.number_toNat_le (r : Reg) : r.number.toNat ≤ 8 := by
  cases r <;> decide

theorem Reg.ofNumber_number (r : Reg) : Reg.ofNumber r.number = some r := by
  cases r <;> rfl

/-- Case `h_10` is the last row of `Reg.ofNumber`, the reserved numbers; every other row names its register. -/
theorem Reg.eq_number_of_ofNumber {n : BitVec 8} {r : Reg} (h : Reg.ofNumber n = some r) : n = r.number := by
  unfold Reg.ofNumber at h
  split at h
  case h_10 => cases h
  all_goals next known => cases h; exact BitVec.eq_of_toNat_eq known

/-- The numbers above 8 are reserved. -/
theorem Reg.ofNumber_reserved {n : BitVec 8} (h : 8 < n.toNat) : Reg.ofNumber n = none := by
  refine Option.eq_none_iff_forall_ne_some.mpr fun r hr => ?_
  rw [Reg.eq_number_of_ofNumber hr] at h
  exact Nat.not_lt.mpr r.number_toNat_le h

/-! ### The packets (R90, R104) -/

/-- Opcode 0x00 is NOP, whatever its other fields. -/
theorem decodePacket_nop {hdr : Word} (ho : opcodeField hdr = 0x00#8) (payload : List Word) :
    decodePacket hdr payload = some .nop := by
  rw [decodePacket, ho]
  rfl

/-- Opcode 0x0B is RDREG of the register number in the header. -/
theorem decodePacket_rdreg {hdr : Word} (ho : opcodeField hdr = 0x0B#8) (payload : List Word) :
    decodePacket hdr payload = some (.rdreg (regField hdr)) := by
  rw [decodePacket, ho]
  rfl

/-- Opcode 0x0C is WRREG of the register number in the header, its value the first payload word. -/
theorem decodePacket_wrreg {hdr : Word} (ho : opcodeField hdr = 0x0C#8) (payload : List Word) :
    decodePacket hdr payload = some (.wrreg (regField hdr) payload[0]?) := by
  rw [decodePacket, ho]
  rfl

/-- `step_packet` with the payload given as the first `LEN` words after the header. -/
theorem step_take {s : State} {hdr : Word} {more : List Word} (hc : s.cmd = hdr :: more)
    (hl : (lenField hdr).toNat ≤ more.length) {i : Instr}
    (hi : decodePacket hdr (more.take (lenField hdr).toNat) = some i) :
    step s = exec i { s with cmd := more.drop (lenField hdr).toNat } :=
  step_packet (by rw [hc, List.take_append_drop]) (List.length_take_of_le hl) hi

/-! ### WRREG (R262, R263) -/

/-- A write to `CTRL` leaves bit 0 of the value and zeros. -/
theorem writeCtrl_bit (s : State) (x : Word) (n : Nat) :
    (s.writeCtrl x).ctrl.getLsbD n = (decide (n = 0) && x.getLsbD 0) := by
  have hbit : ctrlBits.getLsbD n = decide (n = 0) := by simp [ctrlBits]
  rw [State.writeCtrl_ctrl, BitVec.getLsbD_and, hbit, Bool.and_comm]
  by_cases hn : n = 0
  · rw [hn]
  · rw [decide_eq_false hn, Bool.false_and, Bool.false_and]

theorem stickyBits_bit (n : Nat) : stickyBits.getLsbD n = decide (1 ≤ n ∧ n ≤ 6) := by
  have hlow : ∀ i : Fin 32, stickyBits.getLsbD i = decide (1 ≤ i.val ∧ i.val ≤ 6) := by decide
  by_cases hn : n < 32
  · exact hlow ⟨n, hn⟩
  · rw [BitVec.getLsbD_of_ge _ _ (Nat.le_of_not_lt hn), decide_eq_false (by omega)]

/-- A write to `STATUS` clears a bit exactly where it is sticky and the value has a 1. -/
theorem clearStatus_bit (s : State) (x : Word) (n : Nat) :
    (s.clearStatus x).status.getLsbD n = (s.status.getLsbD n && !(decide (1 ≤ n ∧ n ≤ 6) && x.getLsbD n)) := by
  rw [State.clearStatus_status, BitVec.getLsbD_and, BitVec.getLsbD_not, BitVec.getLsbD_and, stickyBits_bit,
    Bool.and_comm (x.getLsbD n)]
  by_cases hn : n < 32
  · rw [decide_eq_true hn, Bool.true_and]
  · rw [BitVec.getLsbD_of_ge s.status n (Nat.le_of_not_lt hn), Bool.false_and, Bool.false_and]

/-- A write to a number other than those of `CTRL` and `STATUS`, reserved or not, does nothing but set `BAD_CMD`. -/
theorem execWrreg_other {n : BitVec 8} (h1 : n ≠ 0x01#8) (h2 : n ≠ 0x02#8) (x : Word) (s : State) :
    execWrreg n (some x) s = .next (s.flag .badCmd) := by
  cases hr : Reg.ofNumber n with
  | none => rw [execWrreg, hr]
  | some r =>
    have hn := Reg.eq_number_of_ofNumber hr
    exact exec_wrreg_readOnly hr (fun e => h1 (by rw [hn, e]; rfl)) (fun e => h2 (by rw [hn, e]; rfl)) x s

/-- Settles O24: the two writable registers bit by bit, every other number by `execWrreg_other`, and the packet by
`step_packet`, where an empty payload is a WRREG without a value. -/
theorem wrregWritesCtrlAndClearsStatus : Obligations.WrregWritesCtrlAndClearsStatus := by
  refine fun s x => ⟨⟨s.writeCtrl x, rfl, rfl, writeCtrl_bit s x⟩, ⟨s.clearStatus x, rfl, rfl, clearStatus_bit s x⟩,
    fun r h1 h2 => execWrreg_other h1 h2 x s, fun r => rfl, fun hdr payload rest hcmd hlen ho => ?_⟩
  have hstep := step_packet hcmd hlen (decodePacket_wrreg ho payload)
  refine ⟨fun hp => ?_, fun y more hp => ?_⟩
  · rw [hstep, hp]
    rfl
  · rw [hstep, hp]
    rfl

/-! ### RDREG (R261, R263) -/

/-- The number of a register answers its value and changes nothing else. -/
theorem exec_rdreg_number (r : Reg) (s : State) : exec (.rdreg r.number) s = .next (s.respond (s.readReg r)) := by
  show execRdreg r.number s = _
  rw [execRdreg, r.ofNumber_number]

/-- A reserved number answers 0 and sets `BAD_CMD`. -/
theorem execRdreg_reserved {n : BitVec 8} (h : 8 < n.toNat) (s : State) :
    execRdreg n s = .next ((s.flag .badCmd).respond 0#32) := by
  rw [execRdreg, Reg.ofNumber_reserved h]

/-- Settles O22: each of the nine registers by `exec_rdreg_number`, the reserved numbers by `execRdreg_reserved`, the packet by
`step_take`. -/
theorem rdregAnswersTheRegister : Obligations.RdregAnswersTheRegister := fun s =>
  ⟨exec_rdreg_number .id s, exec_rdreg_number .ctrl s, exec_rdreg_number .status s, exec_rdreg_number .tickLo s,
    exec_rdreg_number .tickHi s, exec_rdreg_number .npix s, exec_rdreg_number .nstrips s,
    exec_rdreg_number .areasDefined s, exec_rdreg_number .active s, fun _ h => execRdreg_reserved h s,
    fun _ _ hc ho hl => step_take hc hl (decodePacket_rdreg ho _)⟩

/-! ### NOP (R260) -/

/-- Settles O21: NOP answers its own state, and a step on a NOP packet (`step_take`) has only consumed it. -/
theorem nopIsConsumedAndChangesNothing : Obligations.NopIsConsumedAndChangesNothing :=
  ⟨fun _ => rfl, fun _ _ _ hc ho hl => step_take hc hl (decodePacket_nop ho _)⟩

end Sys2Proof.Machine
end

section
/-! SUPPORT. `BAD_CMD` (R271, R272), bit 4 of `STATUS`, over every command and over a step: the statement
`BadCmdHasExactlyItsCauses`. -/

namespace Sys2Proof.Machine

/-! ### What the shared operations do to the bit -/

theorem flag_badCmd_bit (s : State) : (s.flag .badCmd).status.getLsbD 4 = true := by
  simp [StatusBit.mask]

/-- Each flag has a bit of its own (R46). -/
theorem flag_other_bit (s : State) {b : StatusBit} (hb : b ≠ .badCmd) :
    (s.flag b).status.getLsbD 4 = s.status.getLsbD 4 := by
  have hmask : b.mask.getLsbD 4 = false := by
    cases b with
    | badCmd => exact absurd rfl hb
    | _ => rfl
  rw [State.flag_status, BitVec.getLsbD_or, hmask, Bool.or_false]

theorem setPixels_badCmd_bit (s : State) (ws : List (Index × Pixel)) :
    (s.setPixels ws).status.getLsbD 4 = s.status.getLsbD 4 := by
  rw [State.setPixels_status]
  split
  · exact flag_other_bit s (b := .badIndex) nofun
  · rfl

theorem setPixel_badCmd_bit (s : State) (i : Index) (p : Pixel) :
    (s.setPixel i p).status.getLsbD 4 = s.status.getLsbD 4 := setPixels_badCmd_bit s [(i, p)]

theorem buildMap_badCmd_bit (ws : List Section) (s : State) :
    (buildMap ws s).2.status.getLsbD 4 = s.status.getLsbD 4 := by
  rcases buildMap_state ws s with e | e | e <;> rw [e]
  · exact flag_other_bit s nofun
  · exact flag_other_bit s nofun

theorem execTick_badCmd_bit {s t : State} (h : execTick s = .next t) : t.status.getLsbD 4 = s.status.getLsbD 4 := by
  have hticked : s.ticked.status.getLsbD 4 = s.status.getLsbD 4 := setPixels_badCmd_bit s _
  rcases execTick_cases h with ⟨-, hs⟩ | ⟨-, rfl⟩
  · rw [(showAll_frame hs).status, hticked]
  · exact hticked

/-! ### When an operand is a cause -/

/-- An effect request is without meaning exactly when its code is no name (R191). -/
theorem requestedMotion_eq_none_iff (q : EffectRequest) : requestedMotion q = none ↔ ∃ c, q.name = .unnamed c := by
  unfold requestedMotion
  cases q.name <;> simp

/-- A register number is reserved exactly above 8 (R43); case `h_10` is the last row of `Reg.ofNumber`. -/
theorem Reg.ofNumber_eq_none_iff (n : BitVec 8) : Reg.ofNumber n = none ↔ 8 < n.toNat := by
  refine ⟨fun h => ?_, Reg.ofNumber_reserved⟩
  unfold Reg.ofNumber at h
  split at h
  case h_10 => simp only [imp_false] at *; omega
  all_goals cases h

theorem Reg.ofNumber_eq_some_iff {n : BitVec 8} {r : Reg} : Reg.ofNumber n = some r ↔ n = r.number :=
  ⟨Reg.eq_number_of_ofNumber, fun h => h ▸ r.ofNumber_number⟩

/-- The causes of `BAD_CMD` do not depend on what is left in `CMD`. -/
theorem badCmdCause_consume (s : State) (rest : List Word) (i : Instr) :
    badCmdCause (s.consume rest) i ↔ badCmdCause s i := by
  cases i <;> exact Iff.rfl

/-! ### The commands -/

/-- Where the bit stays clear and there is no cause, neither side of the equivalence of R272 holds. -/
theorem badCmd_iff_of_kept {s t : State} {cause : Prop} (hs : s.status.getLsbD 4 = false)
    (hkept : t.status.getLsbD 4 = s.status.getLsbD 4) (hno : ¬ cause) : t.status.getLsbD 4 = true ↔ cause :=
  iff_of_false (by rw [hkept, hs]; exact Bool.false_ne_true) hno

section
variable {s t : State} (hs : s.status.getLsbD 4 = false)
include hs

theorem execConfigure_badCmd_iff {ds : List StripDesc} (h : execConfigure ds s = .next t) :
    t.status.getLsbD 4 = true ↔ badCmdCause s (.configure ds) := by
  have hconf : (s.flag .configured).status.getLsbD 4 = s.status.getLsbD 4 := flag_other_bit s nofun
  have haccept (hc : s.flagged .configured = false) (hn : ds.length ≤ s.build.maxStrips) :
      ¬ badCmdCause s (.configure ds) := by
    rw [State.flagged_configured] at hc
    rintro (hset | hmany)
    · exact Bool.false_ne_true (hc.symm.trans hset)
    · exact Nat.not_lt.mpr hn hmany
  rcases execConfigure_cases h with ⟨hc, rfl⟩ | ⟨hc, hn, -, rfl⟩ | ⟨hc, hn, -, rfl⟩
  · rw [State.flagged_configured] at hc
    exact iff_of_true (flag_badCmd_bit s) hc
  · exact badCmd_iff_of_kept hs ((flag_other_bit (s.flag .configured) (b := .bufAllocFail) nofun).trans hconf)
      (haccept hc hn)
  · exact badCmd_iff_of_kept hs hconf (haccept hc hn)

theorem execEffect_badCmd_iff {a : AreaId} {request : Option EffectRequest} (h : execEffect a request s = .next t) :
    t.status.getLsbD 4 = true ↔ badCmdCause s (.effect a request) := by
  rcases execEffect_cases h with
    ⟨hq, rfl⟩ | ⟨hq, ha, rfl⟩ | ⟨q, r, hq, ha, hm, rfl⟩ | ⟨q, r, m, hq, -, hm, rfl⟩
  · exact iff_of_true (flag_badCmd_bit s) (.inl hq)
  · refine badCmd_iff_of_kept hs (flag_other_bit s nofun) ?_
    rintro (hshort | ⟨q, c, -, -, r, hr⟩)
    · exact hq hshort
    · exact Option.some_ne_none r ((State.definedArea?_eq_some.mpr hr).symm.trans ha)
  · obtain ⟨c, hc⟩ := (requestedMotion_eq_none_iff q).mp hm
    exact iff_of_true (flag_badCmd_bit s) (.inr ⟨q, c, hq, hc, r, State.definedArea?_eq_some.mp ha⟩)
  · refine badCmd_iff_of_kept hs rfl ?_
    rintro (hshort | ⟨q', c, hq', hc, -⟩)
    · exact Option.some_ne_none q (hq.symm.trans hshort)
    · cases hq.symm.trans hq'
      exact Option.some_ne_none m (hm.symm.trans ((requestedMotion_eq_none_iff q).mpr ⟨c, hc⟩))

theorem execRdreg_badCmd_iff {reg : BitVec 8} (h : execRdreg reg s = .next t) :
    t.status.getLsbD 4 = true ↔ badCmdCause s (.rdreg reg) := by
  rw [badCmdCause, ← Reg.ofNumber_eq_none_iff]
  rcases execRdreg_cases h with ⟨hr, rfl⟩ | ⟨r, hr, rfl⟩
  · exact iff_of_true (flag_badCmd_bit s) hr
  · exact badCmd_iff_of_kept hs rfl (by rw [hr]; exact Option.some_ne_none r)

theorem execWrreg_badCmd_iff {reg : BitVec 8} {value : Option Word} (h : execWrreg reg value s = .next t) :
    t.status.getLsbD 4 = true ↔ badCmdCause s (.wrreg reg value) := by
  rcases execWrreg_cases h with ⟨x, rfl, hr, rfl⟩ | ⟨x, rfl, hr, rfl⟩ | ⟨hcause, rfl⟩
  · cases Reg.ofNumber_eq_some_iff.mp hr
    exact badCmd_iff_of_kept hs rfl (by simp [badCmdCause, Reg.number])
  · cases Reg.ofNumber_eq_some_iff.mp hr
    exact badCmd_iff_of_kept hs (by rw [clearStatus_bit, hs, Bool.false_and]) (by simp [badCmdCause, Reg.number])
  · simp only [ne_eq, Reg.ofNumber_eq_some_iff] at hcause
    exact iff_of_true (flag_badCmd_bit s) hcause

/-- R272 for a command: with `BAD_CMD` clear before, it is set after exactly if the command has a cause. -/
theorem exec_badCmd_iff {i : Instr} (h : exec i s = .next t) : t.status.getLsbD 4 = true ↔ badCmdCause s i := by
  cases i with
  | nop => cases h; exact badCmd_iff_of_kept hs rfl not_false
  | configure ds => exact execConfigure_badCmd_iff hs h
  | defineArea a ws =>
    rcases execDefineArea_cases h with ⟨-, rfl⟩ | ⟨r, -, rfl⟩
    · exact badCmd_iff_of_kept hs (flag_other_bit s nofun) not_false
    · exact badCmd_iff_of_kept hs (buildMap_badCmd_bit ws s) not_false
  | setPixel write =>
    rcases execSetPixel_cases h with ⟨hw, rfl⟩ | ⟨w, rfl, rfl⟩
    · exact iff_of_true (flag_badCmd_bit s) hw
    · exact badCmd_iff_of_kept hs (setPixel_badCmd_bit s _ _) (Option.some_ne_none w)
  | showStrips => exact badCmd_iff_of_kept hs (by rw [(showAll_frame h).status]) not_false
  | areaCmd a f =>
    rcases execAreaCmd_cases h with ⟨-, rfl⟩ | ⟨r, -, -, rfl⟩ | ⟨r, -, -, rfl⟩
    · exact badCmd_iff_of_kept hs (flag_other_bit s nofun) not_false
    · exact badCmd_iff_of_kept hs rfl not_false
    · exact badCmd_iff_of_kept hs rfl not_false
  | effect a request => exact execEffect_badCmd_iff hs h
  | fillArea a color =>
    rcases execFillArea_cases h with ⟨hc, rfl⟩ | ⟨hc, -, rfl⟩ | ⟨c, r, rfl, -, rfl⟩
    · exact iff_of_true (flag_badCmd_bit s) hc
    · exact badCmd_iff_of_kept hs (flag_other_bit s nofun) hc
    · exact badCmd_iff_of_kept hs (setPixels_badCmd_bit s _) (Option.some_ne_none c)
  | tick => exact badCmd_iff_of_kept hs (execTick_badCmd_bit h) not_false
  | query a =>
    rcases execQuery_cases h with ⟨-, rfl⟩ | ⟨r, -, rfl⟩
    · exact badCmd_iff_of_kept hs (flag_other_bit s (b := .badArea) nofun) not_false
    · exact badCmd_iff_of_kept hs rfl not_false
  | convert color =>
    rcases execConvert_cases h with ⟨hc, rfl⟩ | ⟨c, rfl, rfl⟩
    · exact iff_of_true (flag_badCmd_bit s) hc
    · exact badCmd_iff_of_kept hs rfl (Option.some_ne_none c)
  | rdreg reg => exact execRdreg_badCmd_iff hs h
  | wrreg reg value => exact execWrreg_badCmd_iff hs h

end

/-- Settles O19: a step runs a command (`exec_badCmd_iff`), skips a reserved packet, which sets the bit, or waits, which
leaves it clear. -/
theorem badCmdHasExactlyItsCauses : Obligations.BadCmdHasExactlyItsCauses := by
  intro s t h hs
  rcases step_cases h with ⟨i, rest, hd, hx⟩ | ⟨opcode, rest, hd, rfl⟩ | ⟨hd, rfl⟩
  · rw [exec_badCmd_iff (s := s.consume rest) hs hx, badCmdCause_consume]
    simp [hd]
  · exact iff_of_true (flag_badCmd_bit _) (.inl ⟨opcode, rest, hd⟩)
  · refine badCmd_iff_of_kept hs rfl ?_
    simp [hd]

end Sys2Proof.Machine
end

section
/-! SUPPORT. Packets: what decodes back from an encoded command, which bits and words of a packet count, and what a short packet
does: the statements `DecodeGivesBackEveryEncodedCommand`, `UnusedBitsAndWordsAreIgnored`, `SpecWordsDecodeToTheirCommands`,
`ShortPacketsDoNothingButFlag`, `StepRunsTheDecodedCommand` and `HalfAPacketHoldsTheBlock`. -/

namespace Sys2Proof

/-! ### The rows of the opcode map (R104) that stand in no lemma above -/

section
variable {hdr : Word} (payload : List Word)

theorem decodePacket_defineArea (ho : opcodeField hdr = 0x02#8) :
    decodePacket hdr payload = some (.defineArea (areaField hdr) (payload.map sectionOf)) := by
  rw [decodePacket, ho]; rfl

theorem decodePacket_setPixel (ho : opcodeField hdr = 0x03#8) :
    decodePacket hdr payload = some (.setPixel (pixelWriteOf payload)) := by
  rw [decodePacket, ho]; rfl

theorem decodePacket_showStrips (ho : opcodeField hdr = 0x04#8) : decodePacket hdr payload = some .showStrips := by
  rw [decodePacket, ho]; rfl

theorem decodePacket_effect (ho : opcodeField hdr = 0x06#8) :
    decodePacket hdr payload = some (.effect (areaField hdr) (effectRequestOf hdr payload)) := by
  rw [decodePacket, ho]; rfl

theorem decodePacket_fillArea (ho : opcodeField hdr = 0x07#8) :
    decodePacket hdr payload = some (.fillArea (areaField hdr) (color2Of payload)) := by
  rw [decodePacket, ho]; rfl

theorem decodePacket_tick (ho : opcodeField hdr = 0x08#8) : decodePacket hdr payload = some .tick := by
  rw [decodePacket, ho]; rfl

theorem decodePacket_query (ho : opcodeField hdr = 0x09#8) :
    decodePacket hdr payload = some (.query (areaField hdr)) := by
  rw [decodePacket, ho]; rfl

end

/-! ### Decoding an encoded command -/

theorem color2Of_words (c : Color) : color2Of (color2Words c) = some c := by
  simp [color2Of, color2Words]

/-- The ARG bits and the three words of an encoded AREA_CMD give its fields back (R97). -/
theorem areaFieldsOf_encode (o : BitVec 8) (a : AreaId) (f : AreaFields) (l : BitVec 8) :
    areaFieldsOf (header o a (areaCmdArg f) l) (Instr.areaCmd a f).payload = f := by
  obtain ⟨h0, h1, h2, h3, h4, h8⟩ := areaCmdArg_bits f
  have bit (n : Nat) (hn : n < 12) := argBit_header o a (areaCmdArg f) l n hn
  have b8 := (bit 0 (by decide)).trans h0
  have b9 := (bit 1 (by decide)).trans h1
  have b10 := (bit 2 (by decide)).trans h2
  have b11 := (bit 3 (by decide)).trans h3
  have b12 := (bit 4 (by decide)).trans h4
  have b16 := (bit 8 (by decide)).trans h8
  obtain ⟨state, hue, sat, bri, trans⟩ := f
  simp only [Nat.reduceAdd] at b8 b9 b10 b11 b12 b16
  simp only [areaFieldsOf, Instr.payload, b8, b9, b10, b11, b12, b16]
  congr 1
  · cases state <;> rfl
  · exact present_isSome hue _ _ fun v hv => by simp [hv]
  · exact present_isSome sat _ _ fun v hv => by simp [hv]
  · exact present_isSome bri _ _ fun v hv => by simp [hv]
  · exact present_isSome trans _ _ fun v hv => by simp [hv]

/-- The ARG bits and the words of an encoded EFFECT give its operands back (R98). -/
theorem effectRequestOf_encode (o : BitVec 8) (a : AreaId) {q : EffectRequest} (hq : q.name.wf = true) (l : BitVec 8) :
    effectRequestOf (header o a (effectArg q) l) (Instr.effect a (some q)).payload = some q := by
  obtain ⟨h3, h4, hkind⟩ := effectArg_bits q
  have b11 : (header o a (effectArg q) l).getLsbD 11 = q.name.shapeBit := (argBit_header _ _ _ _ 3 (by decide)).trans h3
  have b12 : (header o a (effectArg q) l).getLsbD 12 = q.duration.isSome := (argBit_header _ _ _ _ 4 (by decide)).trans h4
  have hk : kindField (header o a (effectArg q) l) = q.name.code := (kindField_header _ _ _ _).trans hkind
  have hd : present q.duration.isSome q.duration.toList[0]? id = q.duration := by cases q.duration <;> rfl
  simp only [effectRequestOf, Instr.payload, List.cons_append, List.nil_append, lowerHalf_append, b11, b12, hk,
    effectNameOf_code q.name hq, hd]

/-- A header with the opcode, AREA and ARG of a well-formed command, and its payload words, stand for the command. -/
theorem decodePacket_encode {i : Instr} (h : i.wf = true) (len : BitVec 8) :
    decodePacket (header i.opcode i.areaBits i.argBits len) i.payload = some i := by
  have ho : opcodeField (header i.opcode i.areaBits i.argBits len) = i.opcode := opcodeField_header _ _ _ _
  have ha : areaField (header i.opcode i.areaBits i.argBits len) = i.areaBits := areaField_header _ _ _ _
  cases i with
  | nop => exact Machine.decodePacket_nop ho _
  | configure ds => rw [Machine.decodePacket_configure ho, Instr.payload, map_stripDescOf_words]
  | defineArea a ws => rw [decodePacket_defineArea _ ho, ha, Instr.payload, map_sectionOf_words, Instr.areaBits]
  | setPixel w =>
    rw [decodePacket_setPixel _ ho]
    cases w <;> simp [Instr.payload, pixelWriteOf]
  | showStrips => exact decodePacket_showStrips _ ho
  | areaCmd a f =>
    rw [Machine.decodePacket_areaCmd ho, ha, Instr.areaBits, Instr.argBits, areaFieldsOf_encode]
  | effect a q =>
    rw [decodePacket_effect _ ho, ha, Instr.areaBits]
    cases q with
    | none => rfl
    | some q => rw [Instr.argBits, effectRequestOf_encode _ _ h]
  | fillArea a c =>
    rw [decodePacket_fillArea _ ho, ha, Instr.areaBits]
    cases c with
    | none => rfl
    | some c => rw [Instr.payload, color2Of_words]
  | tick => exact decodePacket_tick _ ho
  | query a => rw [decodePacket_query _ ho, ha, Instr.areaBits]
  | convert c =>
    rw [Machine.decodePacket_convert ho]
    cases c with
    | none => rfl
    | some c => rw [Instr.payload, color2Of_words]
  | rdreg r => rw [Machine.decodePacket_rdreg ho, Instr.argBits, regField_header]
  | wrreg r x =>
    rw [Machine.decodePacket_wrreg ho, Instr.argBits, regField_header]
    cases x <;> rfl

/-- A header whose LEN counts the payload words before `rest` takes exactly those (R90). -/
theorem decode_header_append {hdr : Word} {payload : List Word} (hl : (lenField hdr).toNat = payload.length) {i : Instr}
    (hi : decodePacket hdr payload = some i) (rest : List Word) : decode (hdr :: payload ++ rest) = .command i rest := by
  have h := decode_command (hdr := hdr) (more := payload ++ rest) (i := i) (by simp [hl])
    (by rwa [hl, List.take_left])
  rwa [hl, List.drop_left] at h

/-- Settles O1: the payload of a well-formed command fits LEN (`PayloadFits`), and header and payload decode back
(`decodePacket_encode`). -/
theorem decodeGivesBackEveryEncodedCommand : Obligations.DecodeGivesBackEveryEncodedCommand := by
  intro i rest h
  have hfit : i.payload.length ≤ 255 := Laws.PayloadFits.all i h
  refine decode_header_append ?_ (decodePacket_encode h _) rest
  rw [lenField_header, BitVec.toNat_ofNat, Nat.mod_eq_of_lt (by omega)]

/-! ### Which header bits and payload bits count (R91 to R106) -/

/-- The opcodes are the thirteen of R104 and the reserved ones. -/
theorem opcode_cases (o : BitVec 8) : o = 0x00#8 ∨ o = 0x01#8 ∨ o = 0x02#8 ∨ o = 0x03#8 ∨ o = 0x04#8 ∨ o = 0x05#8 ∨
    o = 0x06#8 ∨ o = 0x07#8 ∨ o = 0x08#8 ∨ o = 0x09#8 ∨ o = 0x0A#8 ∨ o = 0x0B#8 ∨ o = 0x0C#8 ∨ 0x0C < o.toNat := by
  bv_omega

theorem getLsbD_of_masked {x y m : Word} (h : x &&& m = y &&& m) {n : Nat} (hn : m.getLsbD n = true) :
    x.getLsbD n = y.getLsbD n := by
  simpa only [BitVec.getLsbD_and, hn, Bool.and_true] using congrArg (fun z => z.getLsbD n) h

theorem extractLsb'_of_masked {x y m : Word} (h : x &&& m = y &&& m) {o w : Nat}
    (hm : m.extractLsb' o w = BitVec.allOnes w) : x.extractLsb' o w = y.extractLsb' o w := by
  simpa only [BitVec.extractLsb'_and, hm, BitVec.and_allOnes] using congrArg (fun z => z.extractLsb' o w) h

theorem map_of_masked {α : Type} {m : Word} {f : Word → α} (hf : ∀ x y, x &&& m = y &&& m → f x = f y)
    {x y : Option Word} (h : (x.map fun w => w &&& m) = y.map fun w => w &&& m) : x.map f = y.map f := by
  cases x with
  | none => cases y with
    | none => rfl
    | some y => cases h
  | some x => cases y with
    | none => cases h
    | some y => exact congrArg some (hf x y (Option.some.inj h))

theorem present_congr {α : Type} {bit : Bool} {x y : Option Word} {f : Word → α} (h : bit = true → x.map f = y.map f) :
    present bit x f = present bit y f := by
  cases bit with
  | false => rfl
  | true => exact h rfl

/-! The operands of a packet, read from the words one by one. -/

theorem color2Of_eq (ws : List Word) : color2Of ws = (ws[0]?.map upperHalf).bind fun h =>
    (ws[0]?.map lowerHalf).bind fun s => (ws[1]?.map lowerHalf).map fun v => ⟨h, s, v⟩ := by
  match ws with
  | [] => rfl
  | [_] => rfl
  | _ :: _ :: _ => rfl

theorem pixelWriteOf_eq (ws : List Word) : pixelWriteOf ws =
    (ws[0]?.map lowerHalf).bind fun i => ws[1]?.map fun p => ⟨i, p⟩ := by
  match ws with
  | [] => rfl
  | [_] => rfl
  | _ :: _ :: _ => rfl

theorem effectRequestOf_eq (hdr : Word) (ws : List Word) : effectRequestOf hdr ws =
    ws[0]?.bind fun rate => (ws[1]?.map lowerHalf).map fun width =>
      ⟨effectNameOf (kindField hdr) (hdr.getLsbD 11), rate, width, present (hdr.getLsbD 12) ws[2]? id⟩ := by
  match ws with
  | [] => rfl
  | [_] => rfl
  | _ :: _ :: _ => rfl

/-! The masks, row by row where they depend on more than the opcode. -/

theorem usedHeaderBits_opcode (hdr : Word) : (usedHeaderBits hdr).extractLsb' 24 8 = BitVec.allOnes 8 := by
  unfold usedHeaderBits
  split
  case h_2 => split <;> rfl -- AREA_CMD, by P_STATE
  case h_3 => split <;> rfl -- EFFECT, by KIND
  all_goals rfl

section Rows
variable {hdr : Word}

theorem usedHeaderBits_areaOnly (ho : opcodeField hdr = 0x02#8 ∨ opcodeField hdr = 0x07#8 ∨ opcodeField hdr = 0x09#8) :
    usedHeaderBits hdr = 0xFFF000FF#32 := by
  rcases ho with ho | ho | ho <;> (rw [usedHeaderBits, ho]; rfl)

theorem usedHeaderBits_reg (ho : opcodeField hdr = 0x0B#8 ∨ opcodeField hdr = 0x0C#8) :
    usedHeaderBits hdr = 0xFF00FFFF#32 := by
  rcases ho with ho | ho <;> (rw [usedHeaderBits, ho]; rfl)

theorem usedHeaderBits_areaCmd (ho : opcodeField hdr = 0x05#8) :
    usedHeaderBits hdr = if hdr.getLsbD 8 then 0xFFF11FFF#32 else 0xFFF01FFF#32 := by
  rw [usedHeaderBits, ho]; rfl

theorem usedHeaderBits_effect (ho : opcodeField hdr = 0x06#8) :
    usedHeaderBits hdr = if kindField hdr = 3#3 then 0xFFF01FFF#32 else 0xFFF017FF#32 := by
  rw [usedHeaderBits, ho]; rfl

theorem wordsRead_areaCmd (ho : opcodeField hdr = 0x05#8) : wordsRead hdr =
    if hdr.getLsbD 12 then 3 else if hdr.getLsbD 11 then 2 else if hdr.getLsbD 9 || hdr.getLsbD 10 then 1 else 0 := by
  rw [wordsRead, ho]; rfl

theorem wordsRead_effect (ho : opcodeField hdr = 0x06#8) : wordsRead hdr = if hdr.getLsbD 12 then 3 else 2 := by
  rw [wordsRead, ho]; rfl

/-- A word whose presence bit is set is read (R97). -/
theorem lt_wordsRead_areaCmd (ho : opcodeField hdr = 0x05#8) :
    (hdr.getLsbD 9 = true ∨ hdr.getLsbD 10 = true → 0 < wordsRead hdr) ∧
    (hdr.getLsbD 11 = true → 1 < wordsRead hdr) ∧ (hdr.getLsbD 12 = true → 2 < wordsRead hdr) := by
  rw [wordsRead_areaCmd ho]
  cases hdr.getLsbD 12
  · cases hdr.getLsbD 11
    · cases hdr.getLsbD 9 <;> cases hdr.getLsbD 10 <;> decide
    · simp
  · simp

theorem lt_wordsRead_effect (ho : opcodeField hdr = 0x06#8) :
    1 < wordsRead hdr ∧ (hdr.getLsbD 12 = true → 2 < wordsRead hdr) := by
  rw [wordsRead_effect ho]
  cases hdr.getLsbD 12 <;> decide

theorem usedPayloadBits_areaCmd_zero (ho : opcodeField hdr = 0x05#8) (hk : 0 < wordsRead hdr) : usedPayloadBits hdr 0 =
    (if hdr.getLsbD 9 then 0xFFFF0000#32 else 0#32) ||| (if hdr.getLsbD 10 then 0x0000FFFF#32 else 0#32) := by
  simp [usedPayloadBits, ho, hk.ne']

theorem usedPayloadBits_areaCmd_one (ho : opcodeField hdr = 0x05#8) (hk : 1 < wordsRead hdr) : usedPayloadBits hdr 1 =
    if hdr.getLsbD 11 then 0x0000FFFF#32 else 0#32 := by
  simp [usedPayloadBits, ho, hk]

theorem usedPayloadBits_areaCmd_two (ho : opcodeField hdr = 0x05#8) (hk : 2 < wordsRead hdr) :
    usedPayloadBits hdr 2 = 0xFFFFFFFF#32 := by
  simp [usedPayloadBits, ho, hk]

theorem usedPayloadBits_configure (ho : opcodeField hdr = 0x01#8) {k : Nat} (hk : k < 255) :
    usedPayloadBits hdr k = 0xFF01FFFF#32 := by
  simp [usedPayloadBits, wordsRead, ho, hk]

theorem usedPayloadBits_defineArea (ho : opcodeField hdr = 0x02#8) {k : Nat} (hk : k < 255) :
    usedPayloadBits hdr k = 0xFFFFFFFF#32 := by
  simp [usedPayloadBits, wordsRead, ho, hk]

theorem usedPayloadBits_setPixel (ho : opcodeField hdr = 0x03#8) :
    usedPayloadBits hdr 0 = 0x0000FFFF#32 ∧ usedPayloadBits hdr 1 = 0xFFFFFFFF#32 := by
  simp [usedPayloadBits, wordsRead, ho]

theorem usedPayloadBits_effect (ho : opcodeField hdr = 0x06#8) :
    usedPayloadBits hdr 0 = 0xFFFFFFFF#32 ∧ usedPayloadBits hdr 1 = 0x0000FFFF#32 ∧
    (2 < wordsRead hdr → usedPayloadBits hdr 2 = 0xFFFFFFFF#32) := by
  have n1 := (lt_wordsRead_effect ho).1
  refine ⟨?_, ?_, fun n2 => ?_⟩
  · simp [usedPayloadBits, ho, Nat.ne_of_gt (Nat.zero_lt_of_lt n1)]
  · simp [usedPayloadBits, ho, n1]
  · simp [usedPayloadBits, ho, n2]

theorem usedPayloadBits_color2 (ho : opcodeField hdr = 0x07#8 ∨ opcodeField hdr = 0x0A#8) :
    1 < wordsRead hdr ∧ usedPayloadBits hdr 0 = 0xFFFFFFFF#32 ∧ usedPayloadBits hdr 1 = 0x0000FFFF#32 := by
  rcases ho with ho | ho <;> simp [usedPayloadBits, wordsRead, ho]

theorem usedPayloadBits_wrreg (ho : opcodeField hdr = 0x0C#8) :
    0 < wordsRead hdr ∧ usedPayloadBits hdr 0 = 0xFFFFFFFF#32 := by
  simp [usedPayloadBits, wordsRead, ho]

end Rows

/-- Two packets agree where the first one is read: on the header bits it uses and on the bits it uses of the words it reads. -/
structure SameUsed (hdr hdr' : Word) (ws ws' : List Word) : Prop where
  header : hdr &&& usedHeaderBits hdr = hdr' &&& usedHeaderBits hdr
  words : ∀ k, k < wordsRead hdr →
    (ws[k]?.map fun w => w &&& usedPayloadBits hdr k) = ws'[k]?.map fun w => w &&& usedPayloadBits hdr k

namespace SameUsed
variable {hdr hdr' : Word} {ws ws' : List Word} (h : SameUsed hdr hdr' ws ws')
include h

theorem opcode : opcodeField hdr' = opcodeField hdr :=
  (extractLsb'_of_masked h.header (usedHeaderBits_opcode hdr)).symm

theorem area (hm : (usedHeaderBits hdr).extractLsb' 20 4 = BitVec.allOnes 4) : areaField hdr' = areaField hdr :=
  (extractLsb'_of_masked h.header hm).symm

theorem reg (ho : opcodeField hdr = 0x0B#8 ∨ opcodeField hdr = 0x0C#8) : regField hdr' = regField hdr :=
  (extractLsb'_of_masked h.header (by rw [usedHeaderBits_reg ho]; rfl)).symm

theorem bit (n : Nat) (hm : (usedHeaderBits hdr).getLsbD n = true) : hdr'.getLsbD n = hdr.getLsbD n :=
  (getLsbD_of_masked h.header hm).symm

theorem word {k : Nat} (hk : k < wordsRead hdr) (hm : usedPayloadBits hdr k = 0xFFFFFFFF#32) : ws[k]? = ws'[k]? := by
  have hid : ∀ x y : Word, x &&& usedPayloadBits hdr k = y &&& usedPayloadBits hdr k → id x = id y := fun x y e => by
    rw [show usedPayloadBits hdr k = BitVec.allOnes 32 from hm, BitVec.and_allOnes, BitVec.and_allOnes] at e
    exact e
  simpa only [Option.map_id_fun, id] using map_of_masked hid (h.words k hk)

theorem lower {k : Nat} (hk : k < wordsRead hdr) (hm : (usedPayloadBits hdr k).extractLsb' 0 16 = BitVec.allOnes 16) :
    ws[k]?.map lowerHalf = ws'[k]?.map lowerHalf :=
  map_of_masked (fun _ _ e => extractLsb'_of_masked e hm) (h.words k hk)

theorem upper {k : Nat} (hk : k < wordsRead hdr) (hm : (usedPayloadBits hdr k).extractLsb' 16 16 = BitVec.allOnes 16) :
    ws[k]?.map upperHalf = ws'[k]?.map upperHalf :=
  map_of_masked (fun _ _ e => extractLsb'_of_masked e hm) (h.words k hk)

/-- CONFIGURE and DEFINE_AREA read every word of a packet. -/
theorem map_words {α : Type} {f : Word → α} (hl : ws.length ≤ 255) (hl' : ws'.length ≤ 255) (hn : wordsRead hdr = 255)
    (hf : ∀ k, k < 255 → ∀ x y, x &&& usedPayloadBits hdr k = y &&& usedPayloadBits hdr k → f x = f y) :
    ws.map f = ws'.map f := by
  refine List.ext_getElem? fun k => ?_
  rw [List.getElem?_map, List.getElem?_map]
  by_cases hk : k < 255
  · exact map_of_masked (hf k hk) (h.words k (hn ▸ hk))
  · rw [List.getElem?_eq_none (by omega), List.getElem?_eq_none (by omega)]

theorem color2 (ho : opcodeField hdr = 0x07#8 ∨ opcodeField hdr = 0x0A#8) : color2Of ws = color2Of ws' := by
  obtain ⟨hn, m0, m1⟩ := usedPayloadBits_color2 ho
  rw [color2Of_eq, color2Of_eq, h.word (by omega) m0, h.lower hn (by rw [m1]; rfl)]

theorem areaFields (ho : opcodeField hdr = 0x05#8) : areaFieldsOf hdr ws = areaFieldsOf hdr' ws' := by
  obtain ⟨n0, n1, n2⟩ := lt_wordsRead_areaCmd ho
  have hmask := usedHeaderBits_areaCmd ho
  have low (n : Nat) (hn : (0xFFF01FFF#32).getLsbD n = true) (hn' : (0xFFF11FFF#32).getLsbD n = true) :=
    h.bit n (by rw [hmask]; split <;> assumption)
  unfold areaFieldsOf
  rw [low 8 rfl rfl, low 9 rfl rfl, low 10 rfl rfl, low 11 rfl rfl, low 12 rfl rfl]
  congr 1
  · cases h8 : hdr.getLsbD 8 with
    | false => rfl
    | true => rw [h.bit 16 (by rw [hmask, h8]; rfl)]
  · refine present_congr fun b => ?_
    have hk := n0 (.inl b)
    exact h.upper hk (by rw [usedPayloadBits_areaCmd_zero ho hk, b]; cases hdr.getLsbD 10 <;> rfl)
  · refine present_congr fun b => ?_
    have hk := n0 (.inr b)
    exact h.lower hk (by rw [usedPayloadBits_areaCmd_zero ho hk, b]; cases hdr.getLsbD 9 <;> rfl)
  · exact present_congr fun b => h.lower (n1 b) (by rw [usedPayloadBits_areaCmd_one ho (n1 b), b]; rfl)
  · exact present_congr fun b => by rw [h.word (n2 b) (usedPayloadBits_areaCmd_two ho (n2 b))]

theorem effectRequest (ho : opcodeField hdr = 0x06#8) : effectRequestOf hdr ws = effectRequestOf hdr' ws' := by
  obtain ⟨n1, n2⟩ := lt_wordsRead_effect ho
  obtain ⟨m0, m1, m2⟩ := usedPayloadBits_effect ho
  have hmask := usedHeaderBits_effect ho
  have hkind : kindField hdr' = kindField hdr := 
    (extractLsb'_of_masked h.header (by rw [hmask]; split <;> rfl)).symm
  have hname : effectNameOf (kindField hdr) (hdr.getLsbD 11) = effectNameOf (kindField hdr) (hdr'.getLsbD 11) := by
    by_cases hk : kindField hdr = 3#3
    · rw [h.bit 11 (by rw [hmask, if_pos hk]; rfl)]
    · simp only [effectNameOf, hk, if_false]
  have hdur : present (hdr.getLsbD 12) ws[2]? id = present (hdr.getLsbD 12) ws'[2]? id :=
    present_congr fun b => by rw [h.word (n2 b) (m2 (n2 b))]
  rw [effectRequestOf_eq, effectRequestOf_eq, hkind, ← hname, h.bit 12 (by rw [hmask]; split <;> rfl), ← hdur,
    h.word (by omega) m0, h.lower n1 (by rw [m1]; rfl)]

/-- Packets that agree where the first is read stand for the same command. -/
theorem decodePacket_eq (hl : ws.length ≤ 255) (hl' : ws'.length ≤ 255) :
    decodePacket hdr ws = decodePacket hdr' ws' := by
  have e := h.opcode
  rcases opcode_cases (opcodeField hdr) with
    ho | ho | ho | ho | ho | ho | ho | ho | ho | ho | ho | ho | ho | ho
  · rw [Machine.decodePacket_nop ho, Machine.decodePacket_nop (e.trans ho)]
  · have hf : ∀ k, k < 255 → ∀ x y, x &&& usedPayloadBits hdr k = y &&& usedPayloadBits hdr k →
        stripDescOf x = stripDescOf y := fun k hk x y exy => by
      rw [usedPayloadBits_configure ho hk] at exy
      rw [stripDescOf, stripDescOf, extractLsb'_of_masked exy rfl, getLsbD_of_masked exy rfl,
        show lowerHalf x = lowerHalf y from extractLsb'_of_masked exy rfl]
    rw [Machine.decodePacket_configure ho, Machine.decodePacket_configure (e.trans ho),
      h.map_words hl hl' (by rw [wordsRead, ho]; rfl) hf]
  · have hf : ∀ k, k < 255 → ∀ x y, x &&& usedPayloadBits hdr k = y &&& usedPayloadBits hdr k →
        sectionOf x = sectionOf y := fun k hk x y exy => by
      rw [usedPayloadBits_defineArea ho hk] at exy
      rw [sectionOf, sectionOf, show lowerHalf x = lowerHalf y from extractLsb'_of_masked exy rfl,
        show upperHalf x = upperHalf y from extractLsb'_of_masked exy rfl]
    rw [decodePacket_defineArea _ ho, decodePacket_defineArea _ (e.trans ho),
      h.area (by rw [usedHeaderBits_areaOnly (.inl ho)]; rfl),
      h.map_words hl hl' (by rw [wordsRead, ho]; rfl) hf]
  · obtain ⟨m0, m1⟩ := usedPayloadBits_setPixel ho
    have hn : wordsRead hdr = 2 := by rw [wordsRead, ho]; rfl
    rw [decodePacket_setPixel _ ho, decodePacket_setPixel _ (e.trans ho), pixelWriteOf_eq, pixelWriteOf_eq,
      h.lower (k := 0) (by omega) (by rw [m0]; rfl), h.word (by omega) m1]
  · rw [decodePacket_showStrips _ ho, decodePacket_showStrips _ (e.trans ho)]
  · rw [Machine.decodePacket_areaCmd ho, Machine.decodePacket_areaCmd (e.trans ho), h.areaFields ho,
      h.area (by rw [usedHeaderBits_areaCmd ho]; split <;> rfl)]
  · rw [decodePacket_effect _ ho, decodePacket_effect _ (e.trans ho), h.effectRequest ho,
      h.area (by rw [usedHeaderBits_effect ho]; split <;> rfl)]
  · rw [decodePacket_fillArea _ ho, decodePacket_fillArea _ (e.trans ho), h.color2 (.inl ho),
      h.area (by rw [usedHeaderBits_areaOnly (.inr (.inl ho))]; rfl)]
  · rw [decodePacket_tick _ ho, decodePacket_tick _ (e.trans ho)]
  · rw [decodePacket_query _ ho, decodePacket_query _ (e.trans ho),
      h.area (by rw [usedHeaderBits_areaOnly (.inr (.inr ho))]; rfl)]
  · rw [Machine.decodePacket_convert ho, Machine.decodePacket_convert (e.trans ho), h.color2 (.inr ho)]
  · rw [Machine.decodePacket_rdreg ho, Machine.decodePacket_rdreg (e.trans ho), h.reg (.inl ho)]
  · obtain ⟨n0, m0⟩ := usedPayloadBits_wrreg ho
    rw [Machine.decodePacket_wrreg ho, Machine.decodePacket_wrreg (e.trans ho), h.reg (.inr ho), h.word n0 m0]
  · rw [(decodePacket_eq_none_iff hdr ws).mpr ho, (decodePacket_eq_none_iff hdr' ws').mpr (e ▸ ho)]

end SameUsed

/-- Settles O3: packets that agree where they are read decode alike (`SameUsed.decodePacket_eq`); a packet cut to the words it
reads agrees with itself there. -/
theorem unusedBitsAndWordsAreIgnored : Obligations.UnusedBitsAndWordsAreIgnored := by
  refine ⟨fun hdr hdr' ws ws' hh hlen hl hw => ?_, fun hdr ws hl => ?_⟩
  · exact SameUsed.decodePacket_eq ⟨hh, fun k _ => hw k⟩ hl (hlen ▸ hl)
  · refine SameUsed.decodePacket_eq ⟨rfl, fun k hk => ?_⟩ ((List.length_take_le' _ _).trans hl) hl
    rw [List.getElem?_take_of_lt hk]

/-- Settles O4: each packet is evaluated. -/
theorem specWordsDecodeToTheirCommands : Obligations.SpecWordsDecodeToTheirCommands := by
  unfold Obligations.SpecWordsDecodeToTheirCommands
  decide

/-! ### Short packets (R93) and the fields of AREA_CMD and EFFECT (R97, R98) -/

/-- A field is present exactly when its bit is set and its word is there. -/
theorem present_eq_some_iff {α : Type} {bit : Bool} {word : Option Word} {read : Word → α} {v : α} :
    present bit word read = some v ↔ bit = true ∧ ∃ w, word = some w ∧ v = read w := by
  cases bit with
  | false => exact iff_of_false nofun fun h => Bool.false_ne_true h.1
  | true => simp only [present, if_true, Option.map_eq_some_iff, true_and, eq_comm]

theorem pixelWriteOf_short {ws : List Word} (h : ws.length < 2) : pixelWriteOf ws = none := by
  match ws with
  | [] => rfl
  | [_] => rfl
  | _ :: _ :: _ => simp at h

theorem effectRequestOf_short (hdr : Word) {ws : List Word} (h : ws.length < 2) : effectRequestOf hdr ws = none := by
  match ws with
  | [] => rfl
  | [_] => rfl
  | _ :: _ :: _ => simp at h

/-- The name a KIND and a SHAPE bit stand for, code by code. -/
theorem effectNameOf_cases (kind : BitVec 3) (shape : Bool) :
    (kind = 2#3 → effectNameOf kind shape = .rainbow) ∧
    (kind = 3#3 → effectNameOf kind shape = .wave (if shape then .sinusoidal else .triangular)) ∧
    (kind = 4#3 → effectNameOf kind shape = .cylon) ∧
    (kind ≠ 2#3 → kind ≠ 3#3 → kind ≠ 4#3 → effectNameOf kind shape = .unnamed kind) := by
  refine ⟨fun h => by rw [h]; rfl, fun h => by rw [h]; rfl, fun h => by rw [h]; rfl, fun h2 h3 h4 => ?_⟩
  rw [effectNameOf, if_neg h2, if_neg h3, if_neg h4]

namespace Machine

/-- Settles O5: a packet decodes to its command (one lemma an opcode), without operands when it is short, and a step runs that
command (`step_packet`); the fields of AREA_CMD and EFFECT by `present_eq_some_iff`. -/
theorem shortPacketsDoNothingButFlag : Obligations.ShortPacketsDoNothingButFlag := by
  intro s hdr payload rest hcmd hlen
  have run {i : Instr} (hi : decodePacket hdr payload = some i) := step_packet hcmd hlen hi
  refine ⟨?_, fun ho hl => ?_, fun ho hl => ?_, fun ho => ?_, fun ho w0 w1 more hp => ?_⟩
  · rintro (ho | ho | ho) hl
    · rw [run (decodePacket_setPixel _ ho), pixelWriteOf_short hl]; rfl
    · rw [run (decodePacket_effect _ ho), effectRequestOf_short hdr hl]; rfl
    · rw [run (decodePacket_fillArea _ ho), color2Of_short hl]; rfl
  · rw [run (decodePacket_wrreg ho _), List.getElem?_eq_none (Nat.le_of_lt_succ hl)]; rfl
  · rw [run (decodePacket_convert ho _), color2Of_short hl]; rfl
  · have hd := decodePacket_areaCmd ho payload
    refine ⟨_, hd, run hd, fun v => ?_, fun h => present_eq_some_iff, fun x => present_eq_some_iff,
      fun x => present_eq_some_iff, fun d => ?_⟩
    · rw [areaFieldsOf, Option.ite_none_right_eq_some, Option.some.injEq, eq_comm (a := v)]
    · exact present_eq_some_iff.trans (by simp)
  · have hd := decodePacket_effect payload ho
    subst hp
    obtain ⟨k2, k3, k4, k5⟩ := effectNameOf_cases (kindField hdr) (hdr.getLsbD 11)
    exact ⟨_, hd, run hd, k2, k3, k4, k5, rfl, rfl, fun d => present_eq_some_iff.trans (by simp)⟩

/-! ### One step, and no step (R90, R112) -/

/-- A command at the head of `CMD` is run in the state that has consumed its packet. -/
theorem step_command {s : State} {i : Instr} {rest : List Word} (h : decode s.cmd = .command i rest) :
    step s = exec i (s.consume rest) := by
  rw [step, fetch, h]

/-- Without a whole packet a step answers its own state. -/
theorem step_incomplete {s : State} (h : decode s.cmd = .incomplete) : step s = .next s := by
  rw [step, fetch, h]; rfl

/-- Settles O6: `step_command`. -/
theorem stepRunsTheDecodedCommand : Obligations.StepRunsTheDecodedCommand := fun _ _ _ h => step_command h

theorem decode_incomplete {hdr : Word} {more : List Word} (h : more.length < (lenField hdr).toNat) :
    decode (hdr :: more) = .incomplete := by
  rw [decode, if_pos h]

/-- A packet with some of its words missing lacks the rest of its `LEN`. -/
theorem missingWords_header {hdr : Word} {more : List Word} (h : more.length ≤ (lenField hdr).toNat) :
    missingWords 0 (hdr :: more) = (lenField hdr).toNat - more.length := by
  rw [missingWords, missingWords_of_le h]

/-- Behind an unfinished packet a TICK packet only waits (R313). -/
theorem timerTick_unfinished {s : State} (h : missingWords 0 s.cmd ≠ 0) :
    s.timerTick = { s with waitingTicks := s.waitingTicks + 1 } :=
  State.admitTicks_unfinished (s := { s with waitingTicks := s.waitingTicks + 1 }) h

theorem timerTick_iterate_unfinished {s : State} (h : missingWords 0 s.cmd ≠ 0) (n : Nat) :
    State.timerTick^[n] s = { s with waitingTicks := s.waitingTicks + n } := by
  induction n with
  | zero => rfl
  | succ n ih =>
    rw [Function.iterate_succ_apply', ih]
    exact timerTick_unfinished (s := { s with waitingTicks := s.waitingTicks + n }) h

/-- Settles O8: an incomplete packet holds the block (`step_incomplete`), TICK packets behind it wait
(`timerTick_iterate_unfinished`), and the words that finish it let them in (`hostWrite_finish`). -/
theorem halfAPacketHoldsTheBlock : Obligations.HalfAPacketHoldsTheBlock := by
  refine ⟨?_, fun s hdr more rest n hcmd hrest hlen => ?_⟩
  · rintro s (hc | ⟨hdr, more, hc, hl⟩)
    · exact step_incomplete (by rw [hc]; rfl)
    · exact step_incomplete (by rw [hc]; exact decode_incomplete hl)
  · have hpos : 0 < rest.length := List.length_pos_iff.mpr hrest
    have hmiss : missingWords 0 s.cmd = rest.length := by rw [hcmd, missingWords_header (by omega)]; omega
    have hwait := timerTick_iterate_unfinished (s := s) (by omega) n
    refine ⟨step_incomplete ?_, hwait, ?_⟩
    · rw [hwait]
      show decode s.cmd = _
      rw [hcmd, decode_incomplete (by omega)]
    · rw [hwait, State.hostWrite_finish (s := { s with waitingTicks := s.waitingTicks + n }) hrest hmiss.symm]
      simp only [hcmd, List.cons_append]

end Machine

end Sys2Proof
end

section
/-! SUPPORT. The invariant over every command, over a step and over what the outside world does: the statements
`ResetLeavesTheStatedValues`, `InvariantHoldsAfterReset`, `EveryStepKeepsTheInvariant`, `NoErrorStopsTheBlock` and
`EnvironmentKeepsTheInvariant`. -/

namespace Sys2Proof.Machine

/-! ### The invariant after reset (R53) -/

theorem area?_resetOf (b : Build) (a : Nat) :
    (State.resetOf b).area? a = if a < b.maxAreas then some Area.reset else none :=
  List.getElem?_replicate

/-- Settles O9: the Areas by `area?_resetOf`, every other item as it stands in `State.resetOf`. -/
theorem resetLeavesTheStatedValues : Obligations.ResetLeavesTheStatedValues :=
  ⟨fun b => ⟨rfl, rfl, rfl, fun i => if_neg (Nat.not_lt_zero i), area?_resetOf b, rfl, rfl, rfl, rfl, rfl, rfl, rfl, rfl⟩,
    rfl⟩

theorem areaInv_reset (maxMapLen tick : Nat) : AreaInv maxMapLen tick Area.reset :=
  ⟨Nat.zero_le _, nofun, nofun, nofun⟩

theorem colorInv_reset : ColorInv Area.reset := ⟨.inl rfl, nofun⟩

theorem inv_resetOf {b : Build} (hb : b.Ok) : Inv (State.resetOf b) := by
  have hreset {a : Nat} {r : Area} (h : (State.resetOf b).area? a = some r) : Area.reset = r := by
    rw [area?_resetOf] at h
    split at h
    · exact Option.some.inj h
    · cases h
  exact {
    build := hb
    table := List.length_replicate
    buffer := ⟨rfl, Nat.zero_le _, Nat.zero_le _, ⟨.nil, nofun⟩, nofun, fun _ => rfl⟩
    areas := fun a r h => hreset h ▸ areaInv_reset _ _
    colors := fun a r h => hreset h ▸ colorInv_reset
    ports := ⟨BitVec.zero_and, BitVec.zero_and, rfl, nofun, .inl rfl⟩ }

theorem default_ok : Build.default.Ok :=
  ⟨by decide, by decide, by decide, by decide, List.Perm.refl _, by decide⟩

/-- Settles O10: `inv_resetOf`, of every legal build and of the defaults. -/
theorem invariantHoldsAfterReset : Obligations.InvariantHoldsAfterReset :=
  ⟨fun _ => inv_resetOf, default_ok, inv_resetOf default_ok⟩

/-! ### The invariant over the shared operations that Laws/Invariant does not treat -/

section
variable {s : State} (h : Inv s)
include h

theorem Inv.writeCtrl (x : Word) : Inv (s.writeCtrl x) where
  build := h.build
  table := h.table
  buffer := { h.buffer with configured := h.buffer.configured }
  areas := h.areas
  colors := h.colors
  ports := { h.ports with
    ctrl := by
      rw [State.writeCtrl_ctrl, BitVec.and_assoc, show ctrlBits &&& ~~~ctrlBits = 0#32 from rfl, BitVec.and_zero] }

/-- A write to `STATUS` clears some of its flags, never `CONFIGURED` (R46). -/
theorem Inv.clearStatus (x : Word) : Inv (s.clearStatus x) where
  build := h.build
  table := h.table
  buffer := { h.buffer with
    configured := fun hc => h.buffer.configured (by
      rw [State.flagged_configured] at hc ⊢
      simpa [clearStatus_bit s x 0] using (clearStatus_bit s x 0).symm.trans hc) }
  areas := h.areas
  colors := h.colors
  ports := { h.ports with
    status := by
      rw [State.clearStatus_status, BitVec.and_assoc, BitVec.and_comm (~~~_), ← BitVec.and_assoc, h.ports.status,
        BitVec.zero_and] }

/-- Without strips and pixels there is nothing that could be out of range (R152). -/
theorem Inv.degradeBuffer : Inv s.degradeBuffer where
  build := h.build
  table := h.table
  buffer := ⟨rfl, Nat.zero_le _, Nat.zero_le _, ⟨.nil, nofun⟩, nofun, fun _ => rfl⟩
  areas := h.areas
  colors := h.colors
  ports := { (h.flag .bufAllocFail).ports with shown := nofun }

end

theorem placeStrips_lastShown (off : Nat) (ds : List StripDesc) : ∀ r ∈ placeStrips off ds, r.lastShown = 0 := by
  induction ds generalizing off with
  | nil => exact nofun
  | cons d ds ih => exact List.forall_mem_cons.mpr ⟨rfl, ih _⟩

/-- The strips of an accepted CONFIGURE are contiguous and fill the buffer (R150, R151). -/
theorem Inv.installStrips {s : State} (h : Inv s) {ds : List StripDesc} (hn : ds.length ≤ s.build.maxStrips)
    (hp : totalLength ds ≤ s.build.maxPixels) (hc : s.flagged .configured = true) : Inv (s.installStrips ds) := by
  have hpix := h.build.pixels
  have htotal : (BitVec.ofNat 16 (totalLength ds)).toNat = totalLength ds := field16_toNat (by omega)
  have hcontig := placeStrips_contiguous 0 ds (by omega)
  rw [Nat.zero_add, ← htotal] at hcontig
  exact {
    build := h.build
    table := h.table
    buffer := ⟨hcontig, by simpa using hn, by simpa [htotal] using hp, ⟨.nil, nofun⟩, nofun,
      fun hc' => absurd (hc.symm.trans hc') nofun⟩
    areas := h.areas
    colors := h.colors
    ports := { h.ports with shown := fun r hr => by rw [placeStrips_lastShown 0 ds r hr]; exact Nat.zero_le _ } }

/-! ### The invariant of an Area over the commands that write it -/

theorem flag_configured_flagged (s : State) : (s.flag .configured).flagged .configured = true := by
  rw [State.flagged_configured, State.flag_status, BitVec.getLsbD_or]
  exact Bool.or_true _

/-- A bound effect starts at the current tick, over a copy of the map of a defined Area (R184). -/
theorem AreaInv.bindEffect {maxMapLen tick : Nat} {r : Area} (h : AreaInv maxMapLen tick r) (hd : r.defined = true)
    (m : Motion) : AreaInv maxMapLen tick (bindEffect tick r m) where
  mapFits := h.mapFits
  emapFits := fun _ he => Option.some.inj he ▸ h.mapFits
  bound := fun _ _ => hd
  started := fun _ he => Option.some.inj he ▸ Nat.le_refl tick

theorem ColorInv.bindEffect {r : Area} (hb : r.base = noneColor ∨ inRange r.base) (tick : Nat) {m : Motion}
    (hm : ∀ c0 c1 dur, m = .transition c0 c1 dur → inRange c0 ∧ inRange c1) : ColorInv (bindEffect tick r m) where
  base := hb
  ends := fun _ c0 c1 dur he hem => hm c0 c1 dur (by rw [← hem, ← Option.some.inj he])

/-- EFFECT binds no Transition (R190). -/
theorem requestedMotion_ne_transition {q : EffectRequest} {m : Motion} (h : requestedMotion q = some m)
    (c0 c1 : Color) (dur : Word) : m ≠ .transition c0 c1 dur := by
  rintro rfl
  unfold requestedMotion at h
  split at h <;> cases h

theorem retarget_inRange {d : Color} (hd : inRange d) (f : AreaFields) {r : Area} (h : ColorInv r) :
    inRange (retarget d f r).base :=
  applyFields_inRange f (startColor_inRange hd h.base)

theorem AreaInv.commandArea {maxMapLen tick : Nat} {r : Area} (h : AreaInv maxMapLen tick r) (hd : r.defined = true)
    (d : Color) (f : AreaFields) : AreaInv maxMapLen tick (commandArea d tick f r) :=
  have hr : AreaInv maxMapLen tick (retarget d f r) := ⟨h.mapFits, h.emapFits, h.bound, h.started⟩
  hr.bindEffect hd _

/-- The Transition of an AREA_CMD runs between colours in range (R187). -/
theorem ColorInv.commandArea {d : Color} (hd : inRange d) {r : Area} (h : ColorInv r) (tick : Nat) (f : AreaFields) :
    ColorInv (commandArea d tick f r) := by
  have hbase := retarget_inRange hd f h
  refine ColorInv.bindEffect (.inr hbase) tick fun c0 c1 dur hm => ?_
  cases hm
  exact ⟨currentColor_inRange h tick, effColor_inRange (.inr hbase)⟩

theorem AreaInv.define {maxMapLen tick : Nat} {r : Area} (h : AreaInv maxMapLen tick r) {map : List Index}
    (hm : map.length ≤ maxMapLen) : AreaInv maxMapLen tick { r with map := map, defined := true } :=
  ⟨hm, h.emapFits, fun _ _ => rfl, h.started⟩

/-! ### The invariant over a command and over a step -/

@[simp] theorem buildMap_build (ws : List Section) (s : State) : (buildMap ws s).2.build = s.build := by
  rcases buildMap_state ws s with e | e | e <;> rw [e] <;> rfl

theorem Inv.buildMap {s : State} (h : Inv s) (ws : List Section) : Inv (buildMap ws s).2 := by
  rcases buildMap_state ws s with e | e | e <;> rw [e]
  · exact h
  · exact h.flag _
  · exact h.flag _

theorem Inv.execTick {s t : State} (h : Inv s) (ht : execTick s = .next t) : Inv t := by
  rcases execTick_cases ht with ⟨-, hs⟩ | ⟨-, rfl⟩
  · exact h.ticked.showAll hs
  · exact h.ticked

/-- Every command keeps the invariant. -/
theorem Inv.exec {i : Instr} {s t : State} (h : Inv s) (hx : exec i s = .next t) : Inv t := by
  have area {a : AreaId} {r : Area} (ha : s.definedArea? a = some r) :
      AreaInv s.build.maxMapLen s.tick r ∧ ColorInv r ∧ r.defined = true := by
    obtain ⟨hr, hd⟩ := State.definedArea?_eq_some.mp ha
    exact ⟨h.areas _ r hr, h.colors _ r hr, hd⟩
  cases i with
  | nop => cases hx; exact h
  | configure ds =>
    rcases execConfigure_cases hx with ⟨-, rfl⟩ | ⟨-, -, -, rfl⟩ | ⟨-, hn, hp, rfl⟩
    · exact h.flag _
    · exact (h.flag _).degradeBuffer
    · exact (h.flag _).installStrips hn hp (flag_configured_flagged s)
  | defineArea a ws =>
    rcases execDefineArea_cases hx with ⟨-, rfl⟩ | ⟨r, hr, rfl⟩
    · exact h.flag _
    · refine (h.buildMap ws).setArea _ ?_ ⟨(h.colors _ r hr).base, (h.colors _ r hr).ends⟩
      rw [buildMap_build, buildMap_tick]
      exact (h.areas _ r hr).define (buildMap_length ws s)
  | setPixel write =>
    rcases execSetPixel_cases hx with ⟨-, rfl⟩ | ⟨w, -, rfl⟩
    · exact h.flag _
    · exact h.setPixels [(w.index, w.pixel)]
  | showStrips => exact h.showAll hx
  | areaCmd a f =>
    rcases execAreaCmd_cases hx with ⟨-, rfl⟩ | ⟨r, -, -, rfl⟩ | ⟨r, ha, -, rfl⟩
    · exact h.flag _
    · exact h
    · obtain ⟨hr, hc, hd⟩ := area ha
      exact h.setArea _ (hr.commandArea hd _ f) (hc.commandArea h.build.default _ f)
  | effect a request =>
    rcases execEffect_cases hx with ⟨-, rfl⟩ | ⟨-, -, rfl⟩ | ⟨q, r, -, -, -, rfl⟩ | ⟨q, r, m, -, ha, hm, rfl⟩
    · exact h.flag _
    · exact h.flag _
    · exact h.flag _
    · obtain ⟨hr, hc, hd⟩ := area ha
      exact h.setArea _ (hr.bindEffect hd m)
        (.bindEffect hc.base _ fun c0 c1 dur e => absurd e (requestedMotion_ne_transition hm c0 c1 dur))
  | fillArea a color =>
    rcases execFillArea_cases hx with ⟨-, rfl⟩ | ⟨-, -, rfl⟩ | ⟨c, r, -, -, rfl⟩
    · exact h.flag _
    · exact h.flag _
    · exact h.setPixels _
  | tick => exact h.execTick hx
  | query a =>
    rcases execQuery_cases hx with ⟨-, rfl⟩ | ⟨r, ha, rfl⟩
    · exact ((h.flag _).respond _).respond _
    · obtain ⟨hr, hc, -⟩ := area ha
      exact ((h.respond _).respond _).setArea _ ⟨hr.mapFits, hr.emapFits, hr.bound, hr.started⟩ ⟨hc.base, hc.ends⟩
  | convert color =>
    rcases execConvert_cases hx with ⟨-, rfl⟩ | ⟨c, -, rfl⟩
    · exact (h.flag _).respond _
    · exact h.respond _
  | rdreg reg =>
    rcases execRdreg_cases hx with ⟨-, rfl⟩ | ⟨r, -, rfl⟩
    · exact (h.flag _).respond _
    · exact h.respond _
  | wrreg reg value =>
    rcases execWrreg_cases hx with ⟨x, -, -, rfl⟩ | ⟨x, -, -, rfl⟩ | ⟨-, rfl⟩
    · exact h.writeCtrl x
    · exact h.clearStatus x
    · exact h.flag _

/-- What every command but SHOW and TICK leaves: the build, the clock and the wire. -/
theorem exec_build_now_wire {i : Instr} {s t : State} (hs : i ≠ .showStrips) (ht : i ≠ .tick) (h : exec i s = .next t) :
    t.build = s.build ∧ t.now = s.now ∧ t.wire = s.wire := by
  cases i with
  | nop => cases h; exact ⟨rfl, rfl, rfl⟩
  | configure ds => rcases execConfigure_cases h with ⟨-, rfl⟩ | ⟨-, -, -, rfl⟩ | ⟨-, -, -, rfl⟩ <;> simp
  | defineArea a ws =>
    rcases execDefineArea_cases h with ⟨-, rfl⟩ | ⟨r, -, rfl⟩
    · simp
    · rcases buildMap_state ws s with e | e | e <;> simp [e]
  | setPixel w => rcases execSetPixel_cases h with ⟨-, rfl⟩ | ⟨w, -, rfl⟩ <;> simp
  | showStrips => exact absurd rfl hs
  | areaCmd a f => rcases execAreaCmd_cases h with ⟨-, rfl⟩ | ⟨r, -, -, rfl⟩ | ⟨r, -, -, rfl⟩ <;> simp
  | effect a q =>
    rcases execEffect_cases h with ⟨-, rfl⟩ | ⟨-, -, rfl⟩ | ⟨q, r, -, -, -, rfl⟩ | ⟨q, r, m, -, -, -, rfl⟩ <;> simp
  | fillArea a c => rcases execFillArea_cases h with ⟨-, rfl⟩ | ⟨-, -, rfl⟩ | ⟨c, r, -, -, rfl⟩ <;> simp
  | tick => exact absurd rfl ht
  | query a => rcases execQuery_cases h with ⟨-, rfl⟩ | ⟨r, -, rfl⟩ <;> simp
  | convert c => rcases execConvert_cases h with ⟨-, rfl⟩ | ⟨c, -, rfl⟩ <;> simp
  | rdreg reg => rcases execRdreg_cases h with ⟨-, rfl⟩ | ⟨r, -, rfl⟩ <;> simp
  | wrreg reg x => rcases execWrreg_cases h with ⟨x, -, -, rfl⟩ | ⟨x, -, -, rfl⟩ | ⟨-, rfl⟩ <;> simp

/-- A show keeps the build and only appends to the wire. -/
theorem showAll_build_wire {s t : State} (h : showAll s = .next t) :
    t.build = s.build ∧ ∃ new, t.wire = s.wire ++ new := by
  obtain ⟨new, htrace⟩ := showAll_trace h
  exact ⟨(showAll_frame h).build, new, htrace.wire⟩

/-- No command changes the build (R6), and each only appends to the wire (R250). -/
theorem exec_build_wire {i : Instr} {s t : State} (h : exec i s = .next t) :
    t.build = s.build ∧ ∃ new, t.wire = s.wire ++ new := by
  by_cases hs : i = .showStrips
  · subst hs; exact showAll_build_wire h
  by_cases ht : i = .tick
  · subst ht
    rcases execTick_cases h with ⟨-, hsh⟩ | ⟨-, rfl⟩
    · simpa using showAll_build_wire hsh
    · exact ⟨s.ticked_build, [], by simp⟩
  obtain ⟨hb, -, hw⟩ := exec_build_now_wire hs ht h
  exact ⟨hb, [], by rw [hw, List.append_nil]⟩

theorem step_build_wire {s t : State} (h : step s = .next t) : t.build = s.build ∧ ∃ new, t.wire = s.wire ++ new := by
  rcases step_cases h with ⟨i, rest, -, hx⟩ | ⟨opcode, rest, -, rfl⟩ | ⟨-, rfl⟩
  · exact exec_build_wire (s := s.consume rest) hx
  · exact ⟨rfl, [], (List.append_nil _).symm⟩
  · exact ⟨rfl, [], (List.append_nil _).symm⟩

/-- A packet consumed whole leaves the end of the queue where it was. -/
theorem Inv.step {s t : State} (h : Inv s) (ht : step s = .next t) : Inv t := by
  rcases step_cases ht with ⟨i, rest, hd, hx⟩ | ⟨opcode, rest, hd, rfl⟩ | ⟨-, rfl⟩
  · exact (h.consume (decode_command_missing hd)).exec hx
  · exact (h.consume (decode_reserved_missing hd)).flag _
  · exact h

/-- Settles O11: the invariant command by command (`Inv.exec`), the build by `step_build_wire`. -/
theorem everyStepKeepsTheInvariant : Obligations.EveryStepKeepsTheInvariant := fun _ _ _ ⟨h, hb⟩ ht =>
  ⟨h.step ht, (step_build_wire ht).1.trans hb⟩

/-! ### Progress (R270) -/

/-- Every command but SHOW and TICK answers a next state, whatever the state. -/
theorem exec_next_of_silent {i : Instr} (hs : i ≠ .showStrips) (ht : i ≠ .tick) (s : State) :
    ∃ t, exec i s = .next t := by
  cases i with
  | nop => exact ⟨_, rfl⟩
  | configure ds =>
    show ∃ t, execConfigure ds s = _
    simp only [execConfigure, ← apply_ite Host.Outcome.next]
    exact ⟨_, rfl⟩
  | defineArea a ws =>
    show ∃ t, execDefineArea a ws s = _
    cases h : s.area? a.toNat <;> simp [execDefineArea, h]
  | setPixel w => cases w <;> exact ⟨_, rfl⟩
  | showStrips => exact absurd rfl hs
  | areaCmd a f =>
    show ∃ t, execAreaCmd a f s = _
    cases h : s.definedArea? a <;> simp [execAreaCmd, h, ← apply_ite Host.Outcome.next]
  | effect a q =>
    show ∃ t, execEffect a q s = _
    cases q with
    | none => exact ⟨_, rfl⟩
    | some q => cases h : s.definedArea? a <;> cases hm : requestedMotion q <;> simp [execEffect, h, hm]
  | fillArea a c =>
    show ∃ t, execFillArea a c s = _
    cases c <;> cases h : s.definedArea? a <;> simp [execFillArea, h]
  | tick => exact absurd rfl ht
  | query a =>
    show ∃ t, execQuery a s = _
    cases h : s.definedArea? a <;> simp [execQuery, h]
  | convert c => cases c <;> exact ⟨_, rfl⟩
  | rdreg r =>
    show ∃ t, execRdreg r s = _
    cases h : Reg.ofNumber r <;> simp [execRdreg, h]
  | wrreg r x =>
    show ∃ t, execWrreg r x s = _
    cases x <;> cases h : Reg.ofNumber r <;> simp [execWrreg, h]

/-- On strips that lie in the buffer every command answers a next state. -/
theorem exec_next (i : Instr) {s : State} (h : BufferInv s) : ∃ t, exec i s = .next t := by
  by_cases hs : i = .showStrips
  · subst hs; exact showAll_next h.contiguous
  by_cases ht : i = .tick
  · subst ht; exact execTick_next h
  exact exec_next_of_silent hs ht s

theorem BufferInv.consume {s : State} (h : BufferInv s) (rest : List Word) : BufferInv (s.consume rest) :=
  ⟨h.contiguous, h.fewStrips, h.fits, h.canonical, h.inside, h.configured⟩

theorem step_next {s : State} (h : BufferInv s) : ∃ t, step s = .next t := by
  unfold step fetch
  cases decode s.cmd with
  | command i rest => exact exec_next i (h.consume rest)
  | reservedOpcode opcode rest => exact ⟨_, rfl⟩
  | incomplete => exact ⟨_, rfl⟩

/-- Settles O12: a step is possible where the invariant holds (`step_next`) and leaves it there (`Inv.step`). -/
theorem noErrorStopsTheBlock : Obligations.NoErrorStopsTheBlock := by
  intro k
  induction k with
  | zero => exact fun _ _ => trivial
  | succ k ih =>
    intro s h
    obtain ⟨t, ht⟩ := step_next h.buffer
    exact ⟨t, ht, ih t (h.step ht)⟩

/-! ### The outside world (R36, R37, R285, R300, R301, R313) -/

/-- A reset leaves the state after reset, whatever is on the wire (R300). -/
theorem inv_afterReset {b : Build} (hb : b.Ok) (wire : List WireEvent) (reads : Nat) :
    Inv { State.resetOf b with wire := wire, clockReads := reads } :=
  (inv_resetOf hb).congr rfl rfl rfl rfl rfl rfl rfl rfl rfl (Nat.le_refl _) (.inl rfl)

section
variable {s : State} (h : Inv s)
include h

theorem Inv.hostWrite (ws : List Word) : Inv (s.hostWrite ws) :=
  h.congr (by simp) (by simp) (by simp) (by simp) (by simp) (by simp) (by simp) (by simp) (by simp) (by simp)
    (State.hostWrite_queue h.ports.queue ws)

theorem Inv.hostRead : Inv s.hostRead.2 :=
  h.congr rfl rfl rfl rfl rfl rfl rfl rfl rfl (Nat.le_refl _) h.ports.queue

theorem Inv.timerTick : Inv s.timerTick :=
  h.congr (by simp) (by simp) (by simp) (by simp) (by simp) (by simp) (by simp) (by simp) (by simp) (by simp)
    (State.admitTicks_queue _)

theorem Inv.passTime (us : Nat) : Inv (s.passTime us) :=
  h.congr rfl rfl rfl rfl rfl rfl rfl rfl rfl (Nat.le_add_right _ _) h.ports.queue

/-- Where the queue ends at a whole packet nothing waits. -/
theorem Inv.noneWaiting (hm : missingWords 0 s.cmd = 0) : s.waitingTicks = 0 :=
  h.ports.queue.resolve_right fun hne => hne hm

end

/-- An empty `RSP` answers nothing and stays as it is. -/
theorem hostRead_empty {s : State} (h : s.rsp = []) : s.hostRead = (none, s) := by
  have hkeep : { s with rsp := s.rsp.tail } = s := by rw [h, List.tail_nil, ← h]
  rw [State.hostRead, hkeep, h, List.head?_nil]

/-- A queue of whole packets ends where a packet ends (R90). -/
theorem missingWords_packetWords {packets : List (Word × List Word)} (h : wholePackets packets) (rest : List Word) :
    missingWords 0 (packetWords packets ++ rest) = missingWords 0 rest := by
  induction packets with
  | nil => rfl
  | cons p ps ih =>
    have hp : p.2.length = (lenField p.1).toNat := h p List.mem_cons_self
    have e : packetWords (p :: ps) ++ rest = p.1 :: (p.2 ++ (packetWords ps ++ rest)) := by simp [packetWords]
    rw [e, missingWords_packet hp, ih fun q hq => h q (List.mem_cons_of_mem _ hq)]

/-- Where the queue ends at a whole packet the tick timer appends its packet (R285). -/
theorem timerTick_whole {s : State} (hm : missingWords 0 s.cmd = 0) (hw : s.waitingTicks = 0) :
    s.timerTick = { s with cmd := s.cmd ++ [0x08000000#32] } := by
  refine (State.admitTicks_whole (s := { s with waitingTicks := s.waitingTicks + 1 }) hm).trans ?_
  simp [hw]

/-- Settles O13: each event keeps what the invariant speaks of; a reset inside a step by `resetInStep_next` and `take_cutFrame`;
the queue by where its last packet ends (`missingWords`). -/
theorem environmentKeepsTheInvariant : Obligations.EnvironmentKeepsTheInvariant := by
  rintro b s ⟨h, rfl⟩
  obtain ⟨t, ht⟩ := step_next h.buffer
  obtain ⟨hb, new, hw⟩ := step_build_wire ht
  have hreset (n : Nat) := State.resetInStep_next ht hw n
  rw [hb] at hreset
  refine ⟨⟨fun ws => ⟨h.hostWrite ws, State.hostWrite_build _ _⟩, ⟨h.hostRead, rfl⟩, ⟨h.timerTick, State.timerTick_build _⟩,
    fun us => ⟨h.passTime us, rfl⟩, ⟨inv_afterReset h.build _ _, rfl⟩, fun n => ?_⟩, rfl, ⟨t, new, ht, hw, hreset, ?_⟩,
    fun us => rfl, fun hr => ?_, fun w ws hr => ?_, fun packets hp hc => ?_, fun packets hdr more hp hc hl => ?_,
    State.hostWrite_append s⟩
  · rw [hreset n]
    exact ⟨inv_afterReset h.build _ _, rfl⟩
  · rintro before k a pulses after m rfl hm
    rw [hreset]
    show s.wire ++ List.take _ _ = _
    rw [take_cutFrame hm, List.append_assoc]
  · exact hostRead_empty hr
  · simp only [State.hostRead, hr, List.head?_cons, List.tail_cons]
  · have hm : missingWords 0 s.cmd = 0 := by
      rw [hc, ← List.append_nil (packetWords packets), missingWords_packetWords hp]; rfl
    have hnone := h.noneWaiting hm
    exact ⟨timerTick_whole hm hnone, State.hostWrite_noneWaiting hnone⟩
  · have hm : missingWords 0 s.cmd = (lenField hdr).toNat - more.length := by
      rw [hc, missingWords_packetWords hp, missingWords_header (by omega)]
    refine ⟨timerTick_unfinished (by omega), fun ws hws => State.hostWrite_unfinished (by omega), fun ws hws => ?_⟩
    exact State.hostWrite_finish (List.length_pos_iff.mp (by omega)) (by omega)

end Sys2Proof.Machine
end

section
/-! SUPPORT. Rules about every command: the bits of `STATUS` and `CTRL`, the fields of an Area, the pixels, and the clock: the
statements `StatusBitsOnlyClearByWriteOne`, `AreaFieldsHaveTheirWriters`, `OnlyPixelCommandsChangePixels` and
`ClockDoesNotMatter`. -/

namespace Sys2Proof.Machine

/-! ### STATUS and CTRL (R45, R46) -/

/-- Between two states some flags were added to `STATUS`, none above bit 6, and `CTRL` was left. -/
structure FlagsAdded (s t : State) : Prop where
  status : ∃ m : Word, t.status = s.status ||| m ∧ ∀ n, 7 ≤ n → m.getLsbD n = false
  ctrl : t.ctrl = s.ctrl

theorem FlagsAdded.of_eq {s t : State} (hs : t.status = s.status) (hc : t.ctrl = s.ctrl) : FlagsAdded s t :=
  ⟨⟨0#32, by rw [hs, BitVec.or_zero], fun _ _ => BitVec.getLsbD_zero⟩, hc⟩

/-- The masks of the flags lie in bits 0 to 6. -/
theorem mask_high (b : StatusBit) {n : Nat} (hn : 7 ≤ n) : b.mask.getLsbD n = false := by
  have hlt : b.mask.toNat < 2 ^ 7 := by cases b <;> decide
  exact Nat.testBit_lt_two_pow (hlt.trans_le (Nat.pow_le_pow_right (by decide) hn))

theorem FlagsAdded.flag (s : State) (b : StatusBit) : FlagsAdded s (s.flag b) :=
  ⟨⟨b.mask, rfl, fun _ => mask_high b⟩, rfl⟩

theorem FlagsAdded.trans {s t u : State} (h1 : FlagsAdded s t) (h2 : FlagsAdded t u) : FlagsAdded s u := by
  obtain ⟨⟨m1, e1, z1⟩, c1⟩ := h1
  obtain ⟨⟨m2, e2, z2⟩, c2⟩ := h2
  refine ⟨⟨m1 ||| m2, by rw [e2, e1, BitVec.or_assoc], fun n hn => ?_⟩, c2.trans c1⟩
  rw [BitVec.getLsbD_or, z1 n hn, z2 n hn, Bool.or_false]

/-- What is said of `STATUS` and `CTRL` does not change with the other fields. -/
theorem FlagsAdded.congr {s u t : State} (h : FlagsAdded s u) (hs : t.status = u.status) (hc : t.ctrl = u.ctrl) :
    FlagsAdded s t :=
  h.trans (.of_eq hs hc)

theorem FlagsAdded.setPixels (s : State) (ws : List (Index × Pixel)) : FlagsAdded s (s.setPixels ws) := by
  refine ⟨?_, s.setPixels_ctrl ws⟩
  rw [State.setPixels_status]
  split
  · exact (FlagsAdded.flag s .badIndex).status
  · exact (FlagsAdded.of_eq rfl rfl : FlagsAdded s s).status

theorem FlagsAdded.buildMap (ws : List Section) (s : State) : FlagsAdded s (buildMap ws s).2 := by
  rcases buildMap_state ws s with e | e | e <;> rw [e]
  · exact .of_eq rfl rfl
  · exact .flag s _
  · exact .flag s _

theorem FlagsAdded.showAll {s t : State} (h : showAll s = .next t) : FlagsAdded s t :=
  .of_eq (showAll_frame h).status (showAll_frame h).ctrl

theorem FlagsAdded.execTick {s t : State} (h : execTick s = .next t) : FlagsAdded s t := by
  have hticked : FlagsAdded s s.ticked := ⟨(FlagsAdded.setPixels s (tickWrites s)).status, s.ticked_ctrl⟩
  rcases execTick_cases h with ⟨-, hs⟩ | ⟨-, rfl⟩
  · exact hticked.trans (.showAll hs)
  · exact hticked

/-- Every command but WRREG only adds flags. -/
theorem exec_flagsAdded {i : Instr} {s t : State} (hi : ∀ reg value, i ≠ .wrreg reg value) (h : exec i s = .next t) :
    FlagsAdded s t := by
  cases i with
  | nop => cases h; exact .of_eq rfl rfl
  | configure ds =>
    rcases execConfigure_cases h with ⟨-, rfl⟩ | ⟨-, -, -, rfl⟩ | ⟨-, -, -, rfl⟩
    · exact .flag s _
    · exact ((FlagsAdded.flag s .configured).trans (.flag _ .bufAllocFail)).congr rfl rfl
    · exact (FlagsAdded.flag s .configured).congr rfl rfl
  | defineArea a ws =>
    rcases execDefineArea_cases h with ⟨-, rfl⟩ | ⟨r, -, rfl⟩
    · exact .flag s _
    · exact (FlagsAdded.buildMap ws s).congr rfl rfl
  | setPixel write =>
    rcases execSetPixel_cases h with ⟨-, rfl⟩ | ⟨w, -, rfl⟩
    · exact .flag s _
    · exact .setPixels s [(w.index, w.pixel)]
  | showStrips => exact .showAll h
  | areaCmd a f =>
    rcases execAreaCmd_cases h with ⟨-, rfl⟩ | ⟨r, -, -, rfl⟩ | ⟨r, -, -, rfl⟩
    · exact .flag s _
    · exact .of_eq rfl rfl
    · exact .of_eq rfl rfl
  | effect a request =>
    rcases execEffect_cases h with ⟨-, rfl⟩ | ⟨-, -, rfl⟩ | ⟨q, r, -, -, -, rfl⟩ | ⟨q, r, m, -, -, -, rfl⟩
    · exact .flag s _
    · exact .flag s _
    · exact .flag s _
    · exact .of_eq rfl rfl
  | fillArea a color =>
    rcases execFillArea_cases h with ⟨-, rfl⟩ | ⟨-, -, rfl⟩ | ⟨c, r, -, -, rfl⟩
    · exact .flag s _
    · exact .flag s _
    · exact .setPixels s _
  | tick => exact .execTick h
  | query a =>
    rcases execQuery_cases h with ⟨-, rfl⟩ | ⟨r, -, rfl⟩
    · exact (FlagsAdded.flag s .badArea).congr rfl rfl
    · exact .of_eq rfl rfl
  | convert color =>
    rcases execConvert_cases h with ⟨-, rfl⟩ | ⟨c, -, rfl⟩
    · exact (FlagsAdded.flag s .badCmd).congr rfl rfl
    · exact .of_eq rfl rfl
  | rdreg reg =>
    rcases execRdreg_cases h with ⟨-, rfl⟩ | ⟨r, -, rfl⟩
    · exact (FlagsAdded.flag s .badCmd).congr rfl rfl
    · exact .of_eq rfl rfl
  | wrreg reg value => exact absurd rfl (hi reg value)

/-- A flag that is set stays set where flags are only added. -/
theorem FlagsAdded.bit_set {s t : State} (h : FlagsAdded s t) {n : Nat} (hn : s.status.getLsbD n = true) :
    t.status.getLsbD n = true := by
  obtain ⟨m, e, -⟩ := h.status
  rw [e, BitVec.getLsbD_or, hn, Bool.true_or]

theorem FlagsAdded.bit_high {s t : State} (h : FlagsAdded s t) {n : Nat} (hn : 7 ≤ n) :
    t.status.getLsbD n = s.status.getLsbD n := by
  obtain ⟨m, e, z⟩ := h.status
  rw [e, BitVec.getLsbD_or, z n hn, Bool.or_false]

/-- A command only adds flags, or is the WRREG that writes `CTRL`, or the one that clears bits of `STATUS` (R45, R46). -/
theorem exec_flags_cases {i : Instr} {s t : State} (h : exec i s = .next t) :
    FlagsAdded s t ∨ (∃ x : Word, i = .wrreg 1#8 (some x) ∧ t = s.writeCtrl x) ∨
    ∃ x : Word, i = .wrreg 2#8 (some x) ∧ t = s.clearStatus x := by
  by_cases hi : ∀ reg value, i ≠ .wrreg reg value
  · exact .inl (exec_flagsAdded hi h)
  · push Not at hi
    obtain ⟨reg, value, rfl⟩ := hi
    rcases execWrreg_cases h with ⟨x, rfl, hr, rfl⟩ | ⟨x, rfl, hr, rfl⟩ | ⟨-, rfl⟩
    · cases Reg.ofNumber_eq_some_iff.mp hr
      exact .inr (.inl ⟨x, rfl, rfl⟩)
    · cases Reg.ofNumber_eq_some_iff.mp hr
      exact .inr (.inr ⟨x, rfl, rfl⟩)
    · exact .inl (.flag s _)

/-- Settles O16: only the third case of `exec_flags_cases` clears a bit, and `clearStatus_bit` says which. -/
theorem statusBitsOnlyClearByWriteOne : Obligations.StatusBitsOnlyClearByWriteOne := by
  intro i s t h
  rcases exec_flags_cases h with hadd | ⟨x, rfl, rfl⟩ | ⟨x, rfl, rfl⟩
  · exact ⟨fun n hs ht => absurd (hadd.bit_set hs) (ne_true_of_eq_false ht), fun n => hadd.bit_high,
      fun hc => absurd hadd.ctrl hc⟩
  · exact ⟨fun n hs ht => absurd hs (ne_true_of_eq_false ht), fun n _ => rfl, fun _ => ⟨x, rfl, rfl⟩⟩
  · refine ⟨fun n hs ht => ?_, fun n hn => ?_, fun hc => absurd rfl hc⟩
    · rw [clearStatus_bit, hs, Bool.true_and, Bool.not_eq_false', Bool.and_eq_true, decide_eq_true_iff] at ht
      obtain ⟨⟨h1, h6⟩, hx⟩ := ht
      exact ⟨h1, h6, x, rfl, hx⟩
    · rw [clearStatus_bit, decide_eq_false (by omega), Bool.false_and, Bool.not_false, Bool.and_true]

/-! ### The Areas (R25 to R30) -/

/-- An entry after one entry was replaced: the replaced one, or as before. -/
theorem area?_setArea_cases {s u : State} (hu : u.areas = s.areas) {x a : Nat} {r0 r1 r r' : Area}
    (hx : s.area? x = some r0) (ha : s.area? a = some r) (h : (u.setArea x r1).area? a = some r') :
    (x = a ∧ r = r0 ∧ r' = r1) ∨ r' = r := by
  by_cases e : x = a
  · subst e
    rw [State.area?_setArea_self ((State.area?_congr hu x).trans hx)] at h
    exact .inl ⟨rfl, Option.some.inj (ha.symm.trans hx), (Option.some.inj h).symm⟩
  · rw [State.area?_setArea_ne e, State.area?_congr hu, ha] at h
    exact .inr (Option.some.inj h).symm

theorem area?_eq_of_areas {s t : State} (e : t.areas = s.areas) {a : Nat} {r r' : Area} (ha : s.area? a = some r)
    (h : t.area? a = some r') : r' = r := by
  rw [State.area?_congr e, ha] at h
  exact (Option.some.inj h).symm

theorem area?_execTick {s t : State} (h : execTick s = .next t) (a : Nat) :
    t.area? a = (s.area? a).map (tickedArea s.tick) := by
  rcases execTick_cases h with ⟨-, hs⟩ | ⟨-, rfl⟩
  · rw [State.area?_congr (showAll_frame hs).areas, State.area?_ticked]
  · exact State.area?_ticked s a

@[simp] theorem buildMap_areas (ws : List Section) (s : State) : (buildMap ws s).2.areas = s.areas := by
  rcases buildMap_state ws s with e | e | e <;> rw [e] <;> rfl

/-- What a command makes of one Area: it leaves it, or is one of the five commands that write it. -/
theorem exec_area_cases {i : Instr} {s t : State} {a : Nat} {r r' : Area} (h : exec i s = .next t)
    (ha : s.area? a = some r) (ha' : t.area? a = some r') :
    r' = r ∨
    (∃ x ws, i = .defineArea x ws ∧ x.toNat = a ∧ r' = { r with map := (buildMap ws s).1, defined := true }) ∨
    (∃ x f, i = .areaCmd x f ∧ x.toNat = a ∧ r' = commandArea s.build.defaultColor s.tick f r) ∨
    (∃ x q m, i = .effect x q ∧ x.toNat = a ∧ r' = bindEffect s.tick r m) ∨
    (i = .tick ∧ r' = { r with eff := none }) ∨
    ∃ x, i = .query x ∧ x.toNat = a ∧ r' = { r with dirty := false } := by
  have keep (e : t.areas = s.areas) := area?_eq_of_areas e ha ha'
  have entry {x : AreaId} {r0 : Area} (hx : s.definedArea? x = some r0) := (State.definedArea?_eq_some.mp hx).1
  cases i with
  | nop => cases h; exact .inl (keep rfl)
  | configure ds =>
    rcases execConfigure_cases h with ⟨-, rfl⟩ | ⟨-, -, -, rfl⟩ | ⟨-, -, -, rfl⟩ <;> exact .inl (keep rfl)
  | defineArea x ws =>
    rcases execDefineArea_cases h with ⟨-, rfl⟩ | ⟨r0, hx, rfl⟩
    · exact .inl (keep rfl)
    · rcases area?_setArea_cases (buildMap_areas ws s) hx ha ha' with ⟨hxa, rfl, rfl⟩ | hr
      · exact .inr (.inl ⟨x, ws, rfl, hxa, rfl⟩)
      · exact .inl hr
  | setPixel w =>
    rcases execSetPixel_cases h with ⟨-, rfl⟩ | ⟨w, -, rfl⟩
    · exact .inl (keep rfl)
    · exact .inl (keep (State.setPixel_areas _ _ _))
  | showStrips => exact .inl (keep (showAll_frame h).areas)
  | areaCmd x f =>
    rcases execAreaCmd_cases h with ⟨-, rfl⟩ | ⟨r0, -, -, rfl⟩ | ⟨r0, hx, -, rfl⟩
    · exact .inl (keep rfl)
    · exact .inl (keep rfl)
    · rcases area?_setArea_cases rfl (entry hx) ha ha' with ⟨hxa, rfl, rfl⟩ | hr
      · exact .inr (.inr (.inl ⟨x, f, rfl, hxa, rfl⟩))
      · exact .inl hr
  | effect x q =>
    rcases execEffect_cases h with ⟨-, rfl⟩ | ⟨-, -, rfl⟩ | ⟨q, r0, -, -, -, rfl⟩ | ⟨q, r0, m, -, hx, -, rfl⟩
    · exact .inl (keep rfl)
    · exact .inl (keep rfl)
    · exact .inl (keep rfl)
    · rcases area?_setArea_cases rfl (entry hx) ha ha' with ⟨hxa, rfl, rfl⟩ | hr
      · exact .inr (.inr (.inr (.inl ⟨x, _, m, rfl, hxa, rfl⟩)))
      · exact .inl hr
  | fillArea x c =>
    rcases execFillArea_cases h with ⟨-, rfl⟩ | ⟨-, -, rfl⟩ | ⟨c, r0, -, -, rfl⟩
    · exact .inl (keep rfl)
    · exact .inl (keep rfl)
    · exact .inl (keep (State.setPixels_areas _ _))
  | tick =>
    rw [area?_execTick h, ha] at ha'
    cases ha'
    rcases tickedArea_cases s.tick r with e | e
    · exact .inl e
    · exact .inr (.inr (.inr (.inr (.inl ⟨rfl, e⟩))))
  | query x =>
    rcases execQuery_cases h with ⟨-, rfl⟩ | ⟨r0, hx, rfl⟩
    · exact .inl (keep rfl)
    · rcases area?_setArea_cases (u := (s.respond _).respond _) rfl (entry hx) ha ha' with ⟨hxa, rfl, rfl⟩ | hr
      · exact .inr (.inr (.inr (.inr (.inr ⟨x, rfl, hxa, rfl⟩))))
      · exact .inl hr
  | convert c => rcases execConvert_cases h with ⟨-, rfl⟩ | ⟨c, -, rfl⟩ <;> exact .inl (keep rfl)
  | rdreg reg => rcases execRdreg_cases h with ⟨-, rfl⟩ | ⟨r0, -, rfl⟩ <;> exact .inl (keep rfl)
  | wrreg reg x => rcases execWrreg_cases h with ⟨x, -, -, rfl⟩ | ⟨x, -, -, rfl⟩ | ⟨-, rfl⟩ <;> exact .inl (keep rfl)

/-- Settles O17: in each case of `exec_area_cases` the fields that differ are those its command writes. -/
theorem areaFieldsHaveTheirWriters : Obligations.AreaFieldsHaveTheirWriters := by
  intro i s t a r r' h ha ha'
  rcases exec_area_cases h ha ha' with rfl | ⟨x, ws, rfl, hx, rfl⟩ | ⟨x, f, rfl, hx, rfl⟩ | ⟨x, q, m, rfl, hx, rfl⟩ |
    ⟨rfl, rfl⟩ | ⟨x, rfl, hx, rfl⟩
  · exact ⟨fun hne => hne.elim (absurd rfl) (absurd rfl), fun hne => hne.elim (absurd rfl) (absurd rfl), absurd rfl,
      absurd rfl⟩
  · exact ⟨fun hne => hne.elim (absurd rfl) (absurd rfl), fun _ => ⟨x, ws, rfl, hx, rfl⟩, absurd rfl, absurd rfl⟩
  · exact ⟨fun _ => ⟨x, f, rfl, hx⟩, fun hne => hne.elim (absurd rfl) (absurd rfl), fun _ => .inl ⟨x, f, rfl, hx⟩,
      fun _ => .inl ⟨rfl, x, f, rfl, hx⟩⟩
  · exact ⟨fun hne => hne.elim (absurd rfl) (absurd rfl), fun hne => hne.elim (absurd rfl) (absurd rfl),
      fun _ => .inr (.inl ⟨x, q, rfl, hx⟩), fun _ => .inr (.inl ⟨rfl, x, q, rfl, hx⟩)⟩
  · exact ⟨fun hne => hne.elim (absurd rfl) (absurd rfl), fun hne => hne.elim (absurd rfl) (absurd rfl),
      fun _ => .inr (.inr ⟨rfl, rfl⟩), absurd rfl⟩
  · exact ⟨fun hne => hne.elim (absurd rfl) (absurd rfl), fun hne => hne.elim (absurd rfl) (absurd rfl), absurd rfl,
      fun _ => .inr (.inr ⟨rfl, x, rfl, hx⟩)⟩

/-! ### The pixels (R24) -/

theorem pixel?_congr {s t : State} (hn : t.npix = s.npix) (hp : t.pixbuf = s.pixbuf) (j : Nat) :
    t.pixel? j = s.pixel? j := by
  rw [State.pixel?, State.pixel?, hn, hp]

/-- Where several writes change a pixel, one of them names it. -/
theorem exists_write_of_pixel_ne {s : State} {ws : List (Index × Pixel)} {j : Nat}
    (h : (s.setPixels ws).pixel? j ≠ s.pixel? j) : ∃ w ∈ ws, w.1.toNat = j := by
  by_contra hno
  push Not at hno
  exact h (State.pixel?_setPixels_ne ws s j hno)

theorem pixel?_ticked (s : State) (j : Nat) : s.ticked.pixel? j = (s.setPixels (tickWrites s)).pixel? j := rfl

theorem pixel?_execTick {s t : State} (h : execTick s = .next t) (j : Nat) :
    t.pixel? j = (s.setPixels (tickWrites s)).pixel? j := by
  rcases execTick_cases h with ⟨-, hs⟩ | ⟨-, rfl⟩
  · rw [(showAll_frame hs).pixel?, pixel?_ticked]
  · exact pixel?_ticked s j

/-- The writes of one Area go through the map of its effect (R210). -/
theorem mem_areaWrites {s : State} {a : Nat} {w : Index × Pixel} (h : w ∈ areaWrites s a) :
    ∃ r e, s.area? a = some r ∧ r.eff = some e ∧ w.1 ∈ e.emap := by
  unfold areaWrites at h
  split at h
  · cases h
  next r hr =>
    split at h
    · cases h
    · next e he => exact ⟨r, e, hr, he, (List.of_mem_zip h).1⟩

/-- Settles O18: a pixel of the commands that write pixels, of the zero fill, or of no command at all. -/
theorem onlyPixelCommandsChangePixels : Obligations.OnlyPixelCommandsChangePixels := by
  intro i s t j h hne
  have quiet (hn : t.npix = s.npix) (hp : t.pixbuf = s.pixbuf) : False := hne (pixel?_congr hn hp j)
  cases i with
  | nop => cases h; exact (quiet rfl rfl).elim
  | configure ds =>
    rcases execConfigure_cases h with ⟨-, rfl⟩ | ⟨hc, -⟩ | ⟨hc, -⟩
    · exact (quiet rfl rfl).elim
    · exact .inr (.inr (.inr ⟨ds, rfl, s.flagged_configured ▸ hc⟩))
    · exact .inr (.inr (.inr ⟨ds, rfl, s.flagged_configured ▸ hc⟩))
  | defineArea a ws =>
    rcases execDefineArea_cases h with ⟨-, rfl⟩ | ⟨r, -, rfl⟩
    · exact (quiet rfl rfl).elim
    · rcases buildMap_state ws s with e | e | e <;> exact (quiet (by simp [e]) (by simp [e])).elim
  | setPixel write =>
    rcases execSetPixel_cases h with ⟨-, rfl⟩ | ⟨w, rfl, rfl⟩
    · exact (quiet rfl rfl).elim
    · obtain ⟨w', hw, hj⟩ := exists_write_of_pixel_ne (ws := [(w.index, w.pixel)]) hne
      rw [List.mem_singleton.mp hw] at hj
      exact .inl ⟨w, rfl, hj⟩
  | showStrips => exact (hne ((showAll_frame h).pixel? j)).elim
  | areaCmd a f =>
    rcases execAreaCmd_cases h with ⟨-, rfl⟩ | ⟨r, -, -, rfl⟩ | ⟨r, -, -, rfl⟩ <;> exact (quiet rfl rfl).elim
  | effect a q =>
    rcases execEffect_cases h with ⟨-, rfl⟩ | ⟨-, -, rfl⟩ | ⟨q, r, -, -, -, rfl⟩ | ⟨q, r, m, -, -, -, rfl⟩ <;>
      exact (quiet rfl rfl).elim
  | fillArea a color =>
    rcases execFillArea_cases h with ⟨-, rfl⟩ | ⟨-, -, rfl⟩ | ⟨c, r, rfl, ha, rfl⟩
    · exact (quiet rfl rfl).elim
    · exact (quiet rfl rfl).elim
    · obtain ⟨w, hw, hj⟩ := exists_write_of_pixel_ne hne
      obtain ⟨k, hk, rfl⟩ := List.mem_map.mp hw
      exact .inr (.inl ⟨a, c, r, rfl, (State.definedArea?_eq_some.mp ha).1, k, hk, hj⟩)
  | tick =>
    rw [pixel?_execTick h] at hne
    obtain ⟨w, hw, hj⟩ := exists_write_of_pixel_ne hne
    obtain ⟨a, -, hwa⟩ := List.mem_flatMap.mp hw
    obtain ⟨r, e, hr, he, hk⟩ := mem_areaWrites hwa
    exact .inr (.inr (.inl ⟨rfl, a, r, e, hr, he, w.1, hk, hj⟩))
  | query a => rcases execQuery_cases h with ⟨-, rfl⟩ | ⟨r, -, rfl⟩ <;> exact (quiet rfl rfl).elim
  | convert c => rcases execConvert_cases h with ⟨-, rfl⟩ | ⟨c, -, rfl⟩ <;> exact (quiet rfl rfl).elim
  | rdreg reg => rcases execRdreg_cases h with ⟨-, rfl⟩ | ⟨r, -, rfl⟩ <;> exact (quiet rfl rfl).elim
  | wrreg reg x =>
    rcases execWrreg_cases h with ⟨x, -, -, rfl⟩ | ⟨x, -, -, rfl⟩ | ⟨-, rfl⟩ <;> exact (quiet rfl rfl).elim

/-! ### The clock (R197) -/

theorem readReg_timeless (s : State) (r : Reg) : s.timeless.readReg r = s.readReg r := by
  cases r with
  | nstrips => simp [State.readReg, State.timeless, stripGeometry]
  | _ => rfl

theorem writeReg_timeless (s : State) (x : Word) (r : Reg) : s.timeless.writeReg x r = (s.writeReg x r).timeless := by
  cases r <;> rfl

theorem timeless_installStrips (s : State) (ds : List StripDesc) :
    s.timeless.installStrips ds = (s.installStrips ds).timeless := by
  simp only [State.timeless, State.installStrips, stripGeometry_placeStrips]

/-- A command that neither reads the clock nor sends a frame does the same without what depends on the clock. -/
theorem exec_timeless_of_silent {i : Instr} (hs : i ≠ .showStrips) (ht : i ≠ .tick) (s : State) :
    exec i s.timeless = timelessOutcome (exec i s) := by
  cases i with
  | nop => rfl
  | configure ds =>
    show execConfigure ds s.timeless = timelessOutcome (execConfigure ds s)
    unfold execConfigure
    rw [show s.timeless.flagged .configured = s.flagged .configured from rfl, show s.timeless.build = s.build from rfl]
    split
    · rfl
    split
    · rfl
    split
    · rfl
    · exact congrArg Host.Outcome.next (timeless_installStrips (s.flag .configured) ds)
  | defineArea a ws =>
    show execDefineArea a ws s.timeless = timelessOutcome (execDefineArea a ws s)
    rw [execDefineArea, execDefineArea, show s.timeless.area? a.toNat = s.area? a.toNat from rfl]
    cases s.area? a.toNat with
    | none => rfl
    | some r => simp only [buildMap_timeless]; rfl
  | setPixel write =>
    cases write with
    | none => rfl
    | some w => exact congrArg Host.Outcome.next (State.timeless_setPixels [(w.index, w.pixel)] s).symm
  | showStrips => exact absurd rfl hs
  | areaCmd a f =>
    show execAreaCmd a f s.timeless = timelessOutcome (execAreaCmd a f s)
    rw [execAreaCmd, execAreaCmd, show s.timeless.definedArea? a = s.definedArea? a from rfl]
    cases s.definedArea? a with
    | none => rfl
    | some r => cases AreaFields.empty f <;> rfl
  | effect a request =>
    show execEffect a request s.timeless = timelessOutcome (execEffect a request s)
    cases request with
    | none => rfl
    | some q =>
      simp only [execEffect, show s.timeless.definedArea? a = s.definedArea? a from rfl]
      cases s.definedArea? a with
      | none => rfl
      | some r => cases requestedMotion q <;> rfl
  | fillArea a color =>
    show execFillArea a color s.timeless = timelessOutcome (execFillArea a color s)
    cases color with
    | none => rfl
    | some c =>
      simp only [execFillArea, show s.timeless.definedArea? a = s.definedArea? a from rfl]
      cases s.definedArea? a with
      | none => rfl
      | some r => exact congrArg Host.Outcome.next (State.timeless_setPixels _ s).symm
  | tick => exact absurd rfl ht
  | query a =>
    show execQuery a s.timeless = timelessOutcome (execQuery a s)
    rw [execQuery, execQuery, show s.timeless.definedArea? a = s.definedArea? a from rfl]
    cases s.definedArea? a <;> rfl
  | convert color => cases color <;> rfl
  | rdreg reg =>
    show execRdreg reg s.timeless = timelessOutcome (execRdreg reg s)
    unfold execRdreg
    cases Reg.ofNumber reg with
    | none => rfl
    | some r => simp only [readReg_timeless]; rfl
  | wrreg reg value =>
    show execWrreg reg value s.timeless = timelessOutcome (execWrreg reg value s)
    cases value with
    | none => rfl
    | some x =>
      unfold execWrreg
      cases Reg.ofNumber reg with
      | none => rfl
      | some r => simp only [writeReg_timeless]; rfl

theorem timelessOutcome_idem (o : Host.Outcome State Fault Refusal) :
    timelessOutcome (timelessOutcome o) = timelessOutcome o := by
  cases o with
  | next s => exact congrArg Host.Outcome.next s.timeless_idem
  | fault r => rfl
  | refused r => rfl

theorem execTick_timeless (s : State) : timelessOutcome (execTick s.timeless) = timelessOutcome (execTick s) := by
  rw [execTick_eq, execTick_eq, show someActive s.timeless = someActive s from rfl, ← State.timeless_ticked]
  split
  · exact showAll_timeless _ _ s.ticked.timeless_idem
  · exact congrArg Host.Outcome.next s.ticked.timeless_idem

/-- What a command gives, but for what depends on the clock, does not depend on the clock. -/
theorem exec_timeless (i : Instr) (s : State) : timelessOutcome (exec i s.timeless) = timelessOutcome (exec i s) := by
  by_cases hs : i = .showStrips
  · subst hs; exact showAll_timeless _ _ s.timeless_idem
  by_cases ht : i = .tick
  · subst ht; exact execTick_timeless s
  rw [exec_timeless_of_silent hs ht, timelessOutcome_idem]

theorem step_timeless (s : State) : timelessOutcome (step s.timeless) = timelessOutcome (step s) := by
  unfold step fetch
  rw [show s.timeless.cmd = s.cmd from rfl]
  cases decode s.cmd with
  | command i rest => exact exec_timeless i (s.consume rest)
  | reservedOpcode opcode rest => exact timelessOutcome_idem (skipReserved (s.consume rest))
  | incomplete => exact timelessOutcome_idem (waitForPacket s)

theorem run_succ (k : Nat) (s : State) :
    Host.Core.run Sys2Proof.core (k + 1) s = andThen (step s) (Host.Core.run Sys2Proof.core k) := by
  have h : Sys2Proof.core.step s = step s := rfl
  cases hs : step s <;> simp only [Host.Core.run, h, hs] <;> rfl

/-- Settles O20: by induction on the number of steps, a step not depending on the clock (`step_timeless`). -/
theorem clockDoesNotMatter : Obligations.ClockDoesNotMatter := by
  intro k
  induction k with
  | zero => exact fun s s' h => congrArg Host.Outcome.next h
  | succ k ih =>
    intro s s' h
    rw [run_succ, run_succ]
    refine andThen_timeless ?_ ih
    rw [← step_timeless s, h, step_timeless s']

end Sys2Proof.Machine
end

section
/-! SUPPORT. Strips, Areas and pixel writes, command by command: the statements `ConfigureFollowsTheDescriptors`,
`LogicalIndexResolvesInsideItsStrip`, `DefineAreaBuildsTheIndexMap`, `SetPixelWritesOnePixel`, `FillAreaPaintsTheCurrentMap` and
`UndefinedAreaOnlySetsBadArea`. -/

namespace Sys2Proof.Machine

/-! ### CONFIGURE (R150 to R153) -/

/-- More pixels than the buffer can hold leave the degraded state (R152). -/
theorem execConfigure_degraded {s : State} {ds : List StripDesc} (hc : s.flagged .configured = false)
    (hn : ds.length ≤ s.build.maxStrips) (hp : s.build.maxPixels < totalLength ds) :
    execConfigure ds s = .next (s.flag .configured).degradeBuffer := by
  rw [execConfigure, if_neg (ne_true_of_eq_false hc), if_neg (Nat.not_lt.mpr hn), if_pos hp]

/-- An accepted CONFIGURE installs its strips (R150). -/
theorem execConfigure_installed {s : State} {ds : List StripDesc} (hc : s.flagged .configured = false)
    (hn : ds.length ≤ s.build.maxStrips) (hp : totalLength ds ≤ s.build.maxPixels) :
    execConfigure ds s = .next ((s.flag .configured).installStrips ds) := by
  rw [execConfigure, if_neg (ne_true_of_eq_false hc), if_neg (Nat.not_lt.mpr hn), if_neg (Nat.not_lt.mpr hp)]

theorem totalLength_take_le (ds : List StripDesc) (k : Nat) : totalLength (ds.take k) ≤ totalLength ds := by
  conv_rhs => rw [← List.take_append_drop k ds]
  simp only [totalLength, List.map_append, List.sum_append]
  exact Nat.le_add_right _ _

/-- The two flags of the degraded state. -/
theorem degradeBuffer_flag_configured (s : State) : (s.flag .configured).degradeBuffer =
    { s with status := s.status ||| 0x03#32, strips := [], npix := 0#16, pixbuf := [] } := by
  have hst : s.status ||| 0x01#32 ||| 0x02#32 = s.status ||| 0x03#32 := BitVec.or_assoc ..
  simp only [State.degradeBuffer, State.flag, StatusBit.mask, hst]

/-- After an accepted CONFIGURE every pixel is zero (R150). -/
theorem pixel?_installStrips (s : State) {ds : List StripDesc} (h : totalLength ds < 65536) (i : Nat) :
    (s.installStrips ds).pixel? i = if i < totalLength ds then some 0#32 else none := by
  rw [State.pixel?, State.installStrips_npix, field16_toNat h]
  rfl

/-- Settles O25: CONFIGURE refused, degraded and installed, its strips by `placeStrips_getElem?`. -/
theorem configureFollowsTheDescriptors : Obligations.ConfigureFollowsTheDescriptors := by
  intro ds s
  simp only [← s.flagged_configured]
  refine ⟨fun hc => execConfigure_refused (.inl hc), fun _ hn => execConfigure_refused (.inr hn), fun hc hn hp => ?_,
    fun hc hn hp hmax => ?_⟩
  · rw [← degradeBuffer_flag_configured]
    exact execConfigure_degraded hc hn hp
  · have htotal : totalLength ds < 65536 := Nat.lt_succ_of_le (Nat.le_trans hp hmax)
    refine ⟨_, execConfigure_installed hc hn hp, rfl, placeStrips_length 0 ds, field16_toNat htotal, fun k d hd => ?_,
      pixel?_installStrips _ htotal⟩
    have hk := totalLength_take_le ds k
    refine ⟨_, (placeStrips_getElem? 0 ds k).trans (congrArg _ hd), rfl, rfl, rfl, rfl, ?_⟩
    rw [Nat.zero_add]
    exact field16_toNat (by omega)

/-! ### logicalToPhysical (R154, R155) -/

theorem logicalToPhysical_of_some {s : State} {li : Nat} {p : Index} (h : resolveIndex s.strips li = some p) :
    logicalToPhysical s li = (p, s) := by
  rw [logicalToPhysical, h]

theorem logicalToPhysical_of_none {s : State} {li : Nat} (h : resolveIndex s.strips li = none) :
    logicalToPhysical s li = (0#16, s.flag .unmappedIndex) := by
  rw [logicalToPhysical, h]

/-- On contiguous strips an index of a strip resolves to its place there. -/
theorem logicalToPhysical_of_owns {s : State} (h : stripsContiguous 0 s.strips s.npix.toNat) {r : Strip}
    (hr : r ∈ s.strips) {li : Nat} (ho : r.owns li = true) :
    ∃ p : Index, logicalToPhysical s li = (p, s) ∧ p.toNat = r.resolve li ∧ p.toNat < s.npix.toNat := by
  have hin := (Strip.resolve_bounds ho).2
  have hend := ((stripsContiguous_bounds h).2 r hr).2
  have hp : (BitVec.ofNat 16 (r.resolve li)).toNat = r.resolve li :=
    field16_toNat (hin.trans_le (hend.trans (Nat.le_of_lt s.npix.isLt)))
  exact ⟨_, logicalToPhysical_of_some (resolveIndex_of_owns h hr ho), hp, by rw [hp]; exact hin.trans_le hend⟩

/-- Settles O27: an index has its place in the strip that owns it (`logicalToPhysical_of_owns`), and the place of that place is
the index again (`Strip.resolve_resolve`). -/
theorem logicalIndexResolvesInsideItsStrip : Obligations.LogicalIndexResolvesInsideItsStrip := by
  intro s h
  refine ⟨fun r li hr hlo hhi => ?_, fun li hli => ?_, fun li hli => ?_⟩
  · have ho : r.owns li = true := by simp [Strip.owns, hlo, hhi]
    obtain ⟨p, hp, hpr, -⟩ := logicalToPhysical_of_owns h hr ho
    exact ⟨p, hp, hpr⟩
  · obtain ⟨r, hr, ho, -⟩ := resolveIndex_some h (Nat.zero_le li) hli
    obtain ⟨p, hp, hpr, hlt⟩ := logicalToPhysical_of_owns h hr ho
    obtain ⟨q, hq, hqr, -⟩ := logicalToPhysical_of_owns h hr (Strip.owns_resolve ho)
    exact ⟨p, hp, hlt, q, hpr ▸ hq, hqr.trans (Strip.resolve_resolve ho)⟩
  · exact logicalToPhysical_of_none (resolveIndex_none h hli)

/-! ### DEFINE_AREA (R156 to R159) -/

theorem logicalToPhysical_fst (s : State) (li : Nat) :
    (logicalToPhysical s li).1 = (resolveIndex s.strips li).getD 0#16 := by
  cases h : resolveIndex s.strips li with
  | none => rw [logicalToPhysical_of_none h]; rfl
  | some p => rw [logicalToPhysical_of_some h]; rfl

theorem buildMap_of_gt {ws : List Section} {s : State} (h : s.build.maxMapLen < sectionTotal ws) :
    buildMap ws s = ([], s.flag .mapAllocFail) := if_pos h

/-- A map that fits holds each named index resolved, and the flag says whether one was uncovered (R155, R156). -/
theorem buildMap_of_le {ws : List Section} {s : State} (h : sectionTotal ws ≤ s.build.maxMapLen) :
    buildMap ws s = ((namedIndices ws).map fun li => (logicalToPhysical s li).1,
      if ∃ li ∈ namedIndices ws, resolveIndex s.strips li = none then s.flag .unmappedIndex else s) := by
  rw [buildMap, if_neg (Nat.not_lt.mpr h), resolveAll_eq]
  simp only [logicalToPhysical_fst]
  rfl

/-- Settles O28: an id outside the table is refused; else the map of `buildMap`, in both its cases, is installed. -/
theorem defineAreaBuildsTheIndexMap : Obligations.DefineAreaBuildsTheIndexMap := by
  intro a ws s
  refine ⟨fun hlen => ⟨fun ha => ?_, fun ha => State.area?_of_lt (hlen ▸ ha)⟩, fun r hr => ?_⟩
  · show execDefineArea a ws s = _
    rw [execDefineArea, State.area?_eq_none.mpr (hlen ▸ ha)]
    rfl
  · have hx : exec (.defineArea a ws) s =
        .next ((buildMap ws s).2.setArea a.toNat { r with map := (buildMap ws s).1, defined := true }) := by
      show execDefineArea a ws s = _
      rw [execDefineArea, hr]
    have hself {u : State} (hu : u.areas = s.areas) (r' : Area) : (u.setArea a.toNat r').area? a.toNat = some r' :=
      State.area?_setArea_self ((State.area?_congr hu _).trans hr) r'
    refine ⟨_, hx, fun b hb => ?_, fun hgt => ?_, fun hle => ?_⟩
    · rw [State.area?_setArea_ne (Ne.symm hb), State.area?_congr (buildMap_areas ws s)]
    · rw [buildMap_of_gt hgt]
      exact ⟨rfl, hself rfl _⟩
    · rw [hself (buildMap_areas ws s), buildMap_of_le hle]
      refine ⟨?_, rfl, ?_⟩
      · dsimp only
        split <;> rfl
      · rw [State.setArea_status]
        dsimp only
        split <;> rfl

/-! ### SET_PIXEL and FILL_AREA (R160, R161, R166) -/

/-- Settles O29: the write of `setPixel` inside the buffer and outside it, seen through `pixel?_setPixel`. -/
theorem setPixelWritesOnePixel : Obligations.SetPixelWritesOnePixel := by
  refine ⟨fun s => rfl, fun s w hwf => ⟨fun hge => ?_, fun hlt => ⟨_, rfl, ?_, State.setPixel_wf hwf _ _, ?_, fun j hj => ?_⟩⟩⟩
  · exact congrArg Host.Outcome.next (State.setPixel_of_ge hge _)
  · rw [State.setPixel_of_lt hlt]
  · rw [State.pixel?_setPixel hwf, if_pos ⟨rfl, hlt⟩]
  · rw [State.pixel?_setPixel hwf, if_neg fun h => hj h.1.symm]

/-- Writes of one word everywhere: the last one to an index is that word, when one of them names it. -/
theorem lastWrite_map_const (is : List Index) (p : Pixel) (j : Nat) :
    lastWrite (is.map fun i => (i, p)) j = if ∃ i ∈ is, i.toNat = j then some p else none := by
  rw [lastWrite, ← List.map_reverse, List.find?_map, Option.map_map]
  cases hf : is.reverse.find? ((fun w : Index × Pixel => decide (w.1.toNat = j)) ∘ fun i => (i, p)) with
  | none =>
    rw [List.find?_eq_none] at hf
    rw [if_neg fun ⟨i, hi, hj⟩ => hf i (List.mem_reverse.mpr hi) (decide_eq_true hj)]
    rfl
  | some i =>
    have hi := List.mem_reverse.mp (List.mem_of_find?_eq_some hf)
    have hj := List.find?_some hf
    rw [if_pos ⟨i, hi, of_decide_eq_true hj⟩]
    rfl

/-- Several pixel writes change the buffer and `STATUS` only. -/
theorem setPixels_eq (s : State) (ws : List (Index × Pixel)) :
    s.setPixels ws = { s with pixbuf := (s.setPixels ws).pixbuf, status := (s.setPixels ws).status } := by
  apply State.ext <;> simp

theorem execFillArea_defined {s : State} {a : AreaId} {r : Area} (h : s.definedArea? a = some r) (c : Color) :
    execFillArea a (some c) s = .next (s.setPixels (r.map.map fun i => (i, toPixel s.conversion c))) := by
  simp only [execFillArea, h]

theorem execFillArea_undefined {s : State} {a : AreaId} (h : s.definedArea? a = none) (c : Color) :
    execFillArea a (some c) s = .next (s.flag .badArea) := by
  simp only [execFillArea, h]

/-- Settles O30: the writes of a defined Area all carry one word (`lastWrite_map_const`). -/
theorem fillAreaPaintsTheCurrentMap : Obligations.FillAreaPaintsTheCurrentMap := by
  refine ⟨fun s a => rfl, fun s a c ha => execFillArea_undefined ha c, fun s a c r hr hd hwf => ?_⟩
  refine ⟨_, execFillArea_defined (State.definedArea?_eq_some.mpr ⟨hr, hd⟩) c, setPixels_eq s _, ?_, fun j => ?_⟩
  · rw [State.setPixels_status]
    simp only [List.mem_map, exists_exists_and_eq_and]
    rfl
  · rw [State.pixel?_setPixels hwf, lastWrite_map_const, State.pixel?]
    by_cases hj : j < s.npix.toNat
    · simp only [hj, if_true, true_and]
      split <;> rfl
    · simp only [hj, if_false, false_and]

/-! ### Undefined Areas (R162) -/

/-- `areaOk` fails for an id outside the table and for an Area that is not defined. -/
theorem definedArea?_eq_none {s : State} {a : AreaId}
    (h : (s.areas.length = s.build.maxAreas ∧ s.build.maxAreas ≤ a.toNat) ∨
      ∃ r, s.area? a.toNat = some r ∧ r.defined = false) : s.definedArea? a = none := by
  rcases h with ⟨hlen, ha⟩ | ⟨r, hr, hd⟩
  · rw [State.definedArea?, State.area?_eq_none.mpr (hlen ▸ ha)]
  · simp only [State.definedArea?, hr, hd, Bool.false_eq_true, if_false]

/-- Settles O31: each of the four commands asks `areaOk` before anything else. -/
theorem undefinedAreaOnlySetsBadArea : Obligations.UndefinedAreaOnlySetsBadArea := by
  intro s a h
  have ha := definedArea?_eq_none h
  refine ⟨fun f => ?_, fun q => ?_, execFillArea_undefined ha, ?_⟩
  · show execAreaCmd a f s = _
    rw [execAreaCmd, ha]; rfl
  · show execEffect a (some q) s = _
    simp only [execEffect, ha]; rfl
  · show execQuery a s = _
    rw [execQuery, ha]
    simp only [State.respond, State.flag, StatusBit.mask, List.append_assoc, List.cons_append, List.nil_append]

end Sys2Proof.Machine
end

section
/-! SUPPORT. Numbers of the colour engine and of the sine table: the statements `StrategiesAgreeWithinOneCount`,
`MixIsTheRoundedLine` and `SineTableHasItsFixedPoints`. -/

namespace Sys2Proof.Machine

/-! ### The two strategies (R135) -/

/-- How far a product of two factors in 0 to 1 moves when each moves a little. -/
theorem mul_near {x x' y y' dx dy : ℝ} (hy : y ∈ Set.Icc (0 : ℝ) 1) (hx' : x' ∈ Set.Icc (0 : ℝ) 1) (h1 : |x - x'| ≤ dx)
    (h2 : |y - y'| ≤ dy) : |x * y - x' * y'| ≤ dx + dy := by
  have e : x * y - x' * y' = (x - x') * y + x' * (y - y') := by ring
  calc |x * y - x' * y'| ≤ |(x - x') * y| + |x' * (y - y')| := by rw [e]; exact abs_add_le _ _
    _ = |x - x'| * y + x' * |y - y'| := by rw [abs_mul, abs_mul, abs_of_nonneg hy.1, abs_of_nonneg hx'.1]
    _ ≤ |x - x'| * 1 + 1 * |y - y'| := by gcongr <;> simp [hy.2, hx'.2]
    _ ≤ dx + dy := by linarith

/-- The fast and the reference brightness of a value differ by at most 32/65536 and the two colour shares of a saturation by at
most 196/65536, so their products by at most 228/65536, which is less than one count of 255. -/
theorem product_near {v s : Nat} (hv : v ≤ 25600) (hs : s ≤ 25600) (hs' : s = 0 ∨ 128 ≤ s) :
    |((lutInterp (gammaLut ⟨11, 5⟩) v : ℕ) : ℝ) / 65536 * ((lutInterp satLut s : ℕ) / 65536) -
      ((v : ℝ) / 25600) ^ (((11 : ℕ) : ℝ) / (5 : ℕ)) * ((s : ℝ) / 25600) ^ ((1 : ℝ) / 3)| ≤ 228 / 65536 ∧
    |((lutInterp (gammaLut ⟨11, 5⟩) v : ℕ) : ℝ) / 65536 * (1 - (lutInterp satLut s : ℕ) / 65536) -
      ((v : ℝ) / 25600) ^ (((11 : ℕ) : ℝ) / (5 : ℕ)) * (1 - ((s : ℝ) / 25600) ^ ((1 : ℝ) / 3))| ≤ 228 / 65536 := by
  have hg := lutInterp_gamma_near v hv
  have hr := lutInterp_sat_near s hs' hs
  have hq : ((lutInterp satLut s : ℕ) : ℝ) / 65536 ∈ Set.Icc (0 : ℝ) 1 :=
    fraction_le_one _ 65536 (lutInterp_le (g := cubeRoot) (by decide) s) (by decide)
  have hb := rpow_fraction_mem hv (e := ((11 : ℕ) : ℝ) / (5 : ℕ)) (by positivity)
  constructor
  · exact (mul_near hq hb hg hr).trans (by norm_num)
  · refine (mul_near (Set.Icc.one_sub_mem hq) hb hg (dy := 196 / 65536) ?_).trans (by norm_num)
    rwa [sub_sub_sub_cancel_left, abs_sub_comm]

/-- Two counts differ by at most one. -/
def withinOne (n m : ℕ) : Prop := n ≤ m + 1 ∧ m ≤ n + 1

/-- A real within one count of a real that is not negative rounds within one count of it. -/
theorem withinOne_of_rounded {n m : ℕ} {x y : ℝ} (hn : (n : ℤ) = ⌊x + 1 / 2⌋) (hm : (m : ℤ) = ⌊max 0 y + 1 / 2⌋)
    (hy : 0 ≤ y) (h : |x - y| < 1) : withinOne n m := by
  rw [max_eq_right hy] at hm
  exact floor_near x y n m hn hm h

section
variable {c : Color} (h : inRange c) (hs : c.s.toNat = 0 ∨ 128 ≤ c.s.toNat)
include h hs

theorem white_withinOne : withinOne (channelByte (toPixel ⟨.fast, ⟨11, 5⟩⟩ c) .white).toNat
    (channelByte (toPixel ⟨.reference, ⟨11, 5⟩⟩ c) .white).toNat := by
  have ⟨_, hsat, hval⟩ := h
  have hb := rpow_fraction_mem hval (e := ((11 : ℕ) : ℝ) / (5 : ℕ)) (by positivity)
  have hst := rpow_fraction_mem hsat (e := (1 : ℝ) / 3) (by positivity)
  have hnn := (unitInterval.mul_mem hb (Set.Icc.one_sub_mem hst)).1
  have hnear := abs_le.mp (product_near hval hsat hs).2
  have hfast := fastWhite_floor (lutInterp (gammaLut ⟨11, 5⟩) c.v.toNat) (lutInterp satLut c.s.toNat)
    (lutInterp_le (g := cubeRoot) (by decide) _)
  rw [← channelByte_fast_white (by decide) h] at hfast
  exact withinOne_of_rounded hfast (channelByte_reference_white (by decide) h) (by linarith)
    (abs_lt.mpr ⟨by linarith, by linarith⟩)

theorem color_withinOne {x : Channel} (hx : x ≠ .white) : withinOne (channelByte (toPixel ⟨.fast, ⟨11, 5⟩⟩ c) x).toNat
    (channelByte (toPixel ⟨.reference, ⟨11, 5⟩⟩ c) x).toNat := by
  have ⟨_, hsat, hval⟩ := h
  have hb := rpow_fraction_mem hval (e := ((11 : ℕ) : ℝ) / (5 : ℕ)) (by positivity)
  have hst := rpow_fraction_mem hsat (e := (1 : ℝ) / 3) (by positivity)
  have hw : (hueWeight x c.h.toNat : ℝ) / 15360 ∈ Set.Icc (0 : ℝ) 1 :=
    fraction_le_one _ 15360 (hueWeight_le x c.h.toNat) (by decide)
  have hnn := (unitInterval.mul_mem (unitInterval.mul_mem hb hst) hw).1
  have hnear := abs_le.mp (mul_near (dy := 0) hw (unitInterval.mul_mem hb hst) (product_near hval hsat hs).1
    (by rw [sub_self, abs_zero]))
  have hfast := fastColor_floor (lutInterp (gammaLut ⟨11, 5⟩) c.v.toNat) (lutInterp satLut c.s.toNat)
    (hueWeight x c.h.toNat)
  rw [← channelByte_fast_color (by decide) h hx] at hfast
  exact withinOne_of_rounded hfast (channelByte_reference_color (by decide) h hx) (by linarith)
    (abs_lt.mpr ⟨by linarith, by linarith⟩)

end

/-- Settles O39: both strategies round real numbers less than one count apart; the two words by evaluation. -/
theorem strategiesAgreeWithinOneCount : Obligations.StrategiesAgreeWithinOneCount := by
  refine ⟨fun c x hc hs => ?_, by decide +kernel, by decide +kernel⟩
  by_cases hx : x = .white
  · subst hx; exact white_withinOne hc hs
  · exact color_withinOne hc hs hx

/-! ### mix (R136) -/

/-- A signed component of a mix fits its field. -/
theorem toInt_mixComponent (x y : BitVec 16) {num den : Nat} (hden : 0 < den) (hn : num ≤ den) :
    (BitVec.ofInt 16 (mixComponent x.toInt y.toInt num den)).toInt = mixComponent x.toInt y.toInt num den := by
  obtain ⟨hlo, hhi⟩ := mixComponent_between x.toInt y.toInt hden hn
  have hx := x.toInt_lt; have hx' := x.le_toInt
  have hy := y.toInt_lt; have hy' := y.le_toInt
  rw [BitVec.toInt_ofInt]
  exact Int.bmod_eq_of_le (by omega) (by omega)

/-- Each component of a mix is the mixed component. -/
theorem component_mix (a b : Color) {num den : Nat} (hden : 0 < den) (hn : num ≤ den) :
    ∀ x ∈ componentsOf, x (mix a b num den) = mixComponent (x a) (x b) num den := by
  simp only [componentsOf, List.forall_mem_cons]
  exact ⟨(mixComponent_narrow hden hn (Nat.le_of_lt_succ a.h.isLt) (Nat.le_of_lt_succ b.h.isLt) (by decide)).1,
    toInt_mixComponent a.s b.s hden hn, toInt_mixComponent a.v b.v hden hn, nofun⟩

/-- Colours are equal when their three components are. -/
theorem color_ext_components {a b : Color} (h : ∀ x ∈ componentsOf, x a = x b) : a = b := by
  simp only [componentsOf, List.forall_mem_cons] at h
  obtain ⟨hh, hs, hv, -⟩ := h
  obtain ⟨ah, as, av⟩ := a
  obtain ⟨bh, bs, bv⟩ := b
  rw [Color.mk.injEq]
  exact ⟨BitVec.eq_of_toNat_eq (Int.ofNat_inj.mp hh), BitVec.eq_of_toInt_eq hs, BitVec.eq_of_toInt_eq hv⟩

theorem mix_zero (a b : Color) {den : Nat} (h : 0 < den) : mix a b 0 den = a :=
  color_ext_components fun x hx => (component_mix a b h (Nat.zero_le den) x hx).trans (mixComponent_zero _ _ h)

theorem mix_full (a b : Color) {den : Nat} (h : 0 < den) : mix a b den den = b :=
  color_ext_components fun x hx => (component_mix a b h (Nat.le_refl den) x hx).trans (mixComponent_full _ _ h)

/-- A component moves toward its end with `num` (R136). -/
theorem mixComponent_mono (a b : Int) {num num' den : Nat} (hden : 0 < den) (h : num ≤ num') :
    (a ≤ b → mixComponent a b num den ≤ mixComponent a b num' den) ∧
    (b ≤ a → mixComponent a b num' den ≤ mixComponent a b num den) := by
  have hn : (num : Int) ≤ num' := Int.ofNat_le.mpr h
  have hden2 : (0 : Int) < 2 * den := by omega
  have divide {x y : Int} (hxy : x ≤ y) : a + (x + den) / (2 * den) ≤ a + (y + den) / (2 * den) :=
    Int.add_le_add_left (Int.ediv_le_ediv hden2 (Int.add_le_add_right hxy _)) a
  unfold mixComponent
  rw [Int.fdiv_eq_ediv_of_nonneg _ hden2.le, Int.fdiv_eq_ediv_of_nonneg _ hden2.le]
  exact ⟨fun hab => divide (Int.mul_le_mul_of_nonneg_left hn (by omega)),
    fun hab => divide (Int.mul_le_mul_of_nonpos_left (by omega) hn)⟩

/-- Settles O40: the facts of `mixComponent`, carried to the components of `mix` by `component_mix`. -/
theorem mixIsTheRoundedLine : Obligations.MixIsTheRoundedLine := by
  refine ⟨fun a b den hden => ⟨mix_zero a b hden, mix_full a b hden, fun x hx num hn => ?_⟩, by decide, by decide, by decide,
    by decide⟩
  have hcomp {n : Nat} (hn : n ≤ den) := component_mix a b hden hn x hx
  obtain ⟨hlo, hhi⟩ := mixComponent_bounds (x a) (x b) num hden
  refine ⟨hcomp hn, ?_, fun ha hb => mix_inRange ha hb hden hn, fun num' h h' => ?_⟩
  · rw [hcomp hn, abs_le]
    constructor <;> linarith
  · rw [hcomp hn, hcomp h']
    exact mixComponent_mono (x a) (x b) hden h

/-! ### The sine table (R218) -/

/-- The table is symmetric about its middle. -/
theorem sinLut_symmetric {k : Nat} (h1 : 1 ≤ k) (h2 : k ≤ 255) : lutEntry sinLut k = lutEntry sinLut (256 - k) := by
  have hall : ∀ k : Fin 256, 1 ≤ k.val → lutEntry sinLut k = lutEntry sinLut (256 - k) := by decide +kernel
  exact hall ⟨k, by omega⟩ h1

/-- Entry `k` of the first half turn is the rounded sample of the cosine of `kπ/128`. -/
theorem sinLut_floor_half {k : Nat} (h : k ≤ 128) :
    (lutEntry sinLut k : ℤ) = ⌊65536 * (1 - Real.cos (k * Real.pi / 128)) / 2 + 1 / 2⌋ := by
  rcases Nat.lt_or_ge 64 k with hk | hk
  · obtain ⟨j, hj, rfl⟩ : ∃ j, j ≤ 64 ∧ k = 128 - j := ⟨128 - k, by omega, by omega⟩
    have hbox := angleBox_holds hj
    have hcos : Real.cos ((128 - j : ℕ) * Real.pi / 128) = -Real.cos (j * Real.pi / 128) := by
      rw [← Real.cos_pi_sub]
      congr 1
      push_cast [Nat.cast_sub h, Nat.cast_sub (show j ≤ 128 by omega)]
      ring
    have hlo := hbox.cosLo
    have hhi := hbox.cosHi
    rw [hcos]
    refine roundsTo_floor (sinLut_near ⟨j, by omega⟩).2 ?_ ?_
    · push_cast; linarith
    · push_cast; linarith
  · have hbox := angleBox_holds hk
    exact roundsTo_floor (sinLut_near ⟨k, by omega⟩).1 hbox.cosLo hbox.cosHi

/-- Settles O51: the first half turn by `sinLut_floor_half`, the second by symmetry of the table and of the cosine. -/
theorem sineTableHasItsFixedPoints : Obligations.SineTableHasItsFixedPoints := by
  refine ⟨fun k hk => ?_, by decide +kernel, by decide +kernel, by decide +kernel, by decide +kernel, by decide +kernel,
    by decide +kernel, fun k => sinLut_symmetric⟩
  have hangle : 2 * Real.pi * k / 256 = k * Real.pi / 128 := by ring
  rw [hangle]
  rcases Nat.lt_or_ge 128 k with hhalf | hhalf
  · have hcos : Real.cos (k * Real.pi / 128) = Real.cos ((256 - k : ℕ) * Real.pi / 128) := by
      rw [← Real.cos_two_pi_sub]
      congr 1
      push_cast [Nat.cast_sub (show k ≤ 256 by omega)]
      ring
    rw [sinLut_symmetric (by omega) hk, hcos]
    exact sinLut_floor_half (by omega)
  · exact sinLut_floor_half hhalf

end Sys2Proof.Machine
end

section
/-! SUPPORT. The commands of the effect engine on a defined Area: the statements `AreaCmdRetargetsAndBindsATransition`,
`EffectBindsTheNamedEffect` and `QueryReportsTheTargetState`. -/

namespace Sys2Proof.Machine

/-! ### AREA_CMD (R187, R188) -/

/-- An AREA_CMD with a state field writes the commanded Area. -/
theorem execAreaCmd_commanded {s : State} {a : AreaId} {f : AreaFields} {r : Area} (ha : s.definedArea? a = some r)
    (hf : AreaFields.empty f = false) :
    execAreaCmd a f s = .next (s.setArea a.toNat (commandArea s.build.defaultColor s.tick f r)) := by
  rw [execAreaCmd, ha]
  exact if_neg (ne_true_of_eq_false hf)

theorem AreaFields.empty_eq_false {f : AreaFields}
    (h : f.state ≠ none ∨ f.hue ≠ none ∨ f.sat ≠ none ∨ f.bri ≠ none) : AreaFields.empty f = false := by
  refine Bool.eq_false_iff.mpr fun he => ?_
  obtain ⟨h1, h2, h3, h4⟩ := (AreaFields.empty_iff f).mp he
  simp [h1, h2, h3, h4] at h

theorem startColor_eq (d c : Color) : startColor d c = if c.v.toInt < 0 then d else c := by
  simp only [startColor, isNone, decide_eq_true_eq]

/-- The hue of a retargeted Area: the field, wrapped, or what the Area starts from. -/
theorem retarget_hue (d : Color) (f : AreaFields) (r : Area) :
    (∀ h, f.hue = some h → (retarget d f r).base.h.toNat = h.toNat % 46080) ∧
    (f.hue = none → (retarget d f r).base.h = if r.base.v.toInt < 0 then d.h else r.base.h) := by
  refine ⟨fun h hf => ?_, fun hf => ?_⟩
  · have hlt : wrapHue h < 46080 := wrapHue_lt h
    simp only [retarget, applyFields, hf]
    exact field16_toNat (by omega)
  · simp only [retarget, applyFields, hf, startColor_eq, apply_ite Color.h]

theorem field16_clampSv (x : BitVec 16) : ((field16 (clampSv x)).toNat : ℤ) = max 0 (min x.toInt 25600) := by
  have hle : clampSv x ≤ 25600 := clampSv_le x
  rw [field16, field16_toNat (by omega)]
  exact Int.toNat_of_nonneg (Int.le_max_left _ _)

/-- The saturation of a retargeted Area: the field, clamped, or what the Area starts from. -/
theorem retarget_sat (d : Color) (f : AreaFields) (r : Area) :
    (∀ x, f.sat = some x → ((retarget d f r).base.s.toNat : ℤ) = max 0 (min x.toInt 25600)) ∧
    (f.sat = none → (retarget d f r).base.s = if r.base.v.toInt < 0 then d.s else r.base.s) := by
  refine ⟨fun x hf => ?_, fun hf => ?_⟩
  · simp only [retarget, applyFields, hf]
    exact field16_clampSv x
  · simp only [retarget, applyFields, hf, startColor_eq, apply_ite Color.s]

/-- The brightness of a retargeted Area: the field, clamped, or what the Area starts from. -/
theorem retarget_bri (d : Color) (f : AreaFields) (r : Area) :
    (∀ x, f.bri = some x → ((retarget d f r).base.v.toNat : ℤ) = max 0 (min x.toInt 25600)) ∧
    (f.bri = none → (retarget d f r).base.v = if r.base.v.toInt < 0 then d.v else r.base.v) := by
  refine ⟨fun x hf => ?_, fun hf => ?_⟩
  · simp only [retarget, applyFields, hf]
    exact field16_clampSv x
  · simp only [retarget, applyFields, hf, startColor_eq, apply_ite Color.v]

theorem retarget_on (d : Color) (f : AreaFields) (r : Area) :
    (∀ v, f.state = some v → (retarget d f r).on = v) ∧ (f.state = none → (retarget d f r).on = r.on) :=
  ⟨fun _ hf => congrArg (Option.getD · r.on) hf, fun hf => congrArg (Option.getD · r.on) hf⟩

/-- Settles O41: the Area written is `commandArea`; binding leaves its `BASE` and `ON`, so they are those of `retarget`. -/
theorem areaCmdRetargetsAndBindsATransition : Obligations.AreaCmdRetargetsAndBindsATransition := by
  intro s a f r hr hd hf
  have hx := execAreaCmd_commanded (State.definedArea?_eq_some.mpr ⟨hr, hd⟩) (AreaFields.empty_eq_false hf)
  obtain ⟨hon, hon'⟩ := retarget_on s.build.defaultColor f r
  obtain ⟨hhue, hhue'⟩ := retarget_hue s.build.defaultColor f r
  obtain ⟨hsat, hsat'⟩ := retarget_sat s.build.defaultColor f r
  obtain ⟨hbri, hbri'⟩ := retarget_bri s.build.defaultColor f r
  exact ⟨_, _, hx, rfl, fun b hb => State.area?_setArea_ne (Ne.symm hb) _, State.area?_setArea_self hr _, hd, rfl, rfl,
    hon, hon', hhue, hhue', hsat, hsat', hbri, hbri', rfl⟩

/-! ### EFFECT (R190, R191) -/

theorem execEffect_named {s : State} {a : AreaId} {q : EffectRequest} {r : Area} {m : Motion}
    (ha : s.definedArea? a = some r) (hm : requestedMotion q = some m) :
    execEffect a (some q) s = .next (s.setArea a.toNat (bindEffect s.tick r m)) := by
  simp only [execEffect, ha, hm]

theorem execEffect_unnamed {s : State} {a : AreaId} {q : EffectRequest} {r : Area} (ha : s.definedArea? a = some r)
    (hm : requestedMotion q = none) : execEffect a (some q) s = .next (s.flag .badCmd) := by
  simp only [execEffect, ha, hm]

/-- The effect each name asks for. -/
theorem requestedMotion_of_name {q : EffectRequest} {m : Motion}
    (h : (q.name = .rainbow ∧ m = Motion.rainbow q.rate q.width q.duration) ∨
      (∃ shape, q.name = .wave shape ∧ m = Motion.wave q.rate q.width shape q.duration) ∨
      (q.name = .cylon ∧ m = Motion.cylon q.rate q.width q.duration)) : requestedMotion q = some m := by
  unfold requestedMotion
  rcases h with ⟨hn, rfl⟩ | ⟨shape, hn, rfl⟩ | ⟨hn, rfl⟩ <;> rw [hn]

/-- Settles O45: a request with a name is bound (`execEffect_named`), one without sets the flag (`execEffect_unnamed`). -/
theorem effectBindsTheNamedEffect : Obligations.EffectBindsTheNamedEffect := by
  refine ⟨fun s a => rfl, fun s a q r hr hd => ?_⟩
  have ha : s.definedArea? a = some r := State.definedArea?_eq_some.mpr ⟨hr, hd⟩
  refine ⟨fun c hc => execEffect_unnamed ha ((requestedMotion_eq_none_iff q).mpr ⟨c, hc⟩), fun m hm => ?_⟩
  exact ⟨_, execEffect_named ha (requestedMotion_of_name hm), rfl, fun b hb => State.area?_setArea_ne (Ne.symm hb) _,
    State.area?_setArea_self hr _⟩

/-! ### QUERY (R102, R198, R199) -/

theorem execQuery_defined {s : State} {a : AreaId} {r : Area} (ha : s.definedArea? a = some r) :
    execQuery a s = .next (((s.respond (queryWord0 r)).respond (queryWord1 r)).setArea a.toNat { r with dirty := false }) := by
  rw [execQuery, ha]

/-- The single bits of the first response word. -/
theorem queryWord0_bits (r : Area) :
    (queryWord0 r).getLsbD 31 = true ∧ (queryWord0 r).getLsbD 30 = r.on ∧ (queryWord0 r).getLsbD 29 = !isNone r.base ∧
    (queryWord0 r).getLsbD 28 = r.dirty ∧ (queryWord0 r).getLsbD 27 = false := by
  have bit (b : Bool) : (BitVec.ofBool b).getLsbD 0 = b := getLsbD_bit1 b
  simp only [queryWord0, BitVec.getLsbD_append]
  simp only [Nat.reduceLT, if_true, if_false, Nat.reduceSub, bit]
  exact ⟨rfl, trivial, trivial, trivial, rfl⟩

theorem queryWord0_effect (r : Area) : (queryWord0 r).extractLsb' 24 3 = BitVec.ofNat 3 r.kind := by
  ext i hi
  simp only [queryWord0, BitVec.getElem_extractLsb', BitVec.getLsbD_append]
  rw [if_neg (by omega), if_neg (by omega), if_pos (by omega), BitVec.getLsbD_eq_getElem (by omega)]
  congr 1; omega

theorem queryWord0_reserved (r : Area) : (queryWord0 r).extractLsb' 7 17 = 0#17 := by
  ext i hi
  simp only [queryWord0, BitVec.getElem_extractLsb', BitVec.getLsbD_append]
  rw [if_neg (by omega), if_pos (by omega), BitVec.getLsbD_zero, BitVec.getElem_zero]

theorem queryWord0_brightness (r : Area) :
    (queryWord0 r).extractLsb' 0 7 = BitVec.ofNat 7 (brightness (reportedColor r).v) := by
  ext i hi
  simp only [queryWord0, BitVec.getElem_extractLsb', BitVec.getLsbD_append]
  rw [if_pos (by omega), BitVec.getLsbD_eq_getElem (by omega)]
  congr 1; omega

theorem Area.kind_lt (r : Area) : r.kind < 8 := by
  unfold Area.kind
  split
  · decide
  · next e _ => cases e.motion <;> simp [Motion.kind]

/-- What QUERY reports of a `BASE` that is NONE or in range: its own colour, or zeros. -/
theorem reportedColor_eq {r : Area} : reportedColor r = if 0 ≤ r.base.v.toInt then r.base else black := by
  simp only [reportedColor, isNone, decide_eq_true_eq]
  by_cases h : r.base.v.toInt < 0
  · rw [if_pos h, if_neg (by omega)]
  · rw [if_neg h, if_pos (by omega)]

theorem reportedColor_brightness_le {r : Area} (h : r.base = noneColor ∨ inRange r.base) :
    brightness (reportedColor r).v ≤ 100 := by
  have hv : (reportedColor r).v.toNat ≤ 25600 := by
    unfold reportedColor
    rcases h with h | h
    · rw [h, isNone_noneColor]; decide
    · rw [isNone_of_inRange h]; exact h.2.2
  unfold brightness
  omega

/-- Settles O46: the two words field by field. -/
theorem queryReportsTheTargetState : Obligations.QueryReportsTheTargetState := by
  intro s a r hr hd hbase
  have hx := execQuery_defined (State.definedArea?_eq_some.mpr ⟨hr, hd⟩)
  obtain ⟨b31, b30, b29, b28, b27⟩ := queryWord0_bits r
  have hle := reportedColor_brightness_le hbase
  have hbright : ((queryWord0 r).extractLsb' 0 7).toNat = brightness (reportedColor r).v := by
    rw [queryWord0_brightness, BitVec.toNat_ofNat, Nat.mod_eq_of_lt (by omega)]
  have hkind : ((queryWord0 r).extractLsb' 24 3).toNat = r.kind := by
    rw [queryWord0_effect, BitVec.toNat_ofNat, Nat.mod_eq_of_lt r.kind_lt]
  have hset : (!isNone r.base) = decide (0 ≤ r.base.v.toInt) := by
    rw [isNone, ← decide_not]
    exact decide_eq_decide.mpr Int.not_lt
  refine ⟨_, queryWord0 r, queryWord1 r, hx, ?_, fun b hb => State.area?_setArea_ne (Ne.symm hb) _,
    State.area?_setArea_self hr _, b31, b30, b29.trans hset, b28, b27, hkind, queryWord0_reserved r, ?_,
    hbright.trans_le hle, ?_⟩
  · simp only [State.setArea, State.respond, List.append_assoc, List.cons_append, List.nil_append]
  · rw [hbright, reportedColor_eq]
    split <;> rfl
  · rw [queryWord1, reportedColor_eq]
    split <;> rfl

end Sys2Proof.Machine
end

section
/-! SUPPORT. The frames of the four effects: the statements `TransitionFadesFromFromToTo`, `RainbowTurnsWithTimeAndPosition`,
`WaveTravelsAlongTheArea` and `CylonSweepsABand`. -/

namespace Sys2Proof.Machine

section Frames

variable {conv : Conversion} {ec : Color} {rate : Word} {width : BitVec 16} {dur : Option Word} {n e i : Nat}

/-! ### One position of a frame -/

theorem transition_getElem? {c0 c1 : Color} {d : Word} (hi : i < n) :
    ((Motion.transition c0 c1 d).frame conv ec n e)[i]? = some (toPixel conv (transitionColor c0 c1 d e)) := by
  rw [Motion.frame, List.getElem?_replicate, if_pos hi]

theorem map_range_getElem? {α : Type} (f : Nat → α) (hi : i < n) : ((List.range n).map f)[i]? = some (f i) := by
  rw [List.getElem?_map, List.getElem?_range hi, Option.map_some]

theorem rainbow_getElem? (hi : i < n) : ((Motion.rainbow rate width dur).frame conv ec n e)[i]? =
    some (toPixel conv (rainbowColor ec rate.toNat width.toNat e i)) := map_range_getElem? _ hi

theorem wave_getElem? {shape : WaveShape} (hi : i < n) : ((Motion.wave rate width shape dur).frame conv ec n e)[i]? =
    some (toPixel conv (waveColor ec rate.toNat width.toNat shape e i)) := map_range_getElem? _ hi

theorem cylon_getElem? (hi : i < n) : ((Motion.cylon rate width dur).frame conv ec n e)[i]? =
    some (cylonPixel conv ec n rate.toNat width.toNat e i) := map_range_getElem? _ hi

/-! ### Completion of the continuous effects (R213) -/

theorem rainbow_done_iff : (Motion.rainbow rate width dur).done e = true ↔ ∃ d, dur = some d ∧ d.toNat < e := by
  cases dur <;> simp [Motion.done]

theorem wave_done_iff {shape : WaveShape} :
    (Motion.wave rate width shape dur).done e = true ↔ ∃ d, dur = some d ∧ d.toNat < e := by
  cases dur <;> simp [Motion.done]

theorem cylon_done_iff : (Motion.cylon rate width dur).done e = true ↔ ∃ d, dur = some d ∧ d.toNat < e := by
  cases dur <;> simp [Motion.done]

end Frames

/-! ### Transition (R212) -/

theorem transitionColor_over {c0 c1 : Color} {d : Word} {e : Nat} (h : d.toNat = 0 ∨ d.toNat ≤ e) :
    transitionColor c0 c1 d e = c1 := if_pos h

theorem transitionColor_before {c0 c1 : Color} {d : Word} {e : Nat} (hd : 0 < d.toNat) (he : e < d.toNat) :
    transitionColor c0 c1 d e = mix c0 c1 e d.toNat := if_neg (by omega)

theorem transition_done_iff {c0 c1 : Color} {d : Word} {e : Nat} :
    (Motion.transition c0 c1 d).done e = true ↔ d.toNat = 0 ∨ d.toNat ≤ e := by simp [Motion.done]

/-- Settles O48: each position shows `transitionColor`, and a mix with nothing elapsed is its first colour (`mix_zero`). -/
theorem transitionFadesFromFromToTo : Obligations.TransitionFadesFromFromToTo := by
  intro conv ec c0 c1 dur n e i hi
  refine ⟨fun h => ⟨?_, transition_done_iff.mpr h⟩, fun hd he => ⟨?_, ?_⟩, fun hd _ _ => ?_⟩
  · rw [transition_getElem? hi, transitionColor_over h]
  · rw [transition_getElem? hi, transitionColor_before hd he]
  · rw [Bool.eq_false_iff, Ne, transition_done_iff]
    omega
  · rw [transition_getElem? hi, transitionColor_before hd hd, mix_zero c0 c1 hd]

/-! ### Rainbow (R214, R215) -/

theorem rainbowColor_add_period (ec : Color) (rate width e i : Nat) :
    rainbowColor ec rate width (e + rate) i = rainbowColor ec rate width e i := by
  simp only [rainbowColor, Nat.add_mod_right]

/-- A Rainbow of period 0 or 1 stands still. -/
theorem rainbowColor_still (ec : Color) {rate : Nat} (h : rate ≤ 1) (width e i : Nat) :
    rainbowColor ec rate width e i = rainbowColor ec rate width 0 i := by
  obtain rfl | rfl : rate = 0 ∨ rate = 1 := by omega
  · rfl
  · simp only [rainbowColor, Nat.mod_one]

/-- A Rainbow whose hue steps by nothing or by a whole turn is uniform. -/
theorem rainbowColor_uniform (ec : Color) (rate : Nat) {width : Nat} (h : width = 0 ∨ width = 46080) (e i : Nat) :
    rainbowColor ec rate width e i = rainbowColor ec rate width e 0 := by
  rcases h with rfl | rfl
  · simp only [rainbowColor, Nat.mul_zero]
  · simp only [rainbowColor, Config.hueMod, Nat.add_mul_mod_self_right]

theorem rainbowColor_hue (ec : Color) (rate width e i : Nat) : (rainbowColor ec rate width e i).h.toNat =
    ((if rate = 0 then 0 else (46080 * (e % rate)) / rate) + i * width) % 46080 :=
  field16_toNat (Nat.lt_trans (Nat.mod_lt _ (by decide)) (by decide))

/-- Settles O49: each position shows `rainbowColor`, whose period and corner cases are the lemmas above. -/
theorem rainbowTurnsWithTimeAndPosition : Obligations.RainbowTurnsWithTimeAndPosition := by
  intro conv ec rate width dur n e i hi
  refine ⟨⟨_, rainbow_getElem? hi, rainbowColor_hue ec _ _ _ _⟩, ?_, fun hr => ?_, fun hw => ?_, rainbow_done_iff⟩
  · simp only [Motion.frame, rainbowColor_add_period]
  · exact List.map_congr_left fun k _ => congrArg (toPixel conv) (rainbowColor_still ec hr _ e k)
  · rw [rainbow_getElem? hi, rainbow_getElem? (Nat.zero_lt_of_lt hi), rainbowColor_uniform ec _ hw]

/-! ### Wave (R216 to R219) -/

/-- The time phase less the space phase, as a residue of an integer difference. -/
theorem wavePhase_eq (rate width e i : Nat) : (wavePhase rate width e i : ℤ) =
    ((phase16 e rate : ℤ) - (if width = 0 then 0 else (65536 * (i % width)) / width : ℕ)) % 65536 := by
  have hsp : (if width = 0 then 0 else (65536 * (i % width)) / width) < 65536 := phase16_lt i width
  simp only [wavePhase]
  generalize (if width = 0 then 0 else (65536 * (i % width)) / width) = sp at hsp ⊢
  omega

theorem wavePhase_lt (rate width e i : Nat) : wavePhase rate width e i < 65536 := Nat.mod_lt _ (by decide)

theorem wavePhase_add_period (rate width e i : Nat) : wavePhase rate width (e + rate) i = wavePhase rate width e i := by
  simp only [wavePhase, phase16_add_period]

theorem wavePhase_still (width e i : Nat) : wavePhase 0 width e i = wavePhase 0 width 0 i := by
  simp only [wavePhase, phase16_period_zero]

theorem wavePhase_uniform (rate : Nat) {width : Nat} (h : width ≤ 1) (e i : Nat) :
    wavePhase rate width e i = wavePhase rate width e 0 := by
  obtain rfl | rfl : width = 0 ∨ width = 1 := by omega
  · rfl
  · simp only [wavePhase, Nat.mod_one]

theorem sinLut_le (k : Nat) : lutEntry sinLut k ≤ 65536 := by
  have hall : ∀ x ∈ sinLut, x ≤ 65536 := by decide +kernel
  rcases Nat.lt_or_ge k sinLut.length with hk | hk
  · rw [lutEntry, List.getD_eq_getElem _ _ hk]
    exact hall _ (List.getElem_mem hk)
  · rw [lutEntry, List.getD_eq_default _ _ hk]
    exact Nat.zero_le _

/-- The multiplier of a Wave is at most one. -/
theorem waveProfile_le (shape : WaveShape) {ph : Nat} (h : ph < 65536) : waveProfile shape ph ≤ 65536 := by
  cases shape with
  | triangular =>
    simp only [waveProfile, tri16]
    split <;> omega
  | sinusoidal => exact sinLut_le _

/-- A share of at most one of a value in range fits the value's field. -/
theorem waveColor_val {ec : Color} (hec : inRange ec) (rate width : Nat) (shape : WaveShape) (e i : Nat) :
    (waveColor ec rate width shape e i).v.toNat =
      (ec.v.toNat * waveProfile shape (wavePhase rate width e i) + 32768) / 65536 := by
  obtain ⟨-, -, hv⟩ := hec
  have hm := Nat.mul_le_mul hv (waveProfile_le shape (wavePhase_lt rate width e i))
  refine field16_toNat ?_
  simp only [Config.svOne] at hm
  omega

/-- Settles O50: each position shows `waveColor`, which depends on time and place through `wavePhase` alone. -/
theorem waveTravelsAlongTheArea : Obligations.WaveTravelsAlongTheArea := by
  intro conv ec rate width shape dur n e i hec hi
  refine ⟨⟨wavePhase rate.toNat width.toNat e i, waveProfile shape (wavePhase rate.toNat width.toNat e i), _,
    wave_getElem? hi, wavePhase_eq _ _ _ _, ?_, ?_, waveColor_val hec _ _ _ _ _⟩, ?_, fun hw => ?_, fun hr => ?_,
    wave_done_iff⟩
  · rintro rfl; rfl
  · rintro rfl; rfl
  · simp only [Motion.frame, waveColor, wavePhase_add_period]
  · rw [wave_getElem? hi, wave_getElem? (Nat.zero_lt_of_lt hi), waveColor, wavePhase_uniform _ hw, ← waveColor]
  · refine List.map_congr_left fun k _ => ?_
    rw [hr, waveColor, wavePhase_still, ← waveColor]

/-! ### Cylon (R220, R221) -/

theorem absDiff_eq (a b : Nat) : absDiff a b = ((a : ℤ) - b).natAbs := by
  unfold absDiff
  omega

theorem cylonCentre_le (n rate e : Nat) : cylonCentre n rate e ≤ (n - 1) * 256 := by
  have ht := phase16_lt e rate
  unfold cylonCentre
  refine Nat.div_le_of_le_mul ?_
  rw [Nat.mul_comm 32768]
  refine Nat.mul_le_mul_left _ ?_
  split <;> omega

theorem cylonPixel_off {conv : Conversion} {ec : Color} {n rate width e i : Nat}
    (h : width * 128 = 0 ∨ width * 128 ≤ absDiff (i * 256) (cylonCentre n rate e)) :
    cylonPixel conv ec n rate width e i = 0#32 := if_pos h

theorem cylonPixel_lit {conv : Conversion} {ec : Color} {n rate width e i : Nat}
    (h : absDiff (i * 256) (cylonCentre n rate e) < width * 128) :
    cylonPixel conv ec n rate width e i = toPixel conv (withVal ec (field16
      ((2 * ec.v.toNat * (width * 128 - absDiff (i * 256) (cylonCentre n rate e)) + width * 128) / (2 * (width * 128))))) :=
  if_neg (by omega)

/-- The rounded share `(hw − d) / hw` of a value is at most the value. -/
theorem roundedShare_le (v d : Nat) {hw : Nat} (h : 0 < hw) : (2 * v * (hw - d) + hw) / (2 * hw) ≤ v := by
  have hle : 2 * v * (hw - d) ≤ 2 * v * hw := Nat.mul_le_mul_left _ (Nat.sub_le _ _)
  rw [← Nat.lt_succ_iff, Nat.div_lt_iff_lt_mul (by omega)]
  calc 2 * v * (hw - d) + hw ≤ 2 * v * hw + hw := by omega
    _ < 2 * v * hw + 2 * hw := by omega
    _ = v.succ * (2 * hw) := by rw [Nat.succ_eq_add_one]; ring

/-- At the centre of the band the share is the whole value. -/
theorem roundedShare_zero (v : Nat) {hw : Nat} (h : 0 < hw) : (2 * v * (hw - 0) + hw) / (2 * hw) = v := by
  rw [Nat.div_eq_iff (by omega), Nat.sub_zero]
  have hv : v * (2 * hw) = 2 * v * hw := by ring
  omega

/-- Settles O52: each position shows `cylonPixel`, off or lit by its distance from `cylonCentre`. -/
theorem cylonSweepsABand : Obligations.CylonSweepsABand := by
  intro conv ec rate width dur n e i hec hi
  obtain ⟨-, -, hv⟩ := hec
  have hd := absDiff_eq (i * 256) (cylonCentre n rate.toNat e)
  push_cast at hd
  refine ⟨_, cylonCentre_le n rate.toNat e, rfl, fun h => ?_, fun h => ⟨_, ?_, field16_toNat ?_, fun hc => ?_⟩,
    cylon_done_iff⟩
  · rw [← hd] at h
    rw [cylon_getElem? hi, cylonPixel_off h]
  · rw [← hd] at h
    rw [cylon_getElem? hi, cylonPixel_lit h, hd, withVal, field16]
  · have hle := roundedShare_le ec.v.toNat ((i : ℤ) * 256 - cylonCentre n rate.toNat e).natAbs (Nat.zero_lt_of_lt h)
    simp only [Config.svOne] at hv
    omega
  · have h0 : ((i : ℤ) * 256 - cylonCentre n rate.toNat e).natAbs = 0 := by omega
    rw [h0] at h ⊢
    rw [roundedShare_zero _ h, BitVec.ofNat_toNat, BitVec.setWidth_eq]

end Sys2Proof.Machine
end

section
/-! SUPPORT. The tick over the whole state: the statements `IdleTickOnlyCounts`, `TickUpdatesEveryActiveAreaAndShowsOnce` and
`UpdateWritesEveryMappedPosition`. -/

namespace Sys2Proof.Machine

/-! ### A tick without an active effect (R182) -/

theorem someActive_eq_false {s : State} (h : ∀ a r, s.area? a = some r → r.eff = none) : someActive s = false := by
  refine List.any_eq_false.mpr fun r hr => ?_
  obtain ⟨a, ha⟩ := List.mem_iff_getElem?.mp hr
  simp [h a r ha]

theorem areaWrites_of_idle {s : State} {a : Nat} (h : ∀ r, s.area? a = some r → r.eff = none) : areaWrites s a = [] := by
  unfold areaWrites
  cases ha : s.area? a with
  | none => rfl
  | some r => simp only [h r ha]

theorem areaWrites_of_active {s : State} {a : Nat} {r : Area} {e : Effect} (ha : s.area? a = some r)
    (he : r.eff = some e) :
    areaWrites s a = e.emap.zip (e.motion.frame s.conversion (effColor r) e.emap.length (s.tick - e.start)) := by
  simp only [areaWrites, ha, he]

theorem tickedArea_of_idle (tick : Nat) {r : Area} (h : r.eff = none) : tickedArea tick r = r := by
  simp only [tickedArea, h]

theorem ticked_of_idle {s : State} (h : ∀ a r, s.area? a = some r → r.eff = none) :
    s.ticked = { s with tick := s.tick + 1 } := by
  have hw : tickWrites s = [] := List.flatMap_eq_nil_iff.mpr fun a _ => areaWrites_of_idle (h a)
  have hm : s.areas.map (tickedArea s.tick) = s.areas := by
    refine (List.map_congr_left fun r hr => ?_).trans (List.map_id _)
    obtain ⟨a, ha⟩ := List.mem_iff_getElem?.mp hr
    exact tickedArea_of_idle s.tick (h a r ha)
  rw [State.ticked, hw, hm, State.setPixels_nil]

/-- Settles O53: no Area is active, so there is no show, and the updates have no writes and clear no slot. -/
theorem idleTickOnlyCounts : Obligations.IdleTickOnlyCounts := by
  intro s h
  have hx : exec .tick s = .next s.ticked := by
    rw [exec, execTick_eq, if_neg (by simp [someActive_eq_false h])]
  rw [hx, ticked_of_idle h]

/-! ### Any tick (R181, R183) -/

/-- After the updates of a tick and its count there is at most a show. -/
theorem execTick_frame {s t : State} (h : execTick s = .next t) : ShowFrame s.ticked t := by
  rcases execTick_cases h with ⟨-, hsh⟩ | ⟨-, rfl⟩
  · exact showAll_frame hsh
  · exact .refl _

/-- The strips of a show and their pulses, as the statements name them. -/
theorem showAll_sent {s t : State} (h : showAll s = .next t) : ∃ new, t.wire = s.wire ++ new ∧
    framesOf new = sentStrips s ∧ pulsesOf new = shownPulses s := by
  obtain ⟨new, htrace⟩ := showAll_trace h
  exact ⟨new, htrace.wire, htrace.frames, htrace.pulses.trans (sentBy_all s)⟩

theorem shownPulses_of_showFrame {s t : State} (h : ShowFrame s t) : shownPulses t = shownPulses s := by
  have hlen : t.strips.length = s.strips.length := by
    simpa [stripGeometry] using congrArg List.length h.geometry
  rw [shownPulses, shownPulses, ← sentBy_all, ← sentBy_all, hlen]
  exact List.flatMap_congr fun k _ => sentBy_geometry h.geometry h.pixbuf h.build k

theorem sentStrips_ticked (s : State) : sentStrips s.ticked = sentStrips s := by
  simp only [sentStrips, State.ticked_strips]

/-- Settles O54: a tick is its updates and its count (`State.ticked`), then at most one show (`execTick_frame`). -/
theorem tickUpdatesEveryActiveAreaAndShowsOnce : Obligations.TickUpdatesEveryActiveAreaAndShowsOnce := by
  intro s hb hirq
  obtain ⟨t, ht⟩ := exec_next .tick hb
  have hf := execTick_frame ht
  refine ⟨t, ht, hf.tick, area?_execTick ht,
    fun j => (pixel?_execTick ht j).trans (State.pixel?_setPixels hb.canonical _ j),
    hf.status.trans (State.setPixels_status _ _), by simpa using hf.geometry, by simpa using hf.npix, by simpa using hf.ctrl,
    by simpa using hf.rsp, by simpa using hf.cmd, by simpa using hf.waiting, by simpa using hf.build,
    hf.irq (by simpa using hirq), ?_⟩
  rcases execTick_cases ht with ⟨hact, hsh⟩ | ⟨hidle, rfl⟩
  · obtain ⟨new, hwire, hframes, hpulses⟩ := showAll_sent hsh
    refine ⟨new, by simpa using hwire, fun _ => ⟨?_, ?_⟩, fun hc => by simp [hact] at hc⟩
    · rw [hframes, sentStrips_ticked]
    · rw [hpulses, shownPulses_of_showFrame hf]
  · exact ⟨[], by simp, fun hc => by simp [hidle] at hc, fun _ => ⟨rfl, by simp, by simp⟩⟩

/-! ### One active Area (R210) -/

/-- A concatenation over a list without repeats to which one element alone contributes. -/
theorem flatMap_eq_of_single {α β : Type} {l : List α} (hn : l.Nodup) {a : α} (ha : a ∈ l) {f : α → List β}
    (hf : ∀ b, b ≠ a → f b = []) : l.flatMap f = f a := by
  obtain ⟨xs, ys, rfl⟩ := List.append_of_mem ha
  obtain ⟨hxs, hys⟩ : a ∉ xs ∧ a ∉ ys := by
    rw [List.nodup_middle, List.nodup_cons, List.mem_append, not_or] at hn
    exact hn.1
  have hx : xs.flatMap f = [] := List.flatMap_eq_nil_iff.mpr fun b hb => hf b (ne_of_mem_of_not_mem hb hxs)
  have hy : ys.flatMap f = [] := List.flatMap_eq_nil_iff.mpr fun b hb => hf b (ne_of_mem_of_not_mem hb hys)
  rw [List.flatMap_append, List.flatMap_cons, hx, hy, List.nil_append, List.append_nil]

theorem tickWrites_of_single {s : State} {a : Nat} {r : Area} (ha : s.area? a = some r)
    (h : ∀ b r', b ≠ a → s.area? b = some r' → r'.eff = none) : tickWrites s = areaWrites s a :=
  flatMap_eq_of_single List.nodup_range (List.mem_range.mpr (State.area?_lt ha)) fun b hb =>
    areaWrites_of_idle fun r' => h b r' hb

/-- Settles O55: the writes of the tick are the one active Area's, its map zipped with its frame. -/
theorem updateWritesEveryMappedPosition : Obligations.UpdateWritesEveryMappedPosition := by
  intro s a r e hb ha he hn hothers
  obtain ⟨t, ht⟩ := exec_next .tick hb
  have hw := (tickWrites_of_single ha hothers).trans (areaWrites_of_active ha he)
  refine ⟨t, ht, fun i x hx hlt => ?_, fun j hj => ?_⟩
  · have hi : i < e.emap.length := (List.getElem?_eq_some_iff.mp hx).1
    have hl := frame_length e.motion s.conversion (effColor r) e.emap.length (s.tick - e.start)
    rw [pixel?_execTick ht, State.pixel?_setPixels hb.canonical, if_pos hlt, hw, lastWrite_zip e.emap hn _ hl i x hx,
      List.getElem?_eq_getElem (hl.symm ▸ hi), Option.getD_some]
  · rw [pixel?_execTick ht, hw]
    exact State.pixel?_setPixels_ne _ _ _ fun w hmem => hj _ (List.of_mem_zip hmem).1

end Sys2Proof.Machine
end

section
/-! SUPPORT. The transmitter: the statements `ShowSendsEveryStripInOrder`, `ShowKeepsTheResetGap`, `FrameIsOneCriticalSection`,
`WireOrderIsGreenRedBlueWhite` and `FrameDurationIsBounded`. -/

namespace Sys2Proof.Machine

/-! ### SHOW (R240, R241) -/

/-- A show changes nothing but timestamps, the clock, the wire and the count of clock readings. -/
theorem ShowFrame.eq {s t : State} (h : ShowFrame s t) (hirq : s.irqDisable = false) :
    t = { s with strips := t.strips, now := t.now, wire := t.wire, clockReads := t.clockReads } := by
  obtain ⟨hbuild, -, hnpix, hpixbuf, hareas, htick, hctrl, hstatus, hirq', -, hrsp, hcmd, hwaiting⟩ := h
  rw [State.ext_iff]
  simp only [hbuild, hnpix, hpixbuf, hareas, htick, hctrl, hstatus, hirq' hirq, hirq, hrsp, hcmd, hwaiting, and_self]

/-- Settles O56: what a show leaves is `ShowFrame`, what it sends is `showAll_sent`. -/
theorem showSendsEveryStripInOrder : Obligations.ShowSendsEveryStripInOrder := by
  intro s hb hirq
  obtain ⟨t, ht⟩ := showAll_next hb.contiguous
  have hf := showAll_frame ht
  exact ⟨t, ht, hf.eq hirq, hf.geometry, hf.now, showAll_sent ht⟩

/-! ### The reset gap (R242, R243, R246, R250) -/

theorem stripPixels_eq (s : State) (r : Strip) :
    stripPixels s r = (List.range r.length.toNat).map fun j => s.pixbuf.read (r.offset.toNat + j) := by
  rw [stripPixels, Strip.indices, List.map_map]
  rfl

theorem showTrace_nil (s : State) : ∃ new, ShowTrace [] s s new := showFrom_trace List.nodup_nil rfl

/-- Every command that answers a next state ends in the turns of some strips, none of them for a command other than SHOW and
TICK; before these turns it has left the build, the clock and the wire, and the strips unless it is a CONFIGURE. -/
theorem exec_showTrace {i : Instr} {s t : State} (h : exec i s = .next t) : ∃ ks u new, ks.Nodup ∧ ShowTrace ks u t new ∧
    u.build = s.build ∧ u.now = s.now ∧ u.wire = s.wire ∧ (u.strips = s.strips ∨ ks = [] ∧ ∃ ds, i = .configure ds) := by
  by_cases hs : i = .showStrips
  · subst hs
    obtain ⟨new, htrace⟩ := showAll_trace h
    exact ⟨_, s, new, List.nodup_range, htrace, rfl, rfl, rfl, .inl rfl⟩
  by_cases ht : i = .tick
  · subst ht
    rcases execTick_cases h with ⟨-, hsh⟩ | ⟨-, rfl⟩
    · obtain ⟨new, htrace⟩ := showAll_trace hsh
      exact ⟨_, s.ticked, new, List.nodup_range, htrace, by simp, by simp, by simp, .inl (by simp)⟩
    · obtain ⟨new, htrace⟩ := showTrace_nil s.ticked
      exact ⟨_, _, new, List.nodup_nil, htrace, by simp, by simp, by simp, .inl (by simp)⟩
  obtain ⟨new, htrace⟩ := showTrace_nil t
  obtain ⟨hbuild, hnow, hwire⟩ := exec_build_now_wire hs ht h
  refine ⟨_, _, new, List.nodup_nil, htrace, hbuild, hnow, hwire, ?_⟩
  by_cases hc : ∃ ds, i = .configure ds
  · exact .inr ⟨rfl, hc⟩
  · exact .inl (exec_strips_npix (not_exists.mp hc) hs ht h).1

/-- Settles O57: the facts of `ShowTrace` about the turns that end the command. -/
theorem showKeepsTheResetGap : Obligations.ShowKeepsTheResetGap := by
  intro i s t h
  obtain ⟨ks, u, new, hks, htrace, hbuild, hnow, hwire, hstrips⟩ := exec_showTrace h
  refine ⟨new, hwire ▸ htrace.wire, htrace.frames ▸ hks.filter _, fun k a ha => ?_, fun k hk => ?_, htrace.stop,
    fun hc k hk => ?_, fun hf => (htrace.still hf).trans hnow⟩
  · obtain ⟨hk, r, hr, hgap, hle, hend⟩ := htrace.start k a ha
    rcases hstrips with hstrips | ⟨rfl, -⟩
    · exact ⟨r, hstrips ▸ hr, hbuild ▸ hgap, hnow ▸ hle, hend⟩
    · cases hk
  · obtain ⟨r, a, b, hr, hlast, hab, hb, hin⟩ := htrace.whole k hk
    rw [hbuild, stripPixels_eq] at hin
    exact ⟨r, a, b, hr, hlast, hab, hb, hin⟩
  · rcases hstrips with hstrips | ⟨-, ds, rfl⟩
    · rw [htrace.others k hk, hstrips]
    · exact absurd rfl (hc ds)

/-! ### One frame (R243, R246) -/

/-- The start of a frame of strip `r`: the reading of the clock, or the end of the reset gap when that is later. -/
def frameStartTime (s : State) (r : Strip) : Nat :=
  max (s.now + Config.elapsedUs s.clockReads) (r.lastShown + s.build.resetUs)

theorem openFrame_eq (s : State) (k : Nat) (r : Strip) : s.openFrame k r = { s with
    irqDisable := true,
    now := frameStartTime s r,
    clockReads := s.clockReads + 1,
    wire := s.wire ++ [.frameStart k (frameStartTime s r)] } := rfl

theorem closeFrame_eq (s : State) (k : Nat) : s.closeFrame k = { s with
    strips := s.strips.modify k (fun r => { r with lastShown := s.now + Config.elapsedUs s.clockReads }),
    irqDisable := false,
    now := s.now + Config.elapsedUs s.clockReads,
    clockReads := s.clockReads + 1,
    wire := s.wire ++ [.frameEnd k (s.now + Config.elapsedUs s.clockReads)] } := rfl

/-- Settles O58: the frame starts at `frameStartTime` and ends with the next reading of the clock. -/
theorem frameIsOneCriticalSection : Obligations.FrameIsOneCriticalSection := by
  intro s k r hfit pulses
  refine ⟨frameStartTime s r, frameStartTime s r + Config.elapsedUs (s.clockReads + 1), Nat.le_max_right _ _,
    Nat.le_trans (Nat.le_add_right _ _) (Nat.le_max_left _ _), Nat.le_add_right _ _,
    fun hgap => Nat.max_eq_left (Nat.le_trans hgap (Nat.le_add_right _ _)), openFrame_eq s k r, fun es => ⟨?_, ?_⟩, ?_, ?_⟩
  · rw [State.emit_irqDisable, State.openFrame_irqDisable]
  · rw [State.emit_wire, openFrame_eq]
  · rw [transmit_next hfit, stripPixels_eq]
  · rw [closeFrame_eq, openFrame_eq, State.emit]

/-! ### The order of the bits (R244, R245) -/

/-- Indexing a concatenation of blocks of one length. -/
theorem getElem?_flatMap_of_length {α β : Type} {f : α → List β} {c : Nat} (hf : ∀ x, (f x).length = c) {xs : List α}
    {j : Nat} {x : α} (hx : xs[j]? = some x) {n : Nat} (hn : n < c) : (xs.flatMap f)[c * j + n]? = (f x)[n]? := by
  induction xs generalizing j with
  | nil => cases hx
  | cons y ys ih =>
    rw [List.flatMap_cons]
    cases j with
    | zero =>
      cases hx
      rw [Nat.mul_zero, Nat.zero_add, List.getElem?_append_left (hn.trans_eq (hf x).symm)]
    | succ j =>
      have hidx : c * (j + 1) + n = (f y).length + (c * j + n) := by rw [hf, Nat.mul_succ]; omega
      rw [hidx, List.getElem?_append_right (Nat.le_add_right _ _), Nat.add_sub_cancel_left]
      exact ih hx

theorem byteBits_getElem? (b : BitVec 8) {n : Nat} (hn : n < 8) : (byteBits b)[n]? = some (b.getLsbD (7 - n)) := by
  have hlist : ([7, 6, 5, 4, 3, 2, 1, 0] : List Nat)[n]? = some (7 - n) := by
    interval_cases n <;> rfl
  rw [byteBits, List.getElem?_map, hlist, Option.map_some]

/-- The bit of a frame at a pixel, a channel of the order and a bit of its byte. -/
theorem framePulses_getElem? {order : List Channel} (ho : order.length = 4) (pin : BitVec 8) {ps : List Pixel} {j m n : Nat}
    {p : Pixel} {c : Channel} (hp : ps[j]? = some p) (hc : order[m]? = some c) (hn : n < 8) :
    (framePulses order pin ps)[32 * j + 8 * m + n]? = some (pulse pin ((channelByte p c).getLsbD (7 - n))) := by
  have hm : m < 4 := ho ▸ (List.getElem?_eq_some_iff.mp hc).1
  have hlen (q : Pixel) : ((pixelBits order q).map (pulse pin)).length = 32 := by
    rw [List.length_map, pixelBits_length, ho]
  rw [framePulses, Nat.add_assoc, getElem?_flatMap_of_length hlen hp (by omega), List.getElem?_map, pixelBits,
    getElem?_flatMap_of_length (fun c => byteBits_length (channelByte p c)) hc hn, byteBits_getElem? _ hn, Option.map_some]

/-- The byte of a channel lies at this bit of a pixel word (R21). -/
def channelShift : Channel → Nat
  | .white => 24
  | .red => 16
  | .green => 8
  | .blue => 0

theorem channelByte_getLsbD (p : Pixel) (c : Channel) {k : Nat} (hk : k < 8) :
    (channelByte p c).getLsbD k = p.getLsbD (channelShift c + k) := by
  cases c <;> simp only [channelByte, channelShift, BitVec.getLsbD_extractLsb', hk, decide_true, Bool.true_and]

/-- Where a bit of the default order, counted from the first pulse of a pixel, lies in the pixel word. -/
theorem defaultOrder_bit {m k : Nat} {c : Channel} (hc : Build.default.wireOrder[m]? = some c) (hk : k < 8) :
    (if 8 * m + k < 8 then 15 - (8 * m + k) else if 8 * m + k < 16 then 31 - (8 * m + k)
      else if 8 * m + k < 24 then 23 - (8 * m + k) else 55 - (8 * m + k)) = channelShift c + (7 - k) := by
  have hm : m < 4 := (List.getElem?_eq_some_iff.mp hc).1
  interval_cases m <;> cases hc <;> simp only [channelShift] <;> split_ifs <;> omega

/-- Settles O59: a frame's bits are indexed by pixel, channel and bit (`framePulses_getElem?`); in the default order the channels
are green, red, blue and white (`defaultOrder_bit`). -/
theorem wireOrderIsGreenRedBlueWhite : Obligations.WireOrderIsGreenRedBlueWhite := by
  refine ⟨fun order pin ps j m n p c ho hp hc hn => ⟨framePulses_length ho pin ps, framePulses_getElem? ho pin hp hc hn⟩,
    fun pin ps j n p hp hn => ?_, pulse_timing.2.2.2⟩
  obtain ⟨m, k, hm, hk, rfl⟩ : ∃ m k, m < 4 ∧ k < 8 ∧ n = 8 * m + k := ⟨n / 8, n % 8, by omega, by omega, by omega⟩
  have hc := List.getElem?_eq_getElem (l := Build.default.wireOrder) hm
  rw [← Nat.add_assoc, framePulses_getElem? rfl pin hp hc hk, defaultOrder_bit hc hk, channelByte_getLsbD p _ (by omega)]
  rfl

/-! ### The length of a frame (R252) -/

theorem wireCycles_pulses (pin : BitVec 8) (bits : List Bool) :
    bits.length * (min Config.t0hCyc Config.t1hCyc + Config.tlCyc) ≤ wireCycles (bits.map (pulse pin)) ∧
    wireCycles (bits.map (pulse pin)) ≤ bits.length * (max Config.t0hCyc Config.t1hCyc + Config.tlCyc) := by
  induction bits with
  | nil => simp [wireCycles]
  | cons b bits ih =>
    have hhigh : min Config.t0hCyc Config.t1hCyc ≤ (if b then Config.t1hCyc else Config.t0hCyc) ∧
        (if b then Config.t1hCyc else Config.t0hCyc) ≤ max Config.t0hCyc Config.t1hCyc := by
      cases b <;> simp
    simp only [List.length_cons, Nat.succ_mul, List.map_cons, pulse, wireCycles] at ih ⊢
    omega

/-- Settles O60: a frame is one pulse per bit, 32 of them for each pixel. -/
theorem frameDurationIsBounded : Obligations.FrameDurationIsBounded := by
  intro order pin ps ho
  have hbits : framePulses order pin ps = (ps.flatMap (pixelBits order)).map (pulse pin) := List.map_flatMap.symm
  have hlen : (ps.flatMap (pixelBits order)).length = 32 * ps.length := by
    rw [← framePulses_length ho pin ps, hbits, List.length_map]
  rw [hbits, ← hlen]
  exact wireCycles_pulses pin _

end Sys2Proof.Machine
end
